-- ==== Sys2Proof/Word.lean ====
section
/-! DEFINITION. The two widths of the RLE codec core: the byte of every buffer and the 32-bit word of every length, pointer and register. -/

namespace Sys2Proof

/-- A byte, an unsigned value `0 .. 255` (20_memory.md R61). -/
abbrev Byte := BitVec 8

/-- A value of `AW` = 32 bits (00_scope.md R8): a register, a pointer, a length or a frame field. -/
abbrev Word := BitVec 32

end Sys2Proof
end

