-- ==== Sys2Proof/Config.lean ====
section
/-! DEFINITION. What is fixed for the life of the hardware: the constants of 00_scope.md R7, the four open buffer capacities of R8, and the free values of 93_implementation_defined.md U5 to U8. -/

namespace Sys2Proof

/-- `BLOCK_SIZE`: the most raw bytes one block holds (R7). -/
abbrev blockSize : Nat := 262144

/-- `MIN_RUN`: the smallest run the encoder turns into a run token (R7). -/
abbrev minRun : Nat := 3

/-- `MAX_RUN`: the cap of the encoder's run counter (R7). -/
abbrev maxRun : Nat := 255

/-- `COUNT_BYTES`: the size of the BLOCK_COUNT field (R7). -/
abbrev countBytes : Nat := 4

/-- `LEN_BYTES`: the size of a PAYLOAD_LEN field (R7). -/
abbrev lenBytes : Nat := 4

/-- `FLAG_RUN`: first byte of a run token (R7). -/
abbrev flagRun : Byte := 0xFE

/-- `FLAG_ESC`: first byte of an escaped-literal token (R7). -/
abbrev flagEsc : Byte := 0xFF

/-- The two units (10_state.md R20): ENC, the encoder, and DEC, the decoder. -/
inductive UnitId where
  | enc
  | dec
deriving DecidableEq, Repr

/-- The buffer capacities, OPEN parameters in `0 .. 2^32 - 1` (R8, decision D5).
DESIGN CHOICE (log 2): the machine carries one `Config` in its state and never changes it. -/
structure Config where
  eInCap : Word
  eOutCap : Word
  dInCap : Word
  dOutCap : Word
deriving DecidableEq, Repr

/-- Capacity of the input buffer `U.IN` (R29). -/
def Config.inCap (c : Config) : UnitId → Nat
  | .enc => c.eInCap.toNat
  | .dec => c.dInCap.toNat

/-- Capacity of the output buffer `U.OUT` (R30). -/
def Config.outCap (c : Config) : UnitId → Nat
  | .enc => c.eOutCap.toNat
  | .dec => c.dOutCap.toNat

/-- The capacities `State.reset` carries: the largest R8 admits. DESIGN CHOICE (log 2). -/
def Config.largest : Config :=
  { eInCap := 4294967295, eOutCap := 4294967295, dInCap := 4294967295, dOutCap := 4294967295 }

/-- FREE VALUE (U7, log 3): the arbitrary but definite byte that offset `a` of `U.IN` holds from
the `k`-th reset on, until the host writes it. -/
opaque Config.resetByte : (u : UnitId) → (k : Nat) → (a : Nat) → Byte

/-- FREE VALUE (U5 and U6, log 4): the byte an unspecified `ReadOut` returns, one for each draw. -/
opaque Config.freeByte : (u : UnitId) → (draw : Nat) → Byte

/-- FREE VALUE (U8, log 5): what working register number `i` of a unit holds once a job has ended,
one for each draw. -/
opaque Config.freeWord : (u : UnitId) → (draw : Nat) → (i : Nat) → Word

end Sys2Proof
end

