-- ==== Sys2Proof/Syntax.lean ====
section
/-! DEFINITION. The instructions: one constructor for each of the seven rows of spec/opcode_table.json. -/

namespace Sys2Proof

/-- The three tokens of a payload (30_encoding.md R93), the two frame fields (R91, R92) and the two
host commands (R108). -/
inductive Instr where
  /-- LIT `v`: one byte that stands for itself (R94). -/
  | lit (v : Byte)
  /-- ESC `v`: `0xFF v` (R95). -/
  | esc (v : Byte)
  /-- RUN `n, v`: `0xFE n v` (R96). -/
  | run (n v : Byte)
  /-- BLOCK_COUNT `N`: the first field of a compressed buffer (R91). -/
  | blockCount (N : Word)
  /-- PAYLOAD_LEN `L`: the first field of a block (R92). -/
  | payloadLen (L : Word)
  /-- COMPRESS: the value `x` written to `E.CTRL` (R108). -/
  | compress (x : Word)
  /-- DECOMPRESS: the value `x` written to `D.CTRL` (R108). -/
  | decompress (x : Word)
deriving DecidableEq, Repr

/-- Whether an instruction is a token, i.e. an item of a payload (R93). -/
def Instr.isToken : Instr → Bool
  | .lit _ => true
  | .esc _ => true
  | .run _ _ => true
  | .blockCount _ => false
  | .payloadLen _ => false
  | .compress _ => false
  | .decompress _ => false

end Sys2Proof
end

