-- ==== Sys2Proof/WellFormed.lean ====
section
/-! DEFINITION. Which instructions exist as bits (30_encoding.md R94 to R96, R105, R108), and which tokens the encoder may emit (R100). -/

namespace Sys2Proof

/-- The START bit of a value written to `U.CTRL` (10_state.md R23). -/
def startBit (x : Word) : Bool := x.getLsbD 0

/-- The operand ranges the format and the decoder admit (R105): a literal is no flag byte, every
other operand is free, and a command has its START bit set (R108). -/
def Instr.wellFormed : Instr → Bool
  | .lit v => v != flagRun && v != flagEsc
  | .esc _ => true
  | .run _ _ => true
  | .blockCount _ => true
  | .payloadLen _ => true
  | .compress x => startBit x
  | .decompress x => startBit x

/-- Canonical tokens (R100): ESC only of 254 and 255, RUN only of 3 bytes or more. Not a token: false. -/
def Instr.canonical : Instr → Bool
  | .lit v => decide (v.toNat ≤ 253)
  | .esc v => decide (254 ≤ v.toNat)
  | .run n _ => decide (minRun ≤ n.toNat)
  | .blockCount _ => false
  | .payloadLen _ => false
  | .compress _ => false
  | .decompress _ => false

end Sys2Proof
end

