-- ==== Sys2Proof/Decode.lean ====
section
/-! DEFINITION. The decoder of tokens, frame fields and host commands, total and rejecting by name, and after it the encoder (30_encoding.md R90 to R108). -/

namespace Sys2Proof

/-- `UBE32`: the value of four bytes, the first the most significant (20_memory.md R63). -/
def ube32 (b0 b1 b2 b3 : Byte) : Word :=
  BitVec.ofNat 32 (b0.toNat * 2 ^ 24 + b1.toNat * 2 ^ 16 + b2.toNat * 2 ^ 8 + b3.toNat)

/-- `BE32`: the four bytes of a value, most significant first (00_scope.md section 5). -/
def be32 (w : Word) : List Byte :=
  [BitVec.ofNat 8 (w.toNat / 2 ^ 24), BitVec.ofNat 8 (w.toNat / 2 ^ 16),
   BitVec.ofNat 8 (w.toNat / 2 ^ 8), BitVec.ofNat 8 w.toNat]

/-- Where bits stand. An item is selected by its position, not by its value (R91, R92, R97, R108). -/
inductive Source where
  /-- The bytes of a compressed buffer from offset 0 on. -/
  | countField (bytes : List Byte)
  /-- The bytes from the offset where a block is due. -/
  | lenField (bytes : List Byte)
  /-- The bytes of a payload from the first byte of a token to the payload's end. -/
  | token (bytes : List Byte)
  /-- The host writes `x` to register number `r` of unit `u`. -/
  | regWrite (u : UnitId) (r : Nat) (x : Word)
deriving DecidableEq, Repr

/-- Why bits are no instruction. The illegal encodings are exactly the truncated ones (R102); a
register write that is no command is not an encoding at all (10_state.md R23). -/
inductive Reject where
  /-- Fewer than the 4 bytes of a BLOCK_COUNT. -/
  | countTruncated
  /-- Fewer than the 4 bytes of a due PAYLOAD_LEN. -/
  | lenTruncated
  /-- No byte at all where a token is looked for. -/
  | noToken
  /-- A first byte 255 with no byte after it. -/
  | escOperandMissing
  /-- A first byte 254 with no byte after it. -/
  | runOperandsMissing
  /-- A first byte 254 and a run length `n`, with no value byte. -/
  | runValueMissing (n : Byte)
  /-- A register write that is not a write to CTRL with START set. -/
  | notCommand
deriving DecidableEq, Repr

/-- One token from the front of a payload, and the bytes after it (R97, R98): the first byte alone
tells the length, and operand bytes are never looked at for flags. -/
def decodeToken : List Byte → Except Reject (Instr × List Byte)
  | [] => .error .noToken
  | f :: rest =>
    if f = flagEsc then
      match rest with
      | [] => .error .escOperandMissing
      | v :: tail => .ok (.esc v, tail)
    else if f = flagRun then
      match rest with
      | [] => .error .runOperandsMissing
      | [n] => .error (.runValueMissing n)
      | n :: v :: tail => .ok (.run n v, tail)
    else .ok (.lit f, rest)

/-- The decoder: the instruction at the front of a source, and the bytes after it. -/
def decode : Source → Except Reject (Instr × List Byte)
  | .countField (b0 :: b1 :: b2 :: b3 :: rest) => .ok (.blockCount (ube32 b0 b1 b2 b3), rest)
  | .countField _ => .error .countTruncated
  | .lenField (b0 :: b1 :: b2 :: b3 :: rest) => .ok (.payloadLen (ube32 b0 b1 b2 b3), rest)
  | .lenField _ => .error .lenTruncated
  | .token bytes => decodeToken bytes
  | .regWrite u r x =>
    if r = 0 ∧ startBit x then
      match u with
      | .enc => .ok (.compress x, [])
      | .dec => .ok (.decompress x, [])
    else .error .notCommand

/-- A whole payload read as tokens, at most `fuel` of them (R104). -/
def decodeTokens : Nat → List Byte → Except Reject (List Instr)
  | _, [] => .ok []
  | 0, _ :: _ => .error .noToken
  | fuel + 1, b :: bs =>
    match decodeToken (b :: bs) with
    | .error e => .error e
    | .ok (i, rest) =>
      match decodeTokens fuel rest with
      | .error e => .error e
      | .ok is => .ok (i :: is)

/-- The division of a payload into tokens (R104): each token takes at least one byte. -/
def parsePayload (bytes : List Byte) : Except Reject (List Instr) := decodeTokens bytes.length bytes

/-! The encoder, written from the same tables. -/

/-- The bytes an item occupies in a buffer (R91 to R96). A command occupies none (R108). -/
def Instr.bytes : Instr → List Byte
  | .lit v => [v]
  | .esc v => [flagEsc, v]
  | .run n v => [flagRun, n, v]
  | .blockCount N => be32 N
  | .payloadLen L => be32 L
  | .compress _ => []
  | .decompress _ => []

/-- Where an instruction stands, and its bits there. -/
def encode : Instr → Source
  | .lit v => .token (Instr.lit v).bytes
  | .esc v => .token (Instr.esc v).bytes
  | .run n v => .token (Instr.run n v).bytes
  | .blockCount N => .countField (Instr.blockCount N).bytes
  | .payloadLen L => .lenField (Instr.payloadLen L).bytes
  | .compress x => .regWrite .enc 0 x
  | .decompress x => .regWrite .dec 0 x

/-- A source with more bytes after its own; a register write has no bytes after it. -/
def Source.followedBy : Source → List Byte → Source
  | .countField bs, rest => .countField (bs ++ rest)
  | .lenField bs, rest => .lenField (bs ++ rest)
  | .token bs, rest => .token (bs ++ rest)
  | .regWrite u r x, _ => .regWrite u r x

/-- The bytes of a token sequence: no separators, no padding (R93). -/
def encodeTokens : List Instr → List Byte
  | [] => []
  | i :: is => i.bytes ++ encodeTokens is

/-! The opcode table's numbering. -/

/-- Byte `k` of a number whose bit 0 is the least significant bit of the first byte. -/
def tableByte (w k : Nat) : Byte := BitVec.ofNat 8 (w / 2 ^ (8 * k))

/-- Where an instruction of `nbits` bits `w` stands. Up to three bytes are a token. Four rows of the
table have 32 bits and only their position tells them apart: DESIGN CHOICE (log 12), a word with
bit 0 set is read as a write to `E.CTRL`, any other as a BLOCK_COUNT field. -/
def tableSource (nbits w : Nat) : Source :=
  if nbits ≤ 24 then .token [tableByte w 0, tableByte w 1, tableByte w 2]
  else if w % 2 = 1 then .regWrite .enc 0 (BitVec.ofNat 32 w)
  else .countField [tableByte w 0, tableByte w 1, tableByte w 2, tableByte w 3]

/-- The instruction the decoder reads from bits numbered as spec/opcode_table.json numbers them. -/
def decodeTableWord (nbits w : Nat) : Option Instr :=
  match decode (tableSource nbits w) with
  | .ok (i, _) => some i
  | .error _ => none

end Sys2Proof
end

