-- ==== Sys2Proof/Machine/State.lean ====
section
/-! DEFINITION. The state of the hardware as plain data (10_state.md), what stops a step, and the state after reset. -/

namespace Sys2Proof.Machine

/-- `U.STATUS.STATE` (10_state.md R24). -/
inductive Phase where
  /-- 0: no job since reset. -/
  | idle
  /-- 1: a job is in progress. -/
  | busy
  /-- 2: the last job ended without fault. -/
  | done
  /-- 3: the last job ended with a fault. -/
  | error
deriving DecidableEq, Repr

/-- `U.ERR.CAUSE` (10_state.md R27, 60_exceptions.md R240). -/
inductive Cause where
  /-- 0, NONE. -/
  | noFault
  /-- 1, MI_COUNT: the buffer is shorter than the BLOCK_COUNT field (R242). -/
  | miCount
  /-- 2, MI_LEN: a block is due and fewer than 4 bytes remain (R243). -/
  | miLen
  /-- 3, MI_PAYLOAD: a PAYLOAD_LEN exceeds the bytes that remain (R244). -/
  | miPayload
  /-- 4, MI_TOKEN: a payload ends inside a token (R245). -/
  | miToken
  /-- 5, OUT_OVERFLOW: no room in `U.OUT` (R246). -/
  | outOverflow
  /-- 6, BAD_LENGTH: `U.IN_LEN` above the capacity of `U.IN` (R247). -/
  | badLength
deriving DecidableEq, Repr

/-- `D.tok_state` (10_state.md R32): how far into a token DEC is. -/
inductive TokState where
  | hdr
  | readFlag
  | readEscValue
  | readRunLen
  | readRunValue
deriving DecidableEq, Repr

/-- The bytes of one buffer: offset and byte, offsets strictly rising. An offset that is not listed
holds an unspecified byte (10_state.md R40, 20_memory.md R77). -/
abbrev Memory := List Host.Cell

/-- What both units have: the host-visible registers (10_state.md R22; CTRL holds nothing), the two
buffers (R29, R30), and two counters of the model's own for the free values (log 3 to 5). -/
structure Shell where
  /-- STATUS, register 1: the STATE field; its other bits read 0 (R24). -/
  status : Phase
  /-- IN_LEN, register 2 (R25). -/
  inLen : Word
  /-- OUT_LEN, register 3 (R26). -/
  outLen : Word
  /-- ERR, register 4: the CAUSE field; its other bits read 0 (R27). -/
  err : Cause
  /-- ERR_POS, register 5 (R28). -/
  errPos : Word
  /-- `U.IN` (R29). -/
  inp : Memory
  /-- `U.OUT` (R30). -/
  out : Memory
  /-- MODEL'S OWN: how many resets there were; names the unspecified contents of `U.IN` (log 3). -/
  resets : Nat
  /-- MODEL'S OWN: how many free values this unit has drawn (log 4, log 5). -/
  draws : Nat
deriving DecidableEq, Repr

/-- ENC's working registers (10_state.md R31). -/
structure EncWork where
  /-- The job's input length. -/
  n : Word
  /-- The block count. -/
  nblk : Word
  /-- How many blocks are closed. -/
  blk : Word
  /-- Whether a block is open. -/
  inBlk : Bool
  /-- The cursor, ENC's program counter (R34). -/
  cur : Word
  /-- One past the open block's last byte. -/
  blkEnd : Word
  /-- The write pointer. -/
  wp : Word
  /-- Where the open block's PAYLOAD_LEN field stands. -/
  hdr : Word
  /-- The counted run length. -/
  runCnt : Byte
  /-- The byte at the cursor. -/
  runVal : Byte
deriving DecidableEq, Repr

/-- DEC's working registers (10_state.md R32). -/
structure DecWork where
  /-- The job's input length. -/
  n : Word
  /-- The read pointer, DEC's program counter (R35). -/
  rp : Word
  /-- How many blocks are still to be parsed. -/
  blkRem : Word
  /-- One past the last byte of the block's payload. -/
  payEnd : Word
  /-- The write pointer. -/
  wp : Word
  /-- How far into a token DEC is. -/
  tokState : TokState
  /-- Where the token's first byte stands. -/
  tokStart : Word
  /-- The run-length byte of the RUN being read. -/
  runLen : Byte
deriving DecidableEq, Repr

/-- The host's operations (42_host_interface.md R210). -/
inductive HostOp where
  /-- Write byte `v` to `U.IN[a]` (R215). -/
  | writeIn (u : UnitId) (a : Word) (v : Byte)
  /-- Write `x` to register number `r`; COMPRESS and DECOMPRESS among them (R211, R212, R218, R223). -/
  | writeReg (u : UnitId) (r : Nat) (x : Word)
  /-- Read register number `r` (R217). -/
  | readReg (u : UnitId) (r : Nat)
  /-- Read the byte `U.OUT[a]` (R216). -/
  | readOut (u : UnitId) (a : Word)
  /-- The reset event (70_reset_and_hazards.md R270). -/
  | reset
deriving DecidableEq, Repr

/-- What a read gave the host. -/
inductive Answer where
  | reg (u : UnitId) (r : Nat) (x : Word)
  | byte (u : UnitId) (a : Word) (v : Byte)
deriving DecidableEq, Repr

/-- The three agents (00_scope.md R10). -/
inductive Agent where
  | host
  | enc
  | dec
deriving DecidableEq, Repr

/-- The state of the hardware (10_state.md R20) with the configuration it was built with (log 2), and
of the host what concerns the hardware (log 1): the operations it still has to issue, the answers it
has got (latest first), and whose turn it is at the coming steps. -/
structure State where
  cfg : Config
  encShell : Shell
  enc : EncWork
  decShell : Shell
  dec : DecWork
  pending : List HostOp
  answers : List Answer
  turns : List Agent
deriving DecidableEq, Repr

/-- Why a step stops. The hardware's own faults (60_exceptions.md R240) are no such stop: raising
one is a next state with STATUS = ERROR (R251). Each stop below is SAFE, and none is reached from a
state that satisfies `State.Inv` (Safety.lean); the log entry is 6. -/
inductive Fault where
  /-- Raised by the steps of DEC and ENC when the working registers would let a unit read `U.IN` at
  or beyond `U.n` or its capacity: the `requires` clause of MemRead (20_memory.md R62). Safe. -/
  | outsideInput
  /-- Raised by ENC's close-block step when the PAYLOAD_LEN field does not lie inside `E.OUT`: the
  `requires` clause of MemWrite (R62). Safe. -/
  | outsideOutput
  /-- Raised by a unit's step when no guard of its reference machine holds, and by the meaning of a
  token or a frame field run where its guard does not hold: the spec has no transition there
  (40_encoder.md section 2, 41_decoder.md section 2). Safe. -/
  | noGuard
deriving DecidableEq, Repr

/-- Why an instruction is refused. -/
inductive Refusal where
  /-- Raised by `exec` for an instruction that has no meaning yet. Safe. -/
  | notModelled (mnemonic : String)
deriving DecidableEq, Repr

/-- How a step or a meaning ends. -/
abbrev Result := Host.Outcome State Fault Refusal

/-- A unit's registers and buffers after its `k`-th reset (10_state.md R40): no byte listed, so every
byte is unspecified (log 3); `draws` goes on counting. -/
def Shell.afterReset (resets draws : Nat) : Shell :=
  { status := .idle, inLen := 0, outLen := 0, err := .noFault, errPos := 0,
    inp := [], out := [], resets := resets, draws := draws }

/-- ENC's working registers after reset: R40 leaves them unspecified. DESIGN CHOICE zero (log 7). -/
def EncWork.afterReset : EncWork :=
  { n := 0, nblk := 0, blk := 0, inBlk := false, cur := 0, blkEnd := 0, wp := 0, hdr := 0,
    runCnt := 0, runVal := 0 }

/-- DEC's working registers after reset: R40 leaves them unspecified. DESIGN CHOICE zero (log 7). -/
def DecWork.afterReset : DecWork :=
  { n := 0, rp := 0, blkRem := 0, payEnd := 0, wp := 0, tokState := .hdr, tokStart := 0, runLen := 0 }

/-- The machine right after reset (R40, R271): both units idle, the host with nothing to do. -/
def State.reset : State :=
  { cfg := Config.largest,
    encShell := Shell.afterReset 0 0, enc := EncWork.afterReset,
    decShell := Shell.afterReset 0 0, dec := DecWork.afterReset,
    pending := [], answers := [], turns := [] }

end Sys2Proof.Machine
end

