-- ==== Sys2Proof/Machine/Ops.lean ====
section
/-! DEFINITION. The named operations over buffers and registers, and the operations both units share: accepting a command, raising a fault, ending a job, appending to the output. -/

namespace Sys2Proof.Machine

/-! Buffers as sorted lists. -/

/-- The byte listed at an offset, if one is. -/
def Memory.get : Memory → Nat → Option Byte
  | [], _ => none
  | (b, v) :: m, a => if a = b then some v else Memory.get m a

/-- Store one byte, keeping the offsets in order. -/
def Memory.set : Memory → Nat → Byte → Memory
  | [], a, v => [(a, v)]
  | (b, w) :: m, a, v =>
    if a < b then (a, v) :: (b, w) :: m
    else if a = b then (a, v) :: m
    else (b, w) :: Memory.set m a v

/-- Store bytes at ascending offsets from `a` on (20_memory.md R63). -/
def Memory.setMany (m : Memory) (a : Nat) : List Byte → Memory
  | [] => m
  | v :: vs => Memory.setMany (Memory.set m a v) (a + 1) vs

/-- The canonical form: offsets strictly rising. An unlisted offset reads as no byte of its own, so
no entry can equal it. -/
def Memory.wf : Memory → Bool
  | [] => true
  | [_] => true
  | (a, _) :: (b, w) :: m => decide (a < b) && Memory.wf ((b, w) :: m)

/-! Access to a unit's shell and working registers. -/

/-- The registers and buffers of a unit. -/
def State.shell (s : State) : UnitId → Shell
  | .enc => s.encShell
  | .dec => s.decShell

/-- Replace the registers and buffers of a unit. -/
def State.setShell (s : State) : UnitId → Shell → State
  | .enc, sh => { s with encShell := sh }
  | .dec, sh => { s with decShell := sh }

/-- Replace ENC's working registers. -/
def State.setEnc (s : State) (e : EncWork) : State := { s with enc := e }

/-- Replace DEC's working registers. -/
def State.setDec (s : State) (d : DecWork) : State := { s with dec := d }

/-- Whether a unit has a job in progress. -/
def State.busy (s : State) (u : UnitId) : Bool := (s.shell u).status == .busy

/-- Capacity of `U.IN`. -/
def State.inCap (s : State) (u : UnitId) : Nat := s.cfg.inCap u

/-- Capacity of `U.OUT`. -/
def State.outCap (s : State) (u : UnitId) : Nat := s.cfg.outCap u

/-- A unit's write pointer `U.wp`. -/
def State.wp (s : State) : UnitId → Word
  | .enc => s.enc.wp
  | .dec => s.dec.wp

/-- Write `U.wp`. -/
def State.setWp (s : State) : UnitId → Word → State
  | .enc, p => s.setEnc { s.enc with wp := p }
  | .dec, p => s.setDec { s.dec with wp := p }

/-! Reading the input buffer. -/

/-- `MemRead(U.IN, a, 1)`: the byte the host wrote, or the unspecified one (log 3). -/
def State.readIn (s : State) (u : UnitId) (a : Nat) : Byte :=
  ((s.shell u).inp.get a).getD (Config.resetByte u (s.shell u).resets a)

/-- The `k` bytes of `U.IN` from offset `a` on. -/
def State.inBytes (s : State) (u : UnitId) (a : Nat) : Nat → List Byte
  | 0 => []
  | k + 1 => s.readIn u a :: s.inBytes u (a + 1) k

/-- `MemRead(U.IN, a, 4)`: four one-byte reads at ascending offsets, the first the most significant
(20_memory.md R63). -/
def State.readIn32 (s : State) (u : UnitId) (a : Nat) : Word :=
  ube32 (s.readIn u a) (s.readIn u (a + 1)) (s.readIn u (a + 2)) (s.readIn u (a + 3))

/-! Writing the output buffer. -/

/-- `MemWrite(U.OUT, a, ..)`: store bytes from offset `a` on; its callers have checked the room. -/
def State.writeOut (s : State) (u : UnitId) (a : Nat) (bs : List Byte) : State :=
  s.setShell u { s.shell u with out := (s.shell u).out.setMany a bs }

/-- `U_OUT_CAP - U.wp`: how many more bytes fit (20_memory.md R76). -/
def State.room (s : State) (u : UnitId) : Nat := s.outCap u - (s.wp u).toNat

/-! Ending a job. -/

/-- Unspecified working registers of ENC (93_implementation_defined.md U8, log 5). -/
def EncWork.free (k : Nat) : EncWork :=
  { n := Config.freeWord .enc k 0, nblk := Config.freeWord .enc k 1, blk := Config.freeWord .enc k 2,
    inBlk := (Config.freeWord .enc k 3).getLsbD 0, cur := Config.freeWord .enc k 4,
    blkEnd := Config.freeWord .enc k 5, wp := Config.freeWord .enc k 6,
    hdr := Config.freeWord .enc k 7, runCnt := (Config.freeWord .enc k 8).setWidth 8,
    runVal := (Config.freeWord .enc k 9).setWidth 8 }

/-- The token state of a numeric encoding; 5 to 7 never occur (10_state.md R32). -/
def TokState.ofCode (w : Word) : TokState :=
  if w = 0 then .hdr
  else if w = 1 then .readFlag
  else if w = 2 then .readEscValue
  else if w = 3 then .readRunLen
  else .readRunValue

/-- Unspecified working registers of DEC (U8, log 5). -/
def DecWork.free (k : Nat) : DecWork :=
  { n := Config.freeWord .dec k 0, rp := Config.freeWord .dec k 1, blkRem := Config.freeWord .dec k 2,
    payEnd := Config.freeWord .dec k 3, wp := Config.freeWord .dec k 4,
    tokState := TokState.ofCode (Config.freeWord .dec k 5), tokStart := Config.freeWord .dec k 6,
    runLen := (Config.freeWord .dec k 7).setWidth 8 }

/-- A unit's working registers become unspecified (10_state.md R33): one draw of free values. -/
def State.freeWork (s : State) : UnitId → State
  | .enc => { s with enc := EncWork.free s.encShell.draws,
                     encShell := { s.encShell with draws := s.encShell.draws + 1 } }
  | .dec => { s with dec := DecWork.free s.decShell.draws,
                     decShell := { s.decShell with draws := s.decShell.draws + 1 } }

/-- `raise <CAUSE>(pos)`, the taking of a fault (60_exceptions.md R251): ERR, ERR_POS, OUT_LEN and
STATUS are written; `U.OUT` and the working registers become unspecified; `U.IN` and IN_LEN stay. -/
def State.raise (s : State) (u : UnitId) (c : Cause) (pos : Word) : State :=
  let t := s.freeWork u
  t.setShell u { t.shell u with err := c, errPos := pos, outLen := 0, status := .error, out := [] }

/-- The host's way out of a fault, and the start of every job (60_exceptions.md R253,
42_host_interface.md R214): accepting a command clears OUT_LEN, ERR and ERR_POS, and all of `U.OUT`
becomes unspecified (20_memory.md R77). -/
def State.accept (s : State) (u : UnitId) : State :=
  s.setShell u { s.shell u with outLen := 0, err := .noFault, errPos := 0, out := [] }

/-- `U.STATUS <- BUSY`, the last line of a job start (40_encoder.md R132, 41_decoder.md R172). -/
def State.setBusy (s : State) (u : UnitId) : State :=
  s.setShell u { s.shell u with status := .busy }

/-- Completion (40_encoder.md R143, 41_decoder.md R180): `U.OUT_LEN <- U.wp` and STATUS = DONE; the
working registers become unspecified (10_state.md R33). -/
def State.complete (s : State) (u : UnitId) : State :=
  let len := s.wp u
  let t := s.freeWork u
  t.setShell u { t.shell u with outLen := len, status := .done }

/-! Producing output. -/

/-- Write bytes at the write pointer and advance it past them. -/
def State.put (s : State) (u : UnitId) (bs : List Byte) : State :=
  (s.writeOut u (s.wp u).toNat bs).setWp u (s.wp u + BitVec.ofNat 32 bs.length)

/-- Produce `bs`, then do `after`; the room is checked first, and OUT_OVERFLOW at `pos` is raised
before any byte is written (40_encoder.md R144, 41_decoder.md R186, 60_exceptions.md R246). -/
def State.emit (s : State) (u : UnitId) (pos : Word) (bs : List Byte) (after : State → State) : State :=
  if bs.length > s.room u then s.raise u .outOverflow pos else after (s.put u bs)

end Sys2Proof.Machine
end

