-- ==== Sys2Proof/Machine/Flags.lean ====
section
/-! DEFINITION. The flag-like state of 10_state.md R36 as software sees it: the STATUS and ERR words, the reading of every register, and whether an output byte is readable. -/

namespace Sys2Proof.Machine

/-- The STATE field's code (10_state.md R24). -/
def Phase.code : Phase → Word
  | .idle => 0
  | .busy => 1
  | .done => 2
  | .error => 3

/-- The CAUSE field's code (10_state.md R27, 60_exceptions.md R240). -/
def Cause.code : Cause → Word
  | .noFault => 0
  | .miCount => 1
  | .miLen => 2
  | .miPayload => 3
  | .miToken => 4
  | .outOverflow => 5
  | .badLength => 6

/-- The document's one error kind, MalformedInput: causes 1 to 4 (60_exceptions.md R241). -/
def Cause.malformed : Cause → Bool
  | .noFault => false
  | .miCount => true
  | .miLen => true
  | .miPayload => true
  | .miToken => true
  | .outOverflow => false
  | .badLength => false

/-- `ReadReg(U, r)` (42_host_interface.md R217): CTRL and every absent register read 0, and the
reserved bits of STATUS and ERR read 0 (10_state.md R41). -/
def Shell.readReg (sh : Shell) : Nat → Word
  | 0 => 0
  | 1 => sh.status.code
  | 2 => sh.inLen
  | 3 => sh.outLen
  | 4 => sh.err.code
  | 5 => sh.errPos
  | _ => 0

/-- The numeric encoding of `D.tok_state` (10_state.md R32). -/
def TokState.code : TokState → Word
  | .hdr => 0
  | .readFlag => 1
  | .readEscValue => 2
  | .readRunLen => 3
  | .readRunValue => 4

/-- Neither unit is BUSY (70_reset_and_hazards.md R281). -/
def State.quiescent (s : State) : Bool := !s.busy .enc && !s.busy .dec

/-- Whether `U.OUT[a]` has a specified value for the host (42_host_interface.md R216). -/
def Shell.outReadable (sh : Shell) (a : Nat) : Bool :=
  sh.status == .done && decide (a < sh.outLen.toNat)

end Sys2Proof.Machine
end

