-- ==== Sys2Proof/Machine/Operands.lean ====
section
/-! DEFINITION. Where operands come from: the token DEC is reading, and the run ENC counts at its cursor with the token it chooses. -/

namespace Sys2Proof.Machine

/-! DEC's operands. -/

/-- The bytes of the token in progress that DEC has already consumed; `D.tok_state` and `D.run_len`
hold them (41_decoder.md R175, R178). -/
def DecWork.consumed (d : DecWork) : List Byte :=
  match d.tokState with
  | .hdr => []
  | .readFlag => []
  | .readEscValue => [flagEsc]
  | .readRunLen => [flagRun]
  | .readRunValue => [flagRun, d.runLen]

/-- The longest token (30_encoding.md R93). -/
abbrev maxToken : Nat := 3

/-- The bytes of the token in progress: those consumed, then those at `D.rp` up to the payload's
end, which bounds a token (41_decoder.md R179, decision D11). -/
def State.tokenBytes (s : State) : List Byte :=
  s.dec.consumed ++ s.inBytes .dec s.dec.rp.toNat (min maxToken (s.dec.payEnd.toNat - s.dec.rp.toNat))

/-- The bytes of a due PAYLOAD_LEN field that the input buffer still holds (41_decoder.md R173). -/
def State.lenBytesAt (s : State) : List Byte :=
  s.inBytes .dec s.dec.rp.toNat (min lenBytes (s.dec.n.toNat - s.dec.rp.toNat))

/-- DEC is at the first byte of a token (the guard of 41_decoder.md R175). -/
def State.atFirstByte (s : State) : Bool :=
  s.busy .dec && s.dec.tokState == .readFlag && decide (s.dec.rp.toNat < s.dec.payEnd.toNat)

/-- DEC is BUSY in a token state (the guards of 41_decoder.md R177, R178). -/
def State.inTokState (s : State) (t : TokState) : Bool := s.busy .dec && s.dec.tokState == t

/-- DEC is where a block header is due (the guard of 41_decoder.md R173). -/
def State.atHeader (s : State) : Bool :=
  s.busy .dec && s.dec.tokState == .hdr && decide (0 < s.dec.blkRem.toNat)

/-! ENC's operands. -/

/-- How many of the next `k` bytes of `U.IN` from `a` on equal `v`, up to the first that does not. -/
def State.runFrom (s : State) (u : UnitId) (v : Byte) (a : Nat) : Nat → Nat
  | 0 => 0
  | k + 1 => if s.readIn u a = v then s.runFrom u v (a + 1) k + 1 else 0

/-- `RunLen(E.IN, E.cur, E.blk_end)` (40_encoder.md R131, R136): capped at MAX_RUN and at the end of
the block, looking only forward. -/
def State.runLen (s : State) : Nat :=
  s.runFrom .enc (s.readIn .enc s.enc.cur.toNat) s.enc.cur.toNat
    (min maxRun (s.enc.blkEnd.toNat - s.enc.cur.toNat))

/-- The token emitted for a counted run of `r` bytes `v` (40_encoder.md R137). -/
def chooseToken (r v : Byte) : Instr :=
  if minRun ≤ r.toNat then .run r v else if 254 ≤ v.toNat then .esc v else .lit v

/-- How many raw bytes the chosen token represents (40_encoder.md R141). -/
def advanceOf (r : Byte) : Nat := if minRun ≤ r.toNat then r.toNat else 1

/-- The block count of an input of `n` bytes, rounded up (40_encoder.md R133); 0 for the empty input. -/
def blockCountOf (n : Nat) : Nat := (n + blockSize - 1) / blockSize

end Sys2Proof.Machine
end

