-- ==== Sys2Proof/Machine/Token.lean ====
section
/-! DEFINITION. The meanings of the three tokens (41_decoder.md R175 to R178). A token of two or three bytes runs over two or three steps: `D.tok_state` says which of them its meaning takes. -/

namespace Sys2Proof.Machine

/-- Consume a flag byte: `D.tok_start` records it, and the token's operands come next (R175). -/
def State.fetchFlag (s : State) (next : TokState) : State :=
  s.setDec { s.dec with tokStart := s.dec.rp, rp := s.dec.rp + 1, tokState := next }

/-- Consume a RUN token's length byte (R178, first part). -/
def State.takeRunLen (s : State) (n : Byte) : State :=
  s.setDec { s.dec with runLen := n, rp := s.dec.rp + 1, tokState := .readRunValue }

/-- Consume the last byte of a token and look for the next first byte (R176 to R178). -/
def State.nextToken (s : State) : State :=
  s.setDec { s.dec with rp := s.dec.rp + 1, tokState := .readFlag }

/-- The payload ended inside a token: MI_TOKEN at the token's first byte (60_exceptions.md R245). -/
def State.missingOperand (s : State) : State := s.raise .dec .miToken s.dec.tokStart

/-- `D.rp = D.pay_end` (41_decoder.md R177, R178). -/
def State.atPayloadEnd (s : State) : Bool := s.dec.rp == s.dec.payEnd

/-- LIT `v` (41_decoder.md R175, R176): one step that records the token's offset and appends `v`. -/
def execLit (v : Byte) (s : State) : Result :=
  if s.atFirstByte then
    let t := s.setDec { s.dec with tokStart := s.dec.rp }
    .next (t.emit .dec t.dec.tokStart [v] State.nextToken)
  else .fault .noGuard

/-- ESC `v` (41_decoder.md R175, R177): a step for the flag, and one that appends `v` as it stands. -/
def execEsc (v : Byte) (s : State) : Result :=
  if s.atFirstByte then .next (s.fetchFlag .readEscValue)
  else if s.inTokState .readEscValue then
    if s.atPayloadEnd then .next s.missingOperand
    else .next (s.emit .dec s.dec.tokStart [v] State.nextToken)
  else .fault .noGuard

/-- RUN `n, v` (41_decoder.md R175, R178): a step for the flag, one that holds `n` in `D.run_len`, and
one that appends `D.run_len` copies of `v`; no length is too small and 0 appends nothing. -/
def execRun (n v : Byte) (s : State) : Result :=
  if s.atFirstByte then .next (s.fetchFlag .readRunLen)
  else if s.inTokState .readRunLen then
    if s.atPayloadEnd then .next s.missingOperand else .next (s.takeRunLen n)
  else if s.inTokState .readRunValue then
    if s.atPayloadEnd then .next s.missingOperand
    else .next (s.emit .dec s.dec.tokStart (List.replicate s.dec.runLen.toNat v) State.nextToken)
  else .fault .noGuard

end Sys2Proof.Machine
end

