-- ==== Sys2Proof/Machine/Frame.lean ====
section
/-! DEFINITION. The meanings of the two frame fields in DEC (41_decoder.md R172 to R174). -/

namespace Sys2Proof.Machine

/-- BLOCK_COUNT `N` (41_decoder.md R172, from its bound check on): the first field of a job's buffer,
read inside the DECOMPRESS step. Its position is offset 0 of a job that has not started
(30_encoding.md R91). The count is not checked against the buffer's length. -/
def execBlockCount (N : Word) (s : State) : Result :=
  if !s.busy .dec && s.dec.rp == 0 then
    if countBytes > s.dec.n.toNat - s.dec.rp.toNat then .next (s.raise .dec .miCount 0)
    else .next ((s.setDec { s.dec with blkRem := N, rp := 4, tokState := .hdr }).setBusy .dec)
  else .fault .noGuard

/-- PAYLOAD_LEN `L` (41_decoder.md R173, R174): the block's end is fixed once `L` is known to fit in
the bytes that remain; both bounds are checked by subtraction (20_memory.md R76). -/
def execPayloadLen (L : Word) (s : State) : Result :=
  if s.atHeader then
    if lenBytes > s.dec.n.toNat - s.dec.rp.toNat then .next (s.raise .dec .miLen s.dec.rp)
    else
      let p := s.dec.rp + 4
      if L.toNat > s.dec.n.toNat - p.toNat then .next (s.raise .dec .miPayload p)
      else .next (s.setDec { s.dec with rp := p, payEnd := p + L, tokState := .readFlag })
  else .fault .noGuard

end Sys2Proof.Machine
end

