-- ==== Sys2Proof/Machine/Command.lean ====
section
/-! DEFINITION. The meanings of the two host commands, each with its unit's job start (42_host_interface.md R211, R212; 40_encoder.md R132, R133; 41_decoder.md R172). -/

namespace Sys2Proof.Machine

/-- ENC's working registers at a job's start (40_encoder.md R132). The others are assigned by later
rules before they are read (10_state.md R33) and keep what they held. -/
def State.encStart (s : State) : State :=
  s.setEnc { s.enc with
    n := s.encShell.inLen, nblk := BitVec.ofNat 32 (blockCountOf s.encShell.inLen.toNat),
    blk := 0, inBlk := false, cur := 0, wp := 0 }

/-- DEC's working registers at a job's start, before BLOCK_COUNT is read (41_decoder.md R172). -/
def State.decStart (s : State) : State :=
  s.setDec { s.dec with n := s.decShell.inLen, rp := 0, wp := 0 }

/-- COMPRESS (42_host_interface.md R211, 40_encoder.md R132). Without its START bit, and while ENC is
BUSY, the write has no effect (R223, R213). The BLOCK_COUNT field is written in the same step. -/
def execCompress (x : Word) (s : State) : Result :=
  if !startBit x || s.busy .enc then .next s
  else
    let a := s.accept .enc
    if a.encShell.inLen.toNat > a.inCap .enc then .next (a.raise .enc .badLength 0)
    else
      let t := a.encStart
      .next (t.emit .enc t.enc.cur (Instr.blockCount t.enc.nblk).bytes (fun r => r.setBusy .enc))

/-- DECOMPRESS (42_host_interface.md R212, 41_decoder.md R172). Without its START bit, and while DEC
is BUSY, the write has no effect (R223, R213). The BLOCK_COUNT field is run in the same step. -/
def execDecompress (x : Word) (s : State) : Result :=
  if !startBit x || s.busy .dec then .next s
  else
    let a := s.accept .dec
    if a.decShell.inLen.toNat > a.inCap .dec then .next (a.raise .dec .badLength 0)
    else
      let t := a.decStart
      if countBytes > t.dec.n.toNat - t.dec.rp.toNat then .next (t.raise .dec .miCount 0)
      else execBlockCount (t.readIn32 .dec 0) t

end Sys2Proof.Machine
end

