-- ==== Sys2Proof/Machine/Dispatch.lean ====
section
/-! DEFINITION. Which meaning each instruction has. -/

namespace Sys2Proof.Machine

def exec (i : Instr) (s : State) : Host.Outcome State Fault Refusal :=
  match i with
  | .lit v => Sys2Proof.Machine.execLit v s
  | .esc v => Sys2Proof.Machine.execEsc v s
  | .run n v => Sys2Proof.Machine.execRun n v s
  | .blockCount N => Sys2Proof.Machine.execBlockCount N s
  | .payloadLen L => Sys2Proof.Machine.execPayloadLen L s
  | .compress x => Sys2Proof.Machine.execCompress x s
  | .decompress x => Sys2Proof.Machine.execDecompress x s

end Sys2Proof.Machine
end

