-- ==== Sys2Proof/Machine/Decoder.lean ====
section
/-! DEFINITION. One step of DEC: it decodes what stands at `D.rp` and runs it, and between items it ends blocks, completes the job, or finds the buffer truncated (41_decoder.md R172 to R182). -/

namespace Sys2Proof.Machine

/-- End of block (41_decoder.md R179). -/
def State.endBlock (s : State) : State :=
  s.setDec { s.dec with blkRem := s.dec.blkRem - 1, tokState := .hdr }

/-- A step inside a token whose operands run out before the payload ends. A flag and a present run
length are consumed as in a whole token; the missing operand is found at its own step (41_decoder.md
R175, R177, R178). -/
def truncatedStep (e : Reject) (s : State) : State :=
  match s.dec.tokState, e with
  | .readFlag, .escOperandMissing => s.fetchFlag .readEscValue
  | .readFlag, .runOperandsMissing => s.fetchFlag .readRunLen
  | .readFlag, .runValueMissing _ => s.fetchFlag .readRunLen
  | .readRunLen, .runValueMissing n => s.takeRunLen n
  | _, _ => s.missingOperand

/-- A step inside a payload: the token in progress is decoded and run. -/
def tokenStep (s : State) : Result :=
  match decode (.token s.tokenBytes) with
  | .ok (i, _) => exec i s
  | .error e => .next (truncatedStep e s)

/-- A block header is due: the field is decoded and run, or is truncated (41_decoder.md R173). -/
def headerStep (s : State) : Result :=
  match decode (.lenField s.lenBytesAt) with
  | .ok (i, _) => exec i s
  | .error _ => .next (s.raise .dec .miLen s.dec.rp)

/-- DEC's pointers lie inside the job's input, and that inside `D.IN` (20_memory.md R62). -/
def State.readInside (s : State) : Bool :=
  decide (s.dec.rp.toNat ≤ s.dec.n.toNat) && decide (s.dec.n.toNat ≤ s.inCap .dec)

/-- The payload lies inside the job's input, and `D.rp` has not passed it (41_decoder.md R179). -/
def State.payloadInside (s : State) : Bool :=
  decide (s.dec.rp.toNat ≤ s.dec.payEnd.toNat) && decide (s.dec.payEnd.toNat ≤ s.dec.n.toNat)

/-- One step of BUSY DEC: the guards of 41_decoder.md section 2, of which exactly one holds. -/
def decStep (s : State) : Result :=
  if !s.readInside then .fault .outsideInput
  else
    match s.dec.tokState with
    | .hdr => if s.dec.blkRem = 0 then .next (s.complete .dec) else headerStep s
    | .readFlag =>
      if !s.payloadInside then .fault .outsideInput
      else if s.atPayloadEnd then .next s.endBlock
      else tokenStep s
    | .readEscValue => if !s.payloadInside then .fault .outsideInput else tokenStep s
    | .readRunLen => if !s.payloadInside then .fault .outsideInput else tokenStep s
    | .readRunValue => if !s.payloadInside then .fault .outsideInput else tokenStep s

end Sys2Proof.Machine
end

