-- ==== Sys2Proof/Machine/Encoder.lean ====
section
/-! DEFINITION. The steps ENC takes by itself during a job: open a block, emit a token, close the block, complete (40_encoder.md R134 to R143). -/

namespace Sys2Proof.Machine

/-- Open a block (40_encoder.md R135): the 4 bytes of its PAYLOAD_LEN are reserved, not written. -/
def State.openBlock (s : State) : State :=
  if lenBytes > s.room .enc then s.raise .enc .outOverflow s.enc.cur
  else
    s.setEnc { s.enc with
      hdr := s.enc.wp, wp := s.enc.wp + 4, inBlk := true,
      blkEnd := s.enc.cur +
        BitVec.ofNat 32 (min blockSize (s.enc.n.toNat - s.enc.cur.toNat)) }

/-- Count the run at the cursor (40_encoder.md R136). -/
def State.scan (s : State) : State :=
  s.setEnc { s.enc with runVal := s.readIn .enc s.enc.cur.toNat, runCnt := BitVec.ofNat 8 s.runLen }

/-- Move the cursor over the raw bytes the emitted token represents (40_encoder.md R141). -/
def State.advance (s : State) : State :=
  s.setEnc { s.enc with cur := s.enc.cur + BitVec.ofNat 32 (advanceOf s.enc.runCnt) }

/-- Scan and emit one token (40_encoder.md R136 to R141). -/
def State.emitToken (s : State) : State :=
  let t := s.scan
  t.emit .enc t.enc.cur (chooseToken t.enc.runCnt t.enc.runVal).bytes State.advance

/-- Close the block (40_encoder.md R142): its PAYLOAD_LEN is the number of token bytes written. -/
def State.closeBlock (s : State) : State :=
  let len := s.enc.wp - s.enc.hdr - 4
  (s.writeOut .enc s.enc.hdr.toNat (Instr.payloadLen len).bytes).setEnc
    { s.enc with blk := s.enc.blk + 1, inBlk := false }

/-- The four bytes of the open block's PAYLOAD_LEN lie inside `E.OUT` (20_memory.md R62). -/
def State.hdrInside (s : State) : Bool := decide (s.enc.hdr.toNat + lenBytes ≤ s.outCap .enc)

/-- The open block lies inside the job's input, and that inside `E.IN` (20_memory.md R62). -/
def State.blockInside (s : State) : Bool :=
  decide (s.enc.blkEnd.toNat ≤ s.enc.n.toNat) && decide (s.enc.n.toNat ≤ s.inCap .enc)

/-- One step of BUSY ENC: the guards of 40_encoder.md section 2, of which exactly one holds. -/
def encStep (s : State) : Result :=
  if s.enc.inBlk then
    if s.enc.cur.toNat < s.enc.blkEnd.toNat then
      if s.blockInside then .next s.emitToken else .fault .outsideInput
    else if s.enc.cur = s.enc.blkEnd then
      if s.hdrInside then .next s.closeBlock else .fault .outsideOutput
    else .fault .noGuard
  else if s.enc.blk.toNat < s.enc.nblk.toNat then .next s.openBlock
  else if s.enc.blk = s.enc.nblk then .next (s.complete .enc)
  else .fault .noGuard

end Sys2Proof.Machine
end

