-- ==== Sys2Proof/Machine/HostInterface.lean ====
section
/-! DEFINITION. The five host operations (42_host_interface.md R210 to R223, 70_reset_and_hazards.md R270, R271). -/

namespace Sys2Proof.Machine

/-- `WriteIn(U, a, v)` (42_host_interface.md R215): ignored while BUSY and outside the buffer. -/
def State.hostWriteIn (s : State) (u : UnitId) (a : Word) (v : Byte) : State :=
  if !s.busy u && decide (a.toNat < s.inCap u) then
    s.setShell u { s.shell u with inp := (s.shell u).inp.set a.toNat v }
  else s

/-- `WriteReg(U, 2, x)` (42_host_interface.md R218): any value is stored, but not while BUSY. -/
def State.hostWriteInLen (s : State) (u : UnitId) (x : Word) : State :=
  if s.busy u then s else s.setShell u { s.shell u with inLen := x }

/-- `WriteReg(U, r, x)`: a command is decoded and run (R211, R212), register 2 is IN_LEN (R218), and a
write to any other register has no effect (R218, R223). -/
def hostWriteReg (u : UnitId) (r : Nat) (x : Word) (s : State) : Result :=
  match decode (.regWrite u r x) with
  | .ok (i, _) => exec i s
  | .error _ => if r = 2 then .next (s.hostWriteInLen u x) else .next s

/-- `ReadReg(U, r)` (42_host_interface.md R217): the host gets the register's value. -/
def State.hostReadReg (s : State) (u : UnitId) (r : Nat) : State :=
  { s with answers := .reg u r ((s.shell u).readReg r) :: s.answers }

/-- One draw of an unspecified byte (93_implementation_defined.md U5, U6, log 4). -/
def State.drawByte (s : State) (u : UnitId) : State :=
  s.setShell u { s.shell u with draws := (s.shell u).draws + 1 }

/-- `ReadOut(U, a)` (42_host_interface.md R216): a byte of the result when DONE and `a < OUT_LEN`;
any byte otherwise, another at every read. -/
def State.hostReadOut (s : State) (u : UnitId) (a : Word) : State :=
  if (s.shell u).outReadable a.toNat then
    { s with answers :=
        .byte u a (((s.shell u).out.get a.toNat).getD (Config.freeByte u (s.shell u).draws)) :: s.answers }
  else
    { s.drawByte u with answers := .byte u a (Config.freeByte u (s.shell u).draws) :: s.answers }

/-- `Reset` (70_reset_and_hazards.md R270, R271): both units at once, a job in progress abandoned. -/
def State.hostReset (s : State) : State :=
  { s with
    encShell := Shell.afterReset (s.encShell.resets + 1) s.encShell.draws, enc := EncWork.afterReset,
    decShell := Shell.afterReset (s.decShell.resets + 1) s.decShell.draws, dec := DecWork.afterReset }

/-- One host operation, between two steps of the units (42_host_interface.md R210). -/
def hostStep (op : HostOp) (s : State) : Result :=
  match op with
  | .writeIn u a v => .next (s.hostWriteIn u a v)
  | .writeReg u r x => hostWriteReg u r x s
  | .readReg u r => .next (s.hostReadReg u r)
  | .readOut u a => .next (s.hostReadOut u a)
  | .reset => .next s.hostReset

end Sys2Proof.Machine
end

