-- ==== Sys2Proof/Machine/Agents.lean ====
section
/-! DEFINITION. Whose turn it is, what an agent does at its turn, and where a single instruction is placed so that the next step runs it (00_scope.md R10, 20_memory.md R70, 70_reset_and_hazards.md R280). -/

namespace Sys2Proof.Machine

/-- Who moves once no turns are listed: the host until it has no operation left, then ENC until it is
not BUSY, then DEC. DESIGN CHOICE (log 1): a fixed priority. Since the host's list and every job of ENC
end, every BUSY unit moves in the end (R280). -/
def State.nextAgent (s : State) : Agent :=
  if s.pending ≠ [] then .host else if s.busy .enc then .enc else .dec

/-- The host issues its next operation, if it has one. -/
def hostTurn (s : State) : Result :=
  match s.pending with
  | [] => .next s
  | op :: ops => hostStep op { s with pending := ops }

/-- ENC takes a step; a unit that is not BUSY does nothing (60_exceptions.md R261). -/
def encTurn (s : State) : Result := if s.busy .enc then encStep s else .next s

/-- DEC takes a step; a unit that is not BUSY does nothing (60_exceptions.md R261). -/
def decTurn (s : State) : Result := if s.busy .dec then decStep s else .next s

/-- What an agent does at its turn. -/
def agentTurn (g : Agent) (s : State) : Result :=
  match g with
  | .host => hostTurn s
  | .enc => encTurn s
  | .dec => decTurn s

/-! Placing one instruction (log 12). -/

/-- A token where DEC looks for a first byte: `D.IN` holds it at `D.rp`, and the payload and the job's
input end after it. -/
def State.placeToken (s : State) (bs : List Byte) : State :=
  let p := s.dec.rp
  let e := p + BitVec.ofNat 32 bs.length
  { s with
    decShell := { s.decShell with
      status := .busy, inLen := e, inp := s.decShell.inp.setMany p.toNat bs },
    dec := { s.dec with n := e, payEnd := e, tokState := .readFlag },
    turns := .dec :: s.turns }

/-- A BLOCK_COUNT at offset 0 of `D.IN`, with the command that reads it. -/
def State.placeCount (s : State) (bs : List Byte) : State :=
  { s with
    decShell := { s.decShell with
      status := .idle, inLen := BitVec.ofNat 32 bs.length, inp := s.decShell.inp.setMany 0 bs },
    pending := .writeReg .dec 0 1 :: s.pending,
    turns := .host :: s.turns }

/-- A PAYLOAD_LEN where DEC looks for a block header, with the count of blocks at least 1. -/
def State.placeLen (s : State) (bs : List Byte) : State :=
  let p := s.dec.rp
  let e := p + BitVec.ofNat 32 bs.length
  { s with
    decShell := { s.decShell with
      status := .busy, inLen := e, inp := s.decShell.inp.setMany p.toNat bs },
    dec := { s.dec with n := e, blkRem := 1, tokState := .hdr },
    turns := .dec :: s.turns }

/-- A register write as the host's next operation. -/
def State.placeWrite (s : State) (u : UnitId) (r : Nat) (x : Word) : State :=
  { s with pending := .writeReg u r x :: s.pending, turns := .host :: s.turns }

/-- Place what stands at a source so that the next step runs it. -/
def State.place (s : State) : Source → State
  | .token bs => s.placeToken bs
  | .countField bs => s.placeCount bs
  | .lenField bs => s.placeLen bs
  | .regWrite u r x => s.placeWrite u r x

end Sys2Proof.Machine
end

