-- ==== Sys2Proof/Machine/Step.lean ====
section
/-! DEFINITION. The step of the whole machine, and the placing of one instruction for the next step. -/

namespace Sys2Proof.Machine

/-- One step: the agent whose turn it is moves (00_scope.md R10, 20_memory.md R70). -/
def step (s : State) : Host.Outcome State Fault Refusal :=
  match s.turns with
  | [] => agentTurn s.nextAgent s
  | g :: gs => agentTurn g { s with turns := gs }

/-- The state in which the next step runs the instruction of a word of the opcode table (log 12). -/
def State.withFetchWord (s : State) (nbits w : Nat) : State := s.place (tableSource nbits w)

end Sys2Proof.Machine
end

