-- ==== Sys2Proof/Machine/Functional.lean ====
section
/-! DEFINITION. The codec as functions on byte sequences (40_encoder.md R131, 41_decoder.md R171), the layouts they imply (20_memory.md R67, R68), and what a finite output buffer makes of them (42_host_interface.md R220). -/

namespace Sys2Proof.Machine

/-! `compress`. -/

/-- How many of the first `k` bytes of a sequence equal `v`, up to the first that does not. -/
def runPrefix (v : Byte) : Nat → List Byte → Nat
  | 0, _ => 0
  | _ + 1, [] => 0
  | k + 1, b :: bs => if b = v then runPrefix v k bs + 1 else 0

/-- The tokens of what is left of a block (40_encoder.md R131, `go`), each with the offset of the
first raw byte it represents; `fuel` is at least the number of bytes left. -/
def blockTokens : (fuel : Nat) → (i : Nat) → List Byte → List (Nat × Instr)
  | 0, _, _ => []
  | _ + 1, _, [] => []
  | fuel + 1, i, v :: bs =>
    let r := BitVec.ofNat 8 (runPrefix v maxRun (v :: bs))
    (i, chooseToken r v) :: blockTokens fuel (i + advanceOf r) ((v :: bs).drop (advanceOf r))

/-- `enc_block` (40_encoder.md R131): the payload of one block. -/
def encBlock (b : List Byte) : List Byte :=
  encodeTokens ((blockTokens b.length 0 b).map Prod.snd)

/-- The blocks of a raw buffer (20_memory.md R68), `k` of them, each of BLOCK_SIZE bytes or what is left. -/
def blocksOf : (k : Nat) → List Byte → List (List Byte)
  | 0, _ => []
  | k + 1, bs => bs.take blockSize :: blocksOf k (bs.drop blockSize)

/-- A block's frame: its PAYLOAD_LEN, then its payload (20_memory.md R67). -/
def frameOf (b : List Byte) : List Byte :=
  (Instr.payloadLen (BitVec.ofNat 32 (encBlock b).length)).bytes ++ encBlock b

/-- `compress` (40_encoder.md R131). -/
def compress (B : List Byte) : List Byte :=
  (Instr.blockCount (BitVec.ofNat 32 (blockCountOf B.length))).bytes ++
    ((blocksOf (blockCountOf B.length) B).map frameOf).flatten

/-! What ENC writes, in order, each with the value of its cursor at that step. -/

/-- The writes of a block that starts at raw offset `i`: its PAYLOAD_LEN field, then its tokens. -/
def blockWrites (i : Nat) (b : List Byte) : List (Nat × Nat) :=
  (i, lenBytes) :: (blockTokens b.length i b).map (fun t => (t.1, t.2.bytes.length))

/-- The writes of blocks that start at raw offset `i`. -/
def framesWrites : Nat → List (List Byte) → List (Nat × Nat)
  | _, [] => []
  | i, b :: bs => blockWrites i b ++ framesWrites (i + b.length) bs

/-- The writes of a compress job: cursor and number of bytes. -/
def compressWrites (B : List Byte) : List (Nat × Nat) :=
  (0, countBytes) :: framesWrites 0 (blocksOf (blockCountOf B.length) B)

/-- The cursor at the first write that no longer fits, if there is one (40_encoder.md R144). -/
def overflowAt (cap : Nat) : (used : Nat) → List (Nat × Nat) → Option Nat
  | _, [] => none
  | used, (pos, k) :: ws => if k > cap - used then some pos else overflowAt cap (used + k) ws

/-! `decompress`. -/

/-- Append to an output of at most `cap` bytes; with no bound, always (41_decoder.md R171, R186). -/
def appendBounded (cap : Option Nat) (pos : Nat) (out bs : List Byte) : Except (Cause × Nat) (List Byte) :=
  match cap with
  | none => .ok (out ++ bs)
  | some c => if bs.length > c - out.length then .error (.outOverflow, pos) else .ok (out ++ bs)

/-- `tokens` (41_decoder.md R171) on the payload bytes from offset `p` on. -/
def decTokens (cap : Option Nat) : (p : Nat) → (payload out : List Byte) → Except (Cause × Nat) (List Byte)
  | _, [], out => .ok out
  | p, [f], out =>
    if f = flagEsc ∨ f = flagRun then .error (.miToken, p)
    else appendBounded cap p out [f]
  | p, [f, x], out =>
    if f = flagEsc then appendBounded cap p out [x]
    else if f = flagRun then .error (.miToken, p)
    else
      match appendBounded cap p out [f] with
      | .error e => .error e
      | .ok out' => decTokens cap (p + 1) [x] out'
  | p, f :: x :: y :: rest, out =>
    if f = flagEsc then
      match appendBounded cap p out [x] with
      | .error e => .error e
      | .ok out' => decTokens cap (p + 2) (y :: rest) out'
    else if f = flagRun then
      match appendBounded cap p out (List.replicate x.toNat y) with
      | .error e => .error e
      | .ok out' => decTokens cap (p + 3) rest out'
    else
      match appendBounded cap p out [f] with
      | .error e => .error e
      | .ok out' => decTokens cap (p + 1) (x :: y :: rest) out'

/-- `blocks` (41_decoder.md R171): `k` blocks from offset `p` on, `C` being the bytes from `p`. -/
def decBlocks (cap : Option Nat) : (k : Nat) → (p : Nat) → (C out : List Byte) → Except (Cause × Nat) (List Byte)
  | 0, _, _, out => .ok out
  | k + 1, p, C, out =>
    match C with
    | b0 :: b1 :: b2 :: b3 :: rest =>
      let L := (ube32 b0 b1 b2 b3).toNat
      if L > rest.length then .error (.miPayload, p + 4)
      else
        match decTokens cap (p + 4) (rest.take L) out with
        | .error e => .error e
        | .ok out' => decBlocks cap k (p + 4 + L) (rest.drop L) out'
    | _ => .error (.miLen, p)

/-- `decompress` with a bound on the output (42_host_interface.md R220); with `none`, the function of
41_decoder.md R171 itself. -/
def decompressWithin (cap : Option Nat) (C : List Byte) : Except (Cause × Nat) (List Byte) :=
  match C with
  | b0 :: b1 :: b2 :: b3 :: rest => decBlocks cap (ube32 b0 b1 b2 b3).toNat 4 rest []
  | _ => .error (.miCount, 0)

/-- `decompress` (41_decoder.md R171). -/
def decompress (C : List Byte) : Except (Cause × Nat) (List Byte) := decompressWithin none C

/-! What the host observes. -/

/-- The observation of a unit (00_scope.md R12). -/
structure Observation where
  status : Phase
  err : Cause
  errPos : Word
  outLen : Word
  out : List (Option Byte)
deriving DecidableEq, Repr

/-- The bytes `0 .. k` of a buffer. -/
def Memory.firstBytes (m : Memory) (k : Nat) : List (Option Byte) := (List.range k).map m.get

/-- What the host can read of a unit once its job has ended (00_scope.md R12). -/
def Shell.observe (sh : Shell) : Observation :=
  { status := sh.status, err := sh.err, errPos := sh.errPos, outLen := sh.outLen,
    out := sh.out.firstBytes sh.outLen.toNat }

/-- The observation of a job that delivers `Y` (42_host_interface.md R220). -/
def Observation.delivers (Y : List Byte) : Observation :=
  { status := .done, err := .noFault, errPos := 0, outLen := BitVec.ofNat 32 Y.length, out := Y.map some }

/-- The observation of a job that fails (42_host_interface.md R220, 60_exceptions.md R251). -/
def Observation.fails (c : Cause) (pos : Nat) : Observation :=
  { status := .error, err := c, errPos := BitVec.ofNat 32 pos, outLen := 0, out := [] }

/-- The result of a compress job on `X` (42_host_interface.md R220). -/
def compressResult (cap : Nat) (X : List Byte) : Observation :=
  match overflowAt cap 0 (compressWrites X) with
  | none => Observation.delivers (compress X)
  | some pos => Observation.fails .outOverflow pos

/-- The result of a decompress job on `X` (42_host_interface.md R220). -/
def decompressResult (cap : Nat) (X : List Byte) : Observation :=
  match decompressWithin (some cap) X with
  | .ok Y => Observation.delivers Y
  | .error (c, pos) => Observation.fails c pos

end Sys2Proof.Machine
end

