-- ==== Sys2Proof/Safety.lean ====
section
/-! DEFINITION. What a safe run is: the invariant every step keeps, under which no step stops (10_state.md R24 to R35, 20_memory.md R62, R76). -/

namespace Sys2Proof.Machine

/-- Every offset below `k` is listed. -/
def Memory.listedBelow (m : Memory) (k : Nat) : Prop := ∀ a < k, (m.get a).isSome = true

/-- Every listed offset is below `k`. -/
def Memory.within (m : Memory) (k : Nat) : Prop := ∀ c ∈ m, c.1 < k

/-- What holds of a unit's registers and buffers in every phase. -/
structure ShellInv (cfg : Config) (u : UnitId) (sh : Shell) : Prop where
  /-- `U.IN` is in canonical form. -/
  inWf : sh.inp.wf = true
  /-- `U.OUT` is in canonical form. -/
  outWf : sh.out.wf = true
  /-- No byte of `U.IN` lies outside its capacity (R29). -/
  inWithin : sh.inp.within (cfg.inCap u)
  /-- No byte of `U.OUT` lies outside its capacity (R30). -/
  outWithin : sh.out.within (cfg.outCap u)
  /-- `CAUSE` is non-zero exactly when STATE = ERROR (R27). -/
  errIff : sh.err ≠ .noFault ↔ sh.status = .error
  /-- `ERR_POS` is 0 but in ERROR (R28). -/
  posZero : sh.status ≠ .error → sh.errPos = 0
  /-- `OUT_LEN` is 0 but in DONE (R26). -/
  lenZero : sh.status ≠ .done → sh.outLen = 0
  /-- MalformedInput occurs only in DEC (R27, 60_exceptions.md R248). -/
  encCause : u = .enc → sh.err.malformed = false
  /-- Every byte of a DONE job's result is there (R26, R77). -/
  doneListed : sh.status = .done → sh.out.listedBelow sh.outLen.toNat

/-- What holds of ENC while BUSY (10_state.md R31, R34; 40_encoder.md R135, R142). -/
structure EncInv (cfg : Config) (sh : Shell) (e : EncWork) : Prop where
  /-- The job's length is IN_LEN and fits the buffer (R25, 60_exceptions.md R247). -/
  nLen : e.n = sh.inLen ∧ e.n.toNat ≤ cfg.inCap .enc
  /-- The block count is rounded up (R133). -/
  nblkEq : e.nblk.toNat = blockCountOf e.n.toNat
  /-- The write pointer is past BLOCK_COUNT and inside the buffer. -/
  wpIn : countBytes ≤ e.wp.toNat ∧ e.wp.toNat ≤ cfg.outCap .enc
  /-- Between blocks the cursor is at a block boundary or at the end of the input. -/
  closed : e.inBlk = false →
    e.blk.toNat ≤ e.nblk.toNat ∧ e.cur.toNat = min (e.blk.toNat * blockSize) e.n.toNat
  /-- In a block, its end is fixed, the cursor is inside it, and its length field is reserved. -/
  opened : e.inBlk = true →
    e.blk.toNat < e.nblk.toNat ∧
    e.blkEnd.toNat = min ((e.blk.toNat + 1) * blockSize) e.n.toNat ∧
    e.blk.toNat * blockSize ≤ e.cur.toNat ∧ e.cur.toNat ≤ e.blkEnd.toNat ∧
    countBytes ≤ e.hdr.toNat ∧ e.hdr.toNat + lenBytes ≤ e.wp.toNat
  /-- Every output byte so far is there, but for a reserved length field. -/
  outListed : ∀ a < e.wp.toNat,
    (e.inBlk = true ∧ e.hdr.toNat ≤ a ∧ a < e.hdr.toNat + lenBytes) ∨ (sh.out.get a).isSome = true

/-- What holds of DEC while BUSY (10_state.md R32, R35; 41_decoder.md R173 to R179). -/
structure DecInv (cfg : Config) (sh : Shell) (d : DecWork) : Prop where
  /-- The job's length is IN_LEN and fits the buffer (R25, 60_exceptions.md R247). -/
  nLen : d.n = sh.inLen ∧ d.n.toNat ≤ cfg.inCap .dec
  /-- The read pointer never passes the end of the input (R35). -/
  rpIn : d.rp.toNat ≤ d.n.toNat
  /-- The write pointer is inside the buffer, and every byte below it is there. -/
  wpIn : d.wp.toNat ≤ cfg.outCap .dec ∧ sh.out.listedBelow d.wp.toNat
  /-- In a block, the payload is inside the input and the read pointer inside the payload. -/
  inBlock : d.tokState ≠ .hdr →
    0 < d.blkRem.toNat ∧ d.rp.toNat ≤ d.payEnd.toNat ∧ d.payEnd.toNat ≤ d.n.toNat
  /-- In a token, `D.tok_start` is where its flag byte stands. -/
  inToken :
    (d.tokState = .readEscValue → d.tokStart.toNat + 1 = d.rp.toNat) ∧
    (d.tokState = .readRunLen → d.tokStart.toNat + 1 = d.rp.toNat) ∧
    (d.tokState = .readRunValue → d.tokStart.toNat + 2 = d.rp.toNat)

/-- The invariant of the machine. -/
structure State.Inv (s : State) : Prop where
  encShellInv : ShellInv s.cfg .enc s.encShell
  decShellInv : ShellInv s.cfg .dec s.decShell
  encBusy : s.encShell.status = .busy → EncInv s.cfg s.encShell s.enc
  decBusy : s.decShell.status = .busy → DecInv s.cfg s.decShell s.dec

/-- A step that does not stop. -/
def Result.isNext : Result → Bool
  | .next _ => true
  | .fault _ => false
  | .refused _ => false

/-- The next state, if there is one. -/
def Result.next? : Result → Option State
  | .next t => some t
  | .fault _ => none
  | .refused _ => none

/-- A run of `k` steps, by the host's own definition, that ends in `t`. -/
def runsTo (k : Nat) (s t : State) : Prop := Sys2Proof.core.run k s = .next t

/-! What statements say of two states. -/

/-- `t` differs from `s` at most in one unit (10_state.md R21). -/
def State.sameBut : UnitId → State → State → Prop
  | .enc, s, t =>
    t.decShell = s.decShell ∧ t.dec = s.dec ∧ t.cfg = s.cfg ∧
    t.pending = s.pending ∧ t.answers = s.answers ∧ t.turns = s.turns
  | .dec, s, t =>
    t.encShell = s.encShell ∧ t.enc = s.enc ∧ t.cfg = s.cfg ∧
    t.pending = s.pending ∧ t.answers = s.answers ∧ t.turns = s.turns

/-- `m'` holds `bs` from offset `a` on, and elsewhere what `m` holds. -/
def Memory.stores (m m' : Memory) (a : Nat) (bs : List Byte) : Prop :=
  (∀ i < bs.length, m'.get (a + i) = bs[i]?) ∧
  ∀ x, x < a ∨ a + bs.length ≤ x → m'.get x = m.get x

/-- From `s` to `t`, unit `u` took fault `c` at position `pos` (60_exceptions.md R251): the four
registers are written, `U.IN` and IN_LEN are unchanged, and the other unit and the host are too.
Nothing is said of what the spec leaves unspecified: `U.OUT` and the working registers. -/
structure FailsWith (u : UnitId) (c : Cause) (pos : Word) (s t : State) : Prop where
  err : (t.shell u).err = c
  errPos : (t.shell u).errPos = pos
  outLen : (t.shell u).outLen = 0
  status : (t.shell u).status = .error
  inp : (t.shell u).inp = (s.shell u).inp
  inLen : (t.shell u).inLen = (s.shell u).inLen
  resets : (t.shell u).resets = (s.shell u).resets
  rest : State.sameBut u s t

/-- From `s` to `t`, DEC wrote `bs` at `D.OUT[a ..)`, its working registers became `d`, and nothing
else changed. -/
structure DecMoves (d : DecWork) (a : Nat) (bs : List Byte) (s t : State) : Prop where
  work : t.dec = d
  out : Memory.stores s.decShell.out t.decShell.out a bs
  shell : t.decShell = { s.decShell with out := t.decShell.out }
  rest : State.sameBut .dec s t

/-- From `s` to `t`, ENC wrote `bs` at `E.OUT[a ..)`, its working registers became `e`, and nothing
else changed. -/
structure EncMoves (e : EncWork) (a : Nat) (bs : List Byte) (s t : State) : Prop where
  work : t.enc = e
  out : Memory.stores s.encShell.out t.encShell.out a bs
  shell : t.encShell = { s.encShell with out := t.encShell.out }
  rest : State.sameBut .enc s t

/-- `r` is the counted run length at offset `i` of `U.IN` before `stop` (40_encoder.md R131): the
largest `r` with `1 <= r <= min(MAX_RUN, stop - i)` whose `r` bytes all equal the first. -/
structure IsRunLen (s : State) (u : UnitId) (i stop r : Nat) : Prop where
  pos : 1 ≤ r
  cap : r ≤ min maxRun (stop - i)
  same : ∀ j < r, s.readIn u (i + j) = s.readIn u i
  largest : ∀ q, q ≤ min maxRun (stop - i) → (∀ j < q, s.readIn u (i + j) = s.readIn u i) → q ≤ r

/-- The unit an instruction acts on: the tokens and the frame fields are run by DEC. -/
def unitOf : Instr → UnitId
  | .lit _ => .dec
  | .esc _ => .dec
  | .run _ _ => .dec
  | .blockCount _ => .dec
  | .payloadLen _ => .dec
  | .compress _ => .enc
  | .decompress _ => .dec

end Sys2Proof.Machine
end

