-- ==== Sys2Proof/Certificates/Slice0/Obligations.lean ====
section
/-! DEFINITION. The statements for the provers: what the spec's numbered rules say the machine does. -/

open Sys2Proof Sys2Proof.Machine

/-! ## Encodings -/

/-- Words written out from 30_encoding.md R91 to R96 and R108 decode to what they stand for. -/
def Obligations.WrittenWordsDecode : Prop :=
  decode (.token [0x41]) = .ok (.lit 0x41, []) ∧
  decode (.token [0xFF, 0xFE]) = .ok (.esc 0xFE, []) ∧
  decode (.token [0xFE, 0x03, 0x07, 0x41]) = .ok (.run 3 7, [0x41]) ∧
  decode (.token [0xFE, 0xFF, 0xFE]) = .ok (.run 0xFF 0xFE, []) ∧
  decode (.countField [0x00, 0x00, 0x00, 0x02]) = .ok (.blockCount 2, []) ∧
  decode (.lenField [0x00, 0x00, 0x0C, 0x0F]) = .ok (.payloadLen 3087, []) ∧
  decode (.regWrite .enc 0 0x80000001) = .ok (.compress 0x80000001, []) ∧
  decode (.regWrite .dec 0 1) = .ok (.decompress 1, []) ∧
  decode (.regWrite .enc 0 0xFFFFFFFE) = .error .notCommand

/-- 30_encoding.md R97 and the map of R98: the first byte alone tells which token it is and how long;
the bytes after it are never looked at for flags. -/
def Obligations.FirstByteSelectsToken : Prop :=
  ∀ (f x y : Byte) (rest : List Byte),
    (f.toNat = 255 → decode (.token (f :: x :: y :: rest)) = .ok (.esc x, y :: rest)) ∧
    (f.toNat = 254 → decode (.token (f :: x :: y :: rest)) = .ok (.run x y, rest)) ∧
    (f.toNat ≤ 253 → decode (.token (f :: x :: y :: rest)) = .ok (.lit f, x :: y :: rest))

/-- 30_encoding.md R102: what is no encoding is exactly what is truncated. A token fails to decode
just when bytes are missing after a flag, or there is no byte; a field, when it has under 4 bytes. -/
def Obligations.OnlyTruncatedBytesAreRejected : Prop :=
  ∀ bs : List Byte,
    ((∃ e, decode (.token bs) = .error e) ↔
      (bs = [] ∨ bs = [flagEsc] ∨ bs = [flagRun] ∨ ∃ n, bs = [flagRun, n])) ∧
    ((∃ e, decode (.countField bs) = .error e) ↔ bs.length < 4) ∧
    ((∃ e, decode (.lenField bs) = .error e) ↔ bs.length < 4)

/-- Decoding the encoding of a well-formed instruction gives it back, with every operand at every
value, and leaves the bytes that follow (30_encoding.md R91 to R96, R105, R108). -/
def Obligations.DecodeOfEncodeIsTheInstruction : Prop :=
  ∀ (i : Instr) (rest : List Byte), i.wellFormed = true →
    decode (encode i) = .ok (i, []) ∧
    (i.bytes ≠ [] → decode ((encode i).followedBy rest) = .ok (i, rest))

/-- Whatever decodes is the encoding of the instruction it decodes to, which is well formed: the
decoder drops no bit (30_encoding.md R99, R105). -/
def Obligations.DecodedBitsAreTheEncoding : Prop :=
  ∀ (src : Source) (i : Instr) (rest : List Byte), decode src = .ok (i, rest) →
    i.wellFormed = true ∧ src = (encode i).followedBy rest

/-- 30_encoding.md R104: a payload has at most one division into tokens, and the tokens of an encoded
sequence are read back. -/
def Obligations.PayloadHasOneDivisionIntoTokens : Prop :=
  (∀ ts : List Instr, (∀ i ∈ ts, i.isToken = true ∧ i.wellFormed = true) →
    parsePayload (encodeTokens ts) = .ok ts) ∧
  (∀ (bs : List Byte) (ts : List Instr), parsePayload bs = .ok ts →
    encodeTokens ts = bs ∧ ∀ i ∈ ts, i.isToken = true ∧ i.wellFormed = true)

/-! ## A step runs the decoded instruction -/

/-- At DEC's turn inside a payload, when the bytes of the token in progress (those consumed, then those
from `D.rp` to the payload's end) decode to `i`, the step is `exec i` after the turn is taken off the
list (41_decoder.md R175 to R178). -/
def Obligations.StepRunsTheDecodedToken : Prop :=
  ∀ (s : State) (gs : List Agent) (i : Instr) (rest : List Byte),
    s.turns = .dec :: gs → s.decShell.status = .busy → s.dec.tokState ≠ .hdr →
    s.dec.rp.toNat ≤ s.dec.payEnd.toNat → s.dec.payEnd.toNat ≤ s.dec.n.toNat →
    s.dec.n.toNat ≤ s.inCap .dec →
    decode (.token (s.dec.consumed ++
      s.inBytes .dec s.dec.rp.toNat (s.dec.payEnd.toNat - s.dec.rp.toNat))) = .ok (i, rest) →
    (s.dec.tokState = .readFlag → s.dec.rp.toNat < s.dec.payEnd.toNat) →
    step s = exec i { s with turns := gs }

/-- At DEC's turn where a block is due, when the bytes from `D.rp` to the input's end hold a
PAYLOAD_LEN, the step is `exec` of it (41_decoder.md R173). -/
def Obligations.StepRunsTheDecodedHeader : Prop :=
  ∀ (s : State) (gs : List Agent) (i : Instr) (rest : List Byte),
    s.turns = .dec :: gs → s.decShell.status = .busy → s.dec.tokState = .hdr →
    0 < s.dec.blkRem.toNat → s.dec.rp.toNat ≤ s.dec.n.toNat → s.dec.n.toNat ≤ s.inCap .dec →
    decode (.lenField (s.inBytes .dec s.dec.rp.toNat (s.dec.n.toNat - s.dec.rp.toNat))) = .ok (i, rest) →
    step s = exec i { s with turns := gs }

/-- At the host's turn, a register write that decodes to a command is `exec` of it after the operation
is taken off the host's list (42_host_interface.md R210, 30_encoding.md R108). -/
def Obligations.StepRunsTheDecodedCommand : Prop :=
  ∀ (s : State) (gs : List Agent) (ops : List HostOp) (u : UnitId) (r : Nat) (x : Word) (i : Instr)
    (rest : List Byte),
    s.turns = .host :: gs → s.pending = .writeReg u r x :: ops →
    decode (.regWrite u r x) = .ok (i, rest) →
    step s = exec i { s with turns := gs, pending := ops }

/-- With no turns listed the host goes first, then ENC, then DEC: a fixed priority, the model's choice
(log 1). That every BUSY unit moves in the end (70_reset_and_hazards.md R280) follows only with
CompressJobsEnd. -/
def Obligations.StepWithoutTurnsPrefersHostThenEncThenDec : Prop :=
  ∀ s : State, s.turns = [] →
    (∀ op ops, s.pending = op :: ops → step s = hostStep op { s with pending := ops }) ∧
    (s.pending = [] → s.encShell.status = .busy → step s = encStep s) ∧
    (s.pending = [] → s.encShell.status ≠ .busy → s.decShell.status = .busy → step s = decStep s) ∧
    (s.pending = [] → s.encShell.status ≠ .busy → s.decShell.status ≠ .busy → step s = .next s)

/-! ## Tokens -/

/-- 41_decoder.md R175: the first byte of a token is consumed if it is a flag, even as the payload's
last byte, and run as a LIT if it is not. -/
def Obligations.FirstByteIsFetched : Prop :=
  ∀ s : State, s.decShell.status = .busy → s.dec.tokState = .readFlag →
    s.dec.rp.toNat < s.dec.payEnd.toNat → s.dec.payEnd.toNat ≤ s.dec.n.toNat →
    s.dec.n.toNat ≤ s.inCap .dec →
    (s.readIn .dec s.dec.rp.toNat = 0xFF → ∃ t, decTurn s = .next t ∧
      DecMoves { s.dec with tokStart := s.dec.rp, rp := s.dec.rp + 1, tokState := .readEscValue } 0 [] s t) ∧
    (s.readIn .dec s.dec.rp.toNat = 0xFE → ∃ t, decTurn s = .next t ∧
      DecMoves { s.dec with tokStart := s.dec.rp, rp := s.dec.rp + 1, tokState := .readRunLen } 0 [] s t) ∧
    (s.readIn .dec s.dec.rp.toNat ≠ 0xFF → s.readIn .dec s.dec.rp.toNat ≠ 0xFE →
      decTurn s = exec (.lit (s.readIn .dec s.dec.rp.toNat)) s)

/-- 41_decoder.md R176: LIT appends its byte, or raises OUT_OVERFLOW when there is no room. -/
def Obligations.LitAppendsItsByte : Prop :=
  ∀ (v : Byte) (s : State), s.decShell.status = .busy → s.dec.tokState = .readFlag →
    s.dec.rp.toNat < s.dec.payEnd.toNat →
    (1 ≤ s.cfg.dOutCap.toNat - s.dec.wp.toNat → ∃ t, exec (.lit v) s = .next t ∧
      DecMoves { s.dec with tokStart := s.dec.rp, rp := s.dec.rp + 1, wp := s.dec.wp + 1 }
        s.dec.wp.toNat [v] s t) ∧
    (1 > s.cfg.dOutCap.toNat - s.dec.wp.toNat → ∃ t, exec (.lit v) s = .next t ∧
      FailsWith .dec .outOverflow s.dec.rp s t)

/-- 41_decoder.md R177: the second step of ESC appends the operand as it stands; a missing operand is
found before a missing room. -/
def Obligations.EscAppendsItsOperand : Prop :=
  ∀ (v : Byte) (s : State), s.decShell.status = .busy → s.dec.tokState = .readEscValue →
    (s.dec.rp = s.dec.payEnd → ∃ t, exec (.esc v) s = .next t ∧
      FailsWith .dec .miToken s.dec.tokStart s t) ∧
    (s.dec.rp ≠ s.dec.payEnd → 1 > s.cfg.dOutCap.toNat - s.dec.wp.toNat →
      ∃ t, exec (.esc v) s = .next t ∧ FailsWith .dec .outOverflow s.dec.tokStart s t) ∧
    (s.dec.rp ≠ s.dec.payEnd → 1 ≤ s.cfg.dOutCap.toNat - s.dec.wp.toNat →
      ∃ t, exec (.esc v) s = .next t ∧
        DecMoves { s.dec with rp := s.dec.rp + 1, wp := s.dec.wp + 1, tokState := .readFlag }
          s.dec.wp.toNat [v] s t)

/-- 41_decoder.md R178: the second step of RUN holds the run length, the third appends that many
copies of the value; a missing operand is found before a missing room. -/
def Obligations.RunAppendsItsValueRepeated : Prop :=
  ∀ (n v : Byte) (s : State), s.decShell.status = .busy →
    (s.dec.tokState = .readRunLen → s.dec.rp = s.dec.payEnd → ∃ t, exec (.run n v) s = .next t ∧
      FailsWith .dec .miToken s.dec.tokStart s t) ∧
    (s.dec.tokState = .readRunLen → s.dec.rp ≠ s.dec.payEnd → ∃ t, exec (.run n v) s = .next t ∧
      DecMoves { s.dec with runLen := n, rp := s.dec.rp + 1, tokState := .readRunValue } 0 [] s t) ∧
    (s.dec.tokState = .readRunValue → s.dec.rp = s.dec.payEnd → ∃ t, exec (.run n v) s = .next t ∧
      FailsWith .dec .miToken s.dec.tokStart s t) ∧
    (s.dec.tokState = .readRunValue → s.dec.rp ≠ s.dec.payEnd →
      s.dec.runLen.toNat > s.cfg.dOutCap.toNat - s.dec.wp.toNat → ∃ t, exec (.run n v) s = .next t ∧
      FailsWith .dec .outOverflow s.dec.tokStart s t) ∧
    (s.dec.tokState = .readRunValue → s.dec.rp ≠ s.dec.payEnd →
      s.dec.runLen.toNat ≤ s.cfg.dOutCap.toNat - s.dec.wp.toNat → ∃ t, exec (.run n v) s = .next t ∧
      DecMoves { s.dec with rp := s.dec.rp + 1, wp := s.dec.wp + s.dec.runLen.setWidth 32,
                            tokState := .readFlag }
        s.dec.wp.toNat (List.replicate s.dec.runLen.toNat v) s t)

/-- A whole ESC token: from its first byte, with its operand in the payload and room for one byte, its
two steps consume two bytes and append the operand, any of the 256 values (41_decoder.md R175, R177,
30_encoding.md R101). -/
def Obligations.EscCompletesInTwoSteps : Prop :=
  ∀ (v : Byte) (s : State), s.decShell.status = .busy → s.dec.tokState = .readFlag →
    s.dec.rp.toNat + 2 ≤ s.dec.payEnd.toNat → 1 ≤ s.cfg.dOutCap.toNat - s.dec.wp.toNat →
    ∃ s1 t, exec (.esc v) s = .next s1 ∧ exec (.esc v) s1 = .next t ∧
      DecMoves { s.dec with tokStart := s.dec.rp, rp := s.dec.rp + 2, wp := s.dec.wp + 1 }
        s.dec.wp.toNat [v] s t

/-- A whole RUN token: from its first byte, with both operands in the payload and room for `n` bytes,
its three steps consume three bytes and append `n` copies of `v`, for every `n`, 0 to 2 among them
(41_decoder.md R175, R178, 30_encoding.md R101). -/
def Obligations.RunCompletesInThreeSteps : Prop :=
  ∀ (n v : Byte) (s : State), s.decShell.status = .busy → s.dec.tokState = .readFlag →
    s.dec.rp.toNat + 3 ≤ s.dec.payEnd.toNat → n.toNat ≤ s.cfg.dOutCap.toNat - s.dec.wp.toNat →
    ∃ s1 s2 t, exec (.run n v) s = .next s1 ∧ exec (.run n v) s1 = .next s2 ∧
      exec (.run n v) s2 = .next t ∧
      DecMoves { s.dec with tokStart := s.dec.rp, rp := s.dec.rp + 3, runLen := n,
                            wp := s.dec.wp + n.setWidth 32 }
        s.dec.wp.toNat (List.replicate n.toNat v) s t

/-- 60_exceptions.md R245: a flag whose operands the payload does not hold ends in MI_TOKEN at the
flag's offset, whatever follows the payload: 255 or 254 as the last byte in the second step, 254 as the
last but one in the third. -/
def Obligations.MissingOperandEndsInMiToken : Prop :=
  ∀ s : State, s.decShell.status = .busy → s.dec.tokState = .readFlag →
    s.dec.payEnd.toNat ≤ s.dec.n.toNat → s.dec.n.toNat ≤ s.inCap .dec →
    (s.dec.rp.toNat + 1 = s.dec.payEnd.toNat →
      (s.readIn .dec s.dec.rp.toNat = 0xFF ∨ s.readIn .dec s.dec.rp.toNat = 0xFE) →
      ∃ s1 t, decTurn s = .next s1 ∧ decTurn s1 = .next t ∧ FailsWith .dec .miToken s.dec.rp s t) ∧
    (s.dec.rp.toNat + 2 = s.dec.payEnd.toNat → s.readIn .dec s.dec.rp.toNat = 0xFE →
      ∃ s1 s2 t, decTurn s = .next s1 ∧ decTurn s1 = .next s2 ∧ decTurn s2 = .next t ∧
        FailsWith .dec .miToken s.dec.rp s t)

/-! ## Frame fields -/

/-- BLOCK_COUNT starts the parse, whatever its value; an input under 4 bytes is MI_COUNT (41_decoder.md
R172, whose lines from the bound check on are this meaning: log 9). -/
def Obligations.BlockCountStartsTheParse : Prop :=
  ∀ (N : Word) (s : State), s.decShell.status ≠ .busy → s.dec.rp = 0 →
    (4 > s.dec.n.toNat → ∃ t, exec (.blockCount N) s = .next t ∧ FailsWith .dec .miCount 0 s t) ∧
    (4 ≤ s.dec.n.toNat → ∃ t, exec (.blockCount N) s = .next t ∧
      t.dec = { s.dec with blkRem := N, rp := 4, tokState := .hdr } ∧
      t.decShell = { s.decShell with status := .busy } ∧ State.sameBut .dec s t)

/-- 41_decoder.md R173 and R174: PAYLOAD_LEN fixes the end of the block once it fits in the bytes that
remain after it, up to exactly all of them; else MI_PAYLOAD at the first payload byte. -/
def Obligations.PayloadLenFixesTheBlocksEnd : Prop :=
  ∀ (L : Word) (s : State), s.decShell.status = .busy → s.dec.tokState = .hdr →
    0 < s.dec.blkRem.toNat →
    (4 > s.dec.n.toNat - s.dec.rp.toNat → ∃ t, exec (.payloadLen L) s = .next t ∧
      FailsWith .dec .miLen s.dec.rp s t) ∧
    (4 ≤ s.dec.n.toNat - s.dec.rp.toNat → L.toNat > s.dec.n.toNat - (s.dec.rp.toNat + 4) →
      ∃ t, exec (.payloadLen L) s = .next t ∧ FailsWith .dec .miPayload (s.dec.rp + 4) s t) ∧
    (4 ≤ s.dec.n.toNat - s.dec.rp.toNat → L.toNat ≤ s.dec.n.toNat - (s.dec.rp.toNat + 4) →
      ∃ t e, exec (.payloadLen L) s = .next t ∧ e.toNat = s.dec.rp.toNat + 4 + L.toNat ∧
        DecMoves { s.dec with rp := s.dec.rp + 4, payEnd := e, tokState := .readFlag } 0 [] s t)

/-- 60_exceptions.md R243: a block is due and fewer than 4 bytes remain: DEC's step raises MI_LEN where
the field would start. -/
def Obligations.MissingHeaderEndsInMiLen : Prop :=
  ∀ s : State, s.decShell.status = .busy → s.dec.tokState = .hdr → 0 < s.dec.blkRem.toNat →
    s.dec.rp.toNat ≤ s.dec.n.toNat → s.dec.n.toNat ≤ s.inCap .dec →
    s.dec.n.toNat - s.dec.rp.toNat < 4 →
    ∃ t, decTurn s = .next t ∧ FailsWith .dec .miLen s.dec.rp s t

/-! ## Host commands -/

/-- 42_host_interface.md R211 with 40_encoder.md R132: COMPRESS starts a job of ENC, which clears
OUT_LEN, ERR and ERR_POS and writes the BLOCK_COUNT field, in the byte order of 20_memory.md R63. -/
def Obligations.CompressStartsAJob : Prop :=
  ∀ (x : Word) (s : State), startBit x = true → s.encShell.status ≠ .busy →
    (s.encShell.inLen.toNat > s.cfg.eInCap.toNat → ∃ t, exec (.compress x) s = .next t ∧
      FailsWith .enc .badLength 0 s t) ∧
    (s.encShell.inLen.toNat ≤ s.cfg.eInCap.toNat → s.cfg.eOutCap.toNat < 4 →
      ∃ t, exec (.compress x) s = .next t ∧ FailsWith .enc .outOverflow 0 s t) ∧
    (s.encShell.inLen.toNat ≤ s.cfg.eInCap.toNat → 4 ≤ s.cfg.eOutCap.toNat →
      ∃ (t : State) (N : Word), exec (.compress x) s = .next t ∧
        N.toNat = (s.encShell.inLen.toNat + 262143) / 262144 ∧
        t.enc = { s.enc with n := s.encShell.inLen, nblk := N, blk := 0, inBlk := false, cur := 0, wp := 4 } ∧
        t.encShell = { s.encShell with status := .busy, outLen := 0, err := .noFault, errPos := 0,
                                       out := t.encShell.out } ∧
        (∀ a < 4, t.encShell.out.get a = (be32 N)[a]?) ∧ State.sameBut .enc s t)

/-- 42_host_interface.md R212 with 41_decoder.md R172: DECOMPRESS starts a job of DEC, which clears
OUT_LEN, ERR and ERR_POS and reads the BLOCK_COUNT field, most significant byte first (20_memory.md
R63). -/
def Obligations.DecompressStartsAJob : Prop :=
  ∀ (x : Word) (s : State), startBit x = true → s.decShell.status ≠ .busy →
    (s.decShell.inLen.toNat > s.cfg.dInCap.toNat → ∃ t, exec (.decompress x) s = .next t ∧
      FailsWith .dec .badLength 0 s t) ∧
    (s.decShell.inLen.toNat ≤ s.cfg.dInCap.toNat → s.decShell.inLen.toNat < 4 →
      ∃ t, exec (.decompress x) s = .next t ∧ FailsWith .dec .miCount 0 s t) ∧
    (s.decShell.inLen.toNat ≤ s.cfg.dInCap.toNat → 4 ≤ s.decShell.inLen.toNat →
      ∃ (t : State) (N : Word), exec (.decompress x) s = .next t ∧
        N.toNat = (s.readIn .dec 0).toNat * 2 ^ 24 + (s.readIn .dec 1).toNat * 2 ^ 16 +
          (s.readIn .dec 2).toNat * 2 ^ 8 + (s.readIn .dec 3).toNat ∧
        t.dec = { s.dec with n := s.decShell.inLen, rp := 4, wp := 0, blkRem := N, tokState := .hdr } ∧
        t.decShell = { s.decShell with status := .busy, outLen := 0, err := .noFault, errPos := 0,
                                       out := t.decShell.out } ∧
        State.sameBut .dec s t)

/-- The BLOCK_COUNT field of a job is run, as an instruction, inside the DECOMPRESS step
(41_decoder.md R172; the model's form, log 9). -/
def Obligations.DecompressRunsBlockCount : Prop :=
  ∀ (x : Word) (s : State), startBit x = true → s.decShell.status ≠ .busy →
    s.decShell.inLen.toNat ≤ s.cfg.dInCap.toNat → 4 ≤ s.decShell.inLen.toNat →
    ∃ N, decode (.countField (s.inBytes .dec 0 s.decShell.inLen.toNat)) =
        .ok (.blockCount N, s.inBytes .dec 4 (s.decShell.inLen.toNat - 4)) ∧
      exec (.decompress x) s =
        exec (.blockCount N)
          { s with decShell := { s.decShell with outLen := 0, err := .noFault, errPos := 0, out := [] },
                   dec := { s.dec with n := s.decShell.inLen, rp := 0, wp := 0 } }

/-- 42_host_interface.md R213: a command to a BUSY unit changes nothing and is not queued. -/
def Obligations.CommandToBusyUnitIsIgnored : Prop :=
  ∀ (x : Word) (s : State),
    (s.encShell.status = .busy → exec (.compress x) s = .next s) ∧
    (s.decShell.status = .busy → exec (.decompress x) s = .next s)

/-- 42_host_interface.md R223: a write to CTRL with bit 0 = 0, and a write to an absent register, have
no effect. -/
def Obligations.WritesThatAreNoCommandDoNothing : Prop :=
  ∀ (u : UnitId) (r : Nat) (x : Word) (s : State),
    (x.getLsbD 0 = false → hostStep (.writeReg u 0 x) s = .next s) ∧
    (6 ≤ r → hostStep (.writeReg u r x) s = .next s)

/-! ## ENC's own steps -/

/-- 40_encoder.md R135: opening a block reserves 4 bytes and fixes the block's end, or raises
OUT_OVERFLOW at the block's first byte. -/
def Obligations.EncOpensABlock : Prop :=
  ∀ s : State, s.encShell.status = .busy → s.enc.inBlk = false → s.enc.blk.toNat < s.enc.nblk.toNat →
    (4 > s.cfg.eOutCap.toNat - s.enc.wp.toNat → ∃ t, encTurn s = .next t ∧
      FailsWith .enc .outOverflow s.enc.cur s t) ∧
    (4 ≤ s.cfg.eOutCap.toNat - s.enc.wp.toNat → ∃ t e, encTurn s = .next t ∧
      e.toNat = s.enc.cur.toNat + min 262144 (s.enc.n.toNat - s.enc.cur.toNat) ∧
      EncMoves { s.enc with hdr := s.enc.wp, wp := s.enc.wp + 4, blkEnd := e, inBlk := true } 0 [] s t)

/-- The run ENC counts at its cursor is the longest one from there, cut at 255 and at the end of the
block (40_encoder.md R131, R136). -/
def Obligations.EncCountsTheRunAtTheCursor : Prop :=
  ∀ s : State, s.enc.cur.toNat < s.enc.blkEnd.toNat →
    IsRunLen s .enc s.enc.cur.toNat s.enc.blkEnd.toNat s.runLen

/-- 40_encoder.md R137 to R140: a counted run of 3 or more becomes a RUN, whatever its value; a shorter
one a LIT, or an ESC if its value is 254 or 255, of one byte. -/
def Obligations.EncEmitsTheChosenToken : Prop :=
  ∀ (s : State) (r : Nat), s.encShell.status = .busy → s.enc.inBlk = true →
    s.enc.cur.toNat < s.enc.blkEnd.toNat → s.enc.blkEnd.toNat ≤ s.enc.n.toNat →
    s.enc.n.toNat ≤ s.inCap .enc →
    IsRunLen s .enc s.enc.cur.toNat s.enc.blkEnd.toNat r →
    (3 ≤ r →
      (3 ≤ s.cfg.eOutCap.toNat - s.enc.wp.toNat → ∃ t, encTurn s = .next t ∧
        EncMoves { s.enc with runVal := s.readIn .enc s.enc.cur.toNat, runCnt := BitVec.ofNat 8 r,
                              wp := s.enc.wp + 3, cur := s.enc.cur + BitVec.ofNat 32 r }
          s.enc.wp.toNat [0xFE, BitVec.ofNat 8 r, s.readIn .enc s.enc.cur.toNat] s t) ∧
      (3 > s.cfg.eOutCap.toNat - s.enc.wp.toNat → ∃ t, encTurn s = .next t ∧
        FailsWith .enc .outOverflow s.enc.cur s t)) ∧
    (r < 3 → (s.readIn .enc s.enc.cur.toNat).toNat ≤ 253 →
      (1 ≤ s.cfg.eOutCap.toNat - s.enc.wp.toNat → ∃ t, encTurn s = .next t ∧
        EncMoves { s.enc with runVal := s.readIn .enc s.enc.cur.toNat, runCnt := BitVec.ofNat 8 r,
                              wp := s.enc.wp + 1, cur := s.enc.cur + 1 }
          s.enc.wp.toNat [s.readIn .enc s.enc.cur.toNat] s t) ∧
      (1 > s.cfg.eOutCap.toNat - s.enc.wp.toNat → ∃ t, encTurn s = .next t ∧
        FailsWith .enc .outOverflow s.enc.cur s t)) ∧
    (r < 3 → 254 ≤ (s.readIn .enc s.enc.cur.toNat).toNat →
      (2 ≤ s.cfg.eOutCap.toNat - s.enc.wp.toNat → ∃ t, encTurn s = .next t ∧
        EncMoves { s.enc with runVal := s.readIn .enc s.enc.cur.toNat, runCnt := BitVec.ofNat 8 r,
                              wp := s.enc.wp + 2, cur := s.enc.cur + 1 }
          s.enc.wp.toNat [0xFF, s.readIn .enc s.enc.cur.toNat] s t) ∧
      (2 > s.cfg.eOutCap.toNat - s.enc.wp.toNat → ∃ t, encTurn s = .next t ∧
        FailsWith .enc .outOverflow s.enc.cur s t))

/-- 40_encoder.md R142: closing a block writes its PAYLOAD_LEN, the number of token bytes written since
it was opened, where the field was reserved. -/
def Obligations.EncClosesABlock : Prop :=
  ∀ s : State, s.encShell.status = .busy → s.enc.inBlk = true → s.enc.cur = s.enc.blkEnd →
    s.enc.hdr.toNat + 4 ≤ s.enc.wp.toNat → s.enc.wp.toNat ≤ s.cfg.eOutCap.toNat →
    ∃ (t : State) (L : Word), encTurn s = .next t ∧
      L.toNat = s.enc.wp.toNat - s.enc.hdr.toNat - 4 ∧
      EncMoves { s.enc with blk := s.enc.blk + 1, inBlk := false } s.enc.hdr.toNat (be32 L) s t

/-- 40_encoder.md R143: when all blocks are closed, OUT_LEN is the number of bytes written and STATUS
is DONE; ENC then executes no step. -/
def Obligations.EncCompletesTheJob : Prop :=
  ∀ s : State, s.encShell.status = .busy → s.enc.inBlk = false → s.enc.blk = s.enc.nblk →
    ∃ t, encTurn s = .next t ∧
      t.encShell = { s.encShell with outLen := s.enc.wp, status := .done, draws := t.encShell.draws } ∧
      State.sameBut .enc s t ∧ encTurn t = .next t

/-! ## DEC's steps between items -/

/-- 41_decoder.md R179: at the payload's end, on a token boundary, one block fewer remains. -/
def Obligations.DecEndsABlock : Prop :=
  ∀ s : State, s.decShell.status = .busy → s.dec.tokState = .readFlag → s.dec.rp = s.dec.payEnd →
    s.dec.payEnd.toNat ≤ s.dec.n.toNat → s.dec.n.toNat ≤ s.inCap .dec →
    ∃ t, decTurn s = .next t ∧
      DecMoves { s.dec with blkRem := s.dec.blkRem - 1, tokState := .hdr } 0 [] s t

/-- 41_decoder.md R180: when no block remains, OUT_LEN is the number of bytes reconstructed and STATUS
is DONE, whatever stands after the last block (R181); DEC then executes no step. -/
def Obligations.DecCompletesTheJob : Prop :=
  ∀ s : State, s.decShell.status = .busy → s.dec.tokState = .hdr → s.dec.blkRem = 0 →
    s.dec.rp.toNat ≤ s.dec.n.toNat → s.dec.n.toNat ≤ s.inCap .dec →
    ∃ t, decTurn s = .next t ∧
      t.decShell = { s.decShell with outLen := s.dec.wp, status := .done, draws := t.decShell.draws } ∧
      State.sameBut .dec s t ∧ decTurn t = .next t

/-! ## Registers, buffers, reset, faults -/

/-- 42_host_interface.md R215: `WriteIn` stores one byte of `U.IN`, unless the unit is BUSY or the
offset is outside the buffer. -/
def Obligations.WriteInStoresOneByte : Prop :=
  ∀ (u : UnitId) (a : Word) (v : Byte) (s : State),
    ((s.shell u).status ≠ .busy → a.toNat < s.inCap u → ∃ t, hostStep (.writeIn u a v) s = .next t ∧
      Memory.stores (s.shell u).inp (t.shell u).inp a.toNat [v] ∧
      t.shell u = { s.shell u with inp := (t.shell u).inp } ∧ t.enc = s.enc ∧ t.dec = s.dec ∧
      State.sameBut u s t) ∧
    ((s.shell u).status = .busy → hostStep (.writeIn u a v) s = .next s) ∧
    (s.inCap u ≤ a.toNat → hostStep (.writeIn u a v) s = .next s)

/-- 42_host_interface.md R218: IN_LEN takes any value unless the unit is BUSY; the read-only registers
ignore writes. -/
def Obligations.OnlyInLenIsWritable : Prop :=
  ∀ (u : UnitId) (x : Word) (s : State),
    ((s.shell u).status ≠ .busy → ∃ t, hostStep (.writeReg u 2 x) s = .next t ∧
      t.shell u = { s.shell u with inLen := x } ∧ t.enc = s.enc ∧ t.dec = s.dec ∧
      State.sameBut u s t) ∧
    ((s.shell u).status = .busy → hostStep (.writeReg u 2 x) s = .next s) ∧
    (∀ r, r = 1 ∨ r = 3 ∨ r = 4 ∨ r = 5 → hostStep (.writeReg u r x) s = .next s)

/-- 42_host_interface.md R217, with the codes of 10_state.md R24 and R27: what a register read gives the
host; nothing else changes. -/
def Obligations.RegisterReadsAnswerTheirValue : Prop :=
  ∀ (u : UnitId) (r : Nat) (s : State),
    ∃ x, hostStep (.readReg u r) s = .next { s with answers := .reg u r x :: s.answers } ∧
      (r = 0 → x = 0) ∧ (r = 2 → x = (s.shell u).inLen) ∧ (r = 3 → x = (s.shell u).outLen) ∧
      (r = 5 → x = (s.shell u).errPos) ∧ (6 ≤ r → x = 0) ∧
      (r = 1 → ((s.shell u).status = .idle → x = 0) ∧ ((s.shell u).status = .busy → x = 1) ∧
        ((s.shell u).status = .done → x = 2) ∧ ((s.shell u).status = .error → x = 3)) ∧
      (r = 4 → ((s.shell u).err = .noFault → x = 0) ∧ ((s.shell u).err = .miCount → x = 1) ∧
        ((s.shell u).err = .miLen → x = 2) ∧ ((s.shell u).err = .miPayload → x = 3) ∧
        ((s.shell u).err = .miToken → x = 4) ∧ ((s.shell u).err = .outOverflow → x = 5) ∧
        ((s.shell u).err = .badLength → x = 6))

/-- 42_host_interface.md R216: a byte of a DONE job's result is read as it is; any other read gives some
byte, of which nothing is said, and changes nothing but the host's answers and the model's own count
of free values. -/
def Obligations.ResultBytesAreReadAsWritten : Prop :=
  ∀ (u : UnitId) (a : Word) (s : State),
    (∀ v, (s.shell u).status = .done → a.toNat < (s.shell u).outLen.toNat →
      (s.shell u).out.get a.toNat = some v →
      hostStep (.readOut u a) s = .next { s with answers := .byte u a v :: s.answers }) ∧
    ((s.shell u).status ≠ .done ∨ (s.shell u).outLen.toNat ≤ a.toNat →
      ∃ t v, hostStep (.readOut u a) s = .next t ∧ t.answers = .byte u a v :: s.answers ∧
        t.shell u = { s.shell u with draws := (t.shell u).draws } ∧
        State.sameBut u { s with answers := .byte u a v :: s.answers } t ∧
        t.enc = s.enc ∧ t.dec = s.dec)

/-- 10_state.md R40: what the spec gives of the state after reset. -/
def Obligations.ResetStateIsIdle : Prop :=
  ∀ u : UnitId, (State.reset.shell u).status = .idle ∧ (State.reset.shell u).inLen = 0 ∧
    (State.reset.shell u).outLen = 0 ∧ (State.reset.shell u).err = .noFault ∧
    (State.reset.shell u).errPos = 0 ∧ (State.reset.shell u).readReg 0 = 0

/-- 70_reset_and_hazards.md R270 and R271: `Reset` acts on both units at once in any state, a BUSY one
too, and abandons its job; no unit then executes a step. -/
def Obligations.ResetAbandonsEveryJob : Prop :=
  ∀ s : State, ∃ t, hostStep .reset s = .next t ∧ t.cfg = s.cfg ∧ t.pending = s.pending ∧
    t.answers = s.answers ∧ t.turns = s.turns ∧ encTurn t = .next t ∧ decTurn t = .next t ∧
    ∀ u : UnitId, (t.shell u).status = .idle ∧ (t.shell u).inLen = 0 ∧ (t.shell u).outLen = 0 ∧
      (t.shell u).err = .noFault ∧ (t.shell u).errPos = 0

/-- 60_exceptions.md R251: raising a fault writes ERR, ERR_POS, OUT_LEN and STATUS, leaves `U.IN` and
IN_LEN, and the unit then executes no step. -/
def Obligations.RaiseEndsTheJob : Prop :=
  ∀ (u : UnitId) (c : Cause) (pos : Word) (s : State),
    FailsWith u c pos s (s.raise u c pos) ∧
    (u = .enc → encTurn (s.raise u c pos) = .next (s.raise u c pos)) ∧
    (u = .dec → decTurn (s.raise u c pos) = .next (s.raise u c pos))

/-! ## Frames and whole-machine rules -/

/-- What no instruction changes: the other unit, the host, the configuration, and of its own unit `U.IN`
and IN_LEN (10_state.md R21, R25, R29). -/
def Obligations.InstructionsLeaveTheRestAlone : Prop :=
  ∀ (i : Instr) (s t : State), exec i s = .next t →
    State.sameBut (unitOf i) s t ∧ (t.shell (unitOf i)).inp = (s.shell (unitOf i)).inp ∧
    (t.shell (unitOf i)).inLen = (s.shell (unitOf i)).inLen ∧
    (t.shell (unitOf i)).resets = (s.shell (unitOf i)).resets

/-- No step of one unit writes the state of the other, nor reads it: a unit's next registers and buffers
depend on its own alone (10_state.md R21). -/
def Obligations.UnitsShareNothing : Prop :=
  (∀ s t : State, encTurn s = .next t → State.sameBut .enc s t) ∧
  (∀ s t : State, decTurn s = .next t → State.sameBut .dec s t) ∧
  (∀ a b s : State, a.cfg = b.cfg → a.encShell = b.encShell → a.enc = b.enc → encTurn a = .next s →
    ∃ t, encTurn b = .next t ∧ t.encShell = s.encShell ∧ t.enc = s.enc) ∧
  (∀ a b s : State, a.cfg = b.cfg → a.decShell = b.decShell → a.dec = b.dec → decTurn a = .next s →
    ∃ t, decTurn b = .next t ∧ t.decShell = s.decShell ∧ t.dec = s.dec)

/-- A unit never writes its input buffer or IN_LEN (10_state.md R25, R29). -/
def Obligations.UnitsNeverWriteTheirInput : Prop :=
  ∀ (g : Agent) (u : UnitId) (s t : State), g ≠ .host → agentTurn g s = .next t →
    (t.shell u).inp = (s.shell u).inp ∧ (t.shell u).inLen = (s.shell u).inLen ∧
    (t.shell u).resets = (s.shell u).resets

/-- While a unit is BUSY no step changes its input, unless it is a reset: the stream a job reads is what
`U.IN` held at START (20_memory.md R73). -/
def Obligations.InputIsFrozenDuringAJob : Prop :=
  ∀ (u : UnitId) (s t : State), (s.shell u).status = .busy → step s = .next t →
    ((t.shell u).inp = (s.shell u).inp ∧ (t.shell u).inLen = (s.shell u).inLen ∧
      (t.shell u).resets = (s.shell u).resets) ∨
    (∃ ops, s.pending = .reset :: ops ∧ (t.shell u).status = .idle)

/-- The configuration is fixed for the life of the hardware (10_state.md R38). -/
def Obligations.NoStepChangesTheConfiguration : Prop :=
  ∀ s t : State, step s = .next t → t.cfg = s.cfg

/-- Who writes STATUS (10_state.md R24): IDLE comes by reset only, DONE only at the end of a job, and out
of IDLE, DONE and ERROR a unit comes by a command or a reset only. -/
def Obligations.StatusChangesAreTheNamedOnes : Prop :=
  ∀ (u : UnitId) (s t : State), step s = .next t →
    ((t.shell u).status = .idle → (s.shell u).status ≠ .idle → ∃ ops, s.pending = .reset :: ops) ∧
    ((t.shell u).status = .done → (s.shell u).status ≠ .done → (s.shell u).status = .busy) ∧
    ((s.shell u).status ≠ .busy → (t.shell u).status ≠ (s.shell u).status →
      ∃ op ops, s.pending = op :: ops ∧
        (op = .reset ∨ ∃ x, startBit x = true ∧ op = .writeReg u 0 x))

/-- The invariant holds after reset. -/
def Obligations.InvariantHoldsAtReset : Prop := State.reset.Inv

/-- Every step keeps the invariant: buffers in canonical form and inside their capacities, ERR and
ERR_POS zero but in ERROR, OUT_LEN zero but in DONE, every byte of a DONE result there, and the
pointers of a BUSY unit inside their buffers (10_state.md R24 to R35, 20_memory.md R62, R76). -/
def Obligations.EveryStepKeepsTheInvariant : Prop :=
  ∀ s t : State, s.Inv → step s = .next t → t.Inv

/-- No step stops in a state of the invariant: exactly one guard holds in every BUSY state, and no access
is out of bounds (20_memory.md R62, 40_encoder.md section 2, 41_decoder.md section 2). -/
def Obligations.NoStepStopsUnderTheInvariant : Prop :=
  ∀ s : State, s.Inv → ∃ t, step s = .next t

/-! ## Every job ends -/

/-- A compress job ends within one step for each block opened, each closed, each token and the
completion (40_encoder.md R152, 70_reset_and_hazards.md R280). With no turns listed ENC moves first
(log 1). -/
def Obligations.CompressJobsEnd : Prop :=
  ∀ s : State, s.Inv → s.turns = [] → s.pending = [] → s.encShell.status = .busy →
    ∃ k t, k ≤ 2 * s.enc.nblk.toNat + s.enc.n.toNat + 1 ∧ runsTo k s t ∧
      (t.encShell.status = .done ∨ t.encShell.status = .error)

/-- A decompress job ends within the bound of 41_decoder.md R190, whatever its BLOCK_COUNT. With no turns
listed and ENC at rest DEC moves (log 1). -/
def Obligations.DecompressJobsEnd : Prop :=
  ∀ s : State, s.Inv → s.turns = [] → s.pending = [] → s.encShell.status ≠ .busy →
    s.decShell.status = .busy →
    ∃ k t, k ≤ s.dec.n.toNat + 2 * (s.dec.n.toNat / 4) + 2 ∧ runsTo k s t ∧
      (t.decShell.status = .done ∨ t.decShell.status = .error)

/-! ## The codec -/

/-- The empty input has block count 0 and no block, and decodes to the empty buffer; so does one block
of length 0 (40_encoder.md R133, 41_decoder.md R184, R185); the block counts of R133's corner cases. -/
def Obligations.EmptyInputHasNoBlock : Prop :=
  compress [] = [0, 0, 0, 0] ∧ decompress [0, 0, 0, 0] = .ok [] ∧
  decompress [0, 0, 0, 1, 0, 0, 0, 0] = .ok [] ∧
  blockCountOf 0 = 0 ∧ blockCountOf 1 = 1 ∧ blockCountOf 262143 = 1 ∧ blockCountOf 262144 = 1 ∧
  blockCountOf 262145 = 2 ∧ blockCountOf 524288 = 2 ∧ blockCountOf 4294967295 = 16384

/-- Every token the encoder emits is canonical, and its payload parses into exactly those tokens
(30_encoding.md R100, 40_encoder.md R148). -/
def Obligations.EncodedBlocksAreCanonical : Prop :=
  ∀ b : List Byte, ∃ ts : List Instr, parsePayload (encBlock b) = .ok ts ∧
    ∀ i ∈ ts, i.canonical = true

/-- A run of `m` equal bytes is emitted greedily: as many RUN 255 as fit, then nothing, one or two
one-byte tokens, or one RUN of the rest (40_encoder.md R146, R147). -/
def Obligations.LongRunsAreEmittedGreedily : Prop :=
  ∀ (m : Nat) (v : Byte),
    encBlock (List.replicate m v) =
      (List.replicate (m / 255) [0xFE, 0xFF, v]).flatten ++
      (if m % 255 = 0 then []
       else if m % 255 = 1 then (if v.toNat ≤ 253 then [v] else [0xFF, v])
       else if m % 255 = 2 then (if v.toNat ≤ 253 then [v, v] else [0xFF, v, 0xFF, v])
       else [0xFE, BitVec.ofNat 8 (m % 255), v])

/-- The bounds of an encoder output's length (40_encoder.md R149). -/
def Obligations.CompressedSizeIsBounded : Prop :=
  ∀ B : List Byte, B ≠ [] →
    4 + 5 * blockCountOf B.length ≤ (compress B).length ∧
    (compress B).length ≤ 4 + 4 * blockCountOf B.length + 2 * B.length

/-- A compress job overflows exactly when its output is longer than the buffer (40_encoder.md R144). -/
def Obligations.OverflowExactlyWhenTooLong : Prop :=
  ∀ (cap : Nat) (B : List Byte),
    overflowAt cap 0 (compressWrites B) = none ↔ (compress B).length ≤ cap

/-- An input of `m` bytes decodes to at most `85 * (m - 8)` bytes (41_decoder.md R186). -/
def Obligations.DecodedSizeIsBounded : Prop :=
  ∀ C Y : List Byte, decompress C = .ok Y → Y.length ≤ 85 * (C.length - 8)

/-- Bytes after the last block do not affect the result (41_decoder.md R181). -/
def Obligations.TrailingBytesAreIgnored : Prop :=
  ∀ C X Y : List Byte, decompress C = .ok Y → decompress (C ++ X) = .ok Y

/-- The round-trip law (41_decoder.md R188) for every input the hardware can be given, i.e. below `2^32`
bytes (00_scope.md R9, 93_implementation_defined.md U10). -/
def Obligations.DecompressUndoesCompress : Prop :=
  ∀ B : List Byte, B.length < 2 ^ 32 → decompress (compress B) = .ok B

/-- The machine computes `compress` (42_host_interface.md R220): from any state in which ENC is not BUSY
and holds `X`, the command leads to the result of the function, or to OUT_OVERFLOW at the cursor of the
first write that does not fit. With no turns listed the host moves first, then ENC (log 1). -/
def Obligations.CompressJobComputesCompress : Prop :=
  ∀ (s : State) (X : List Byte) (x : Word), s.Inv → s.turns = [] → s.pending = [.writeReg .enc 0 x] →
    startBit x = true → s.encShell.status ≠ .busy → s.encShell.inLen.toNat = X.length →
    X.length ≤ s.inCap .enc → s.inBytes .enc 0 X.length = X →
    ∃ k t, runsTo k s t ∧ t.encShell.observe = compressResult (s.outCap .enc) X

/-- The machine computes `decompress` (42_host_interface.md R220): from any state in which DEC is not
BUSY and holds `X`, the command leads to the result of the function, to its error at its position, or
to OUT_OVERFLOW at the token that does not fit, whichever comes first. ENC is not BUSY here; that its
jobs cannot matter is UnitsShareNothing. With no turns listed the host moves first, then DEC (log 1). -/
def Obligations.DecompressJobComputesDecompress : Prop :=
  ∀ (s : State) (X : List Byte) (x : Word), s.Inv → s.turns = [] → s.pending = [.writeReg .dec 0 x] →
    startBit x = true → s.encShell.status ≠ .busy → s.decShell.status ≠ .busy →
    s.decShell.inLen.toNat = X.length → X.length ≤ s.inCap .dec → s.inBytes .dec 0 X.length = X →
    ∃ k t, runsTo k s t ∧ t.decShell.observe = decompressResult (s.outCap .dec) X
end

