-- ==== Sys2Proof/Laws/Memory.lean ====
section
/-! SUPPORT. The laws of the buffers: read after write, the canonical form, and the bounds of the listed offsets. -/

namespace Sys2Proof.Machine

@[simp] theorem Memory.get_nil (a : Nat) : Memory.get [] a = none := rfl

theorem Memory.get_cons (b : Nat) (w : Byte) (m : Memory) (a : Nat) :
    Memory.get ((b, w) :: m) a = if a = b then some w else Memory.get m a := rfl

/-- Read after write: the same offset gives the byte written, any other what it gave before. -/
theorem Memory.get_set (m : Memory) (a b : Nat) (v : Byte) :
    (Memory.set m a v).get b = if b = a then some v else m.get b := by
  induction m with
  | nil => rfl
  | cons c m ih =>
    obtain ⟨k, w⟩ := c
    by_cases h1 : a < k
    · simp [Memory.set, h1, Memory.get_cons]
    · by_cases h2 : a = k
      · subst h2
        by_cases h3 : b = a <;> simp [Memory.set, Memory.get_cons, h3]
      · simp only [Memory.set, h1, h2, if_false, Memory.get_cons, ih]
        by_cases h3 : b = a
        · subst h3; simp [h2]
        · simp [h3]

@[simp] theorem Memory.get_set_same (m : Memory) (a : Nat) (v : Byte) :
    (Memory.set m a v).get a = some v := by simp [Memory.get_set]

theorem Memory.get_set_other (m : Memory) {a b : Nat} (v : Byte) (h : b ≠ a) :
    (Memory.set m a v).get b = m.get b := by simp [Memory.get_set, h]

/-- A store of several bytes leaves every offset outside them alone. -/
theorem Memory.get_setMany_outside (bs : List Byte) (m : Memory) (a x : Nat)
    (h : x < a ∨ a + bs.length ≤ x) : (Memory.setMany m a bs).get x = m.get x := by
  induction bs generalizing m a with
  | nil => rfl
  | cons v vs ih =>
    simp only [List.length_cons] at h
    rw [Memory.setMany, ih (Memory.set m a v) (a + 1) (by omega), Memory.get_set_other _ _ (by omega)]

/-- A store of several bytes puts each at its own offset. -/
theorem Memory.get_setMany_inside (bs : List Byte) (m : Memory) (a i : Nat) (h : i < bs.length) :
    (Memory.setMany m a bs).get (a + i) = bs[i]? := by
  induction bs generalizing m a i with
  | nil => simp at h
  | cons v vs ih =>
    cases i with
    | zero =>
      rw [Memory.setMany, Memory.get_setMany_outside _ _ _ _ (by omega)]
      simp
    | succ i =>
      have := ih (Memory.set m a v) (a + 1) i (by simpa using h)
      rw [Memory.setMany, show a + (i + 1) = a + 1 + i by omega, this]
      simp

theorem Memory.stores_setMany (m : Memory) (a : Nat) (bs : List Byte) :
    Memory.stores m (Memory.setMany m a bs) a bs :=
  ⟨fun i h => Memory.get_setMany_inside bs m a i h,
   fun x h => Memory.get_setMany_outside bs m a x h⟩

theorem Memory.stores_refl (m : Memory) (a : Nat) : Memory.stores m m a [] :=
  ⟨fun i h => absurd h (by simp), fun _ _ => rfl⟩

/-! The canonical form. -/

@[simp] theorem Memory.wf_nil : Memory.wf [] = true := rfl

theorem Memory.wf_tail {c : Host.Cell} {m : Memory} (h : Memory.wf (c :: m) = true) :
    Memory.wf m = true := by
  cases m with
  | nil => rfl
  | cons d m => simp [Memory.wf] at h; exact h.2

/-- In canonical form the first offset is below all others. -/
theorem Memory.wf_head_lt {c : Host.Cell} {m : Memory} (h : Memory.wf (c :: m) = true) :
    ∀ d ∈ m, c.1 < d.1 := by
  induction m generalizing c with
  | nil => simp
  | cons e m ih =>
    simp only [Memory.wf, Bool.and_eq_true, decide_eq_true_eq] at h
    intro d hd
    rcases List.mem_cons.mp hd with rfl | hd
    · exact h.1
    · exact h.1.trans (ih h.2 d hd)

theorem Memory.wf_cons_iff (c : Host.Cell) (m : Memory) :
    Memory.wf (c :: m) = true ↔ (∀ d ∈ m, c.1 < d.1) ∧ Memory.wf m = true := by
  refine ⟨fun h => ⟨Memory.wf_head_lt h, Memory.wf_tail h⟩, fun ⟨h, k⟩ => ?_⟩
  cases m with
  | nil => rfl
  | cons d m => simp [Memory.wf, h d (by simp), k]

/-- What a store lists: the offset stored to, and what was listed. -/
theorem Memory.mem_set {m : Memory} {a : Nat} {v : Byte} {c : Host.Cell}
    (h : c ∈ Memory.set m a v) : c.1 = a ∨ c ∈ m := by
  induction m with
  | nil => simp [Memory.set] at h; exact .inl (by rw [h])
  | cons d m ih =>
    obtain ⟨b, w⟩ := d
    simp only [Memory.set] at h
    split at h
    · rcases List.mem_cons.mp h with rfl | h
      · exact .inl rfl
      · exact .inr h
    · split at h
      · rcases List.mem_cons.mp h with rfl | h
        · exact .inl rfl
        · exact .inr (List.mem_cons_of_mem _ h)
      · rcases List.mem_cons.mp h with rfl | h
        · exact .inr (by simp)
        · exact (ih h).imp_right (List.mem_cons_of_mem _)

/-- A store keeps the canonical form. -/
theorem Memory.wf_set {m : Memory} (h : m.wf = true) (a : Nat) (v : Byte) :
    (Memory.set m a v).wf = true := by
  induction m with
  | nil => rfl
  | cons d m ih =>
    obtain ⟨b, w⟩ := d
    obtain ⟨hlt, hm⟩ := (Memory.wf_cons_iff _ _).mp h
    simp only [Memory.set]
    split
    · rename_i hab
      refine (Memory.wf_cons_iff _ _).mpr ⟨fun c hc => ?_, h⟩
      rcases List.mem_cons.mp hc with rfl | hc
      · exact hab
      · exact Nat.lt_trans hab (hlt c hc)
    · split
      · rename_i _ hab
        subst hab
        exact (Memory.wf_cons_iff _ _).mpr ⟨hlt, hm⟩
      · rename_i h1 h2
        refine (Memory.wf_cons_iff _ _).mpr ⟨fun c hc => ?_, ih hm⟩
        rcases Memory.mem_set hc with h3 | hc
        · simp only [h3]; omega
        · exact hlt c hc

/-- A store of several bytes keeps the canonical form. -/
theorem Memory.wf_setMany {m : Memory} (h : m.wf = true) (a : Nat) (bs : List Byte) :
    (Memory.setMany m a bs).wf = true := by
  induction bs generalizing m a with
  | nil => exact h
  | cons v vs ih => exact ih (Memory.wf_set h a v) (a + 1)

/-- A store inside the buffer lists no offset outside it. -/
theorem Memory.within_set {m : Memory} {k : Nat} (h : m.within k) {a : Nat} (ha : a < k) (v : Byte) :
    (Memory.set m a v).within k := by
  intro c hc
  rcases Memory.mem_set hc with h1 | hc
  · omega
  · exact h c hc

theorem Memory.within_setMany {m : Memory} {k : Nat} (h : m.within k) {a : Nat} (bs : List Byte)
    (ha : a + bs.length ≤ k) : (Memory.setMany m a bs).within k := by
  induction bs generalizing m a with
  | nil => exact h
  | cons v vs ih =>
    simp only [List.length_cons] at ha
    exact ih (Memory.within_set h (by omega) v) (by omega)

@[simp] theorem Memory.within_nil (k : Nat) : Memory.within [] k := by simp [Memory.within]

@[simp] theorem Memory.listedBelow_zero (m : Memory) : m.listedBelow 0 := by simp [Memory.listedBelow]

/-- The buffers after reset are in canonical form. -/
theorem State.reset_wf (u : UnitId) :
    (State.reset.shell u).inp.wf = true ∧ (State.reset.shell u).out.wf = true := by
  cases u <;> exact ⟨rfl, rfl⟩

end Sys2Proof.Machine
end

