-- ==== Sys2Proof/Laws/State.lean ====
section
/-! SUPPORT. What each update of the state leaves of each field: one lemma per field per update. -/

namespace Sys2Proof.Machine

section
variable (s : State) (u : UnitId) (sh : Shell) (e : EncWork) (d : DecWork)

@[simp] theorem State.shell_enc : s.shell .enc = s.encShell := rfl
@[simp] theorem State.shell_dec : s.shell .dec = s.decShell := rfl

@[simp] theorem State.setShell_shell : (s.setShell u sh).shell u = sh := by cases u <;> rfl
@[simp] theorem State.setShell_enc_encShell : (s.setShell .enc sh).encShell = sh := rfl
@[simp] theorem State.setShell_dec_decShell : (s.setShell .dec sh).decShell = sh := rfl
@[simp] theorem State.setShell_enc_decShell : (s.setShell .enc sh).decShell = s.decShell := rfl
@[simp] theorem State.setShell_dec_encShell : (s.setShell .dec sh).encShell = s.encShell := rfl
@[simp] theorem State.setShell_enc : (s.setShell u sh).enc = s.enc := by cases u <;> rfl
@[simp] theorem State.setShell_dec : (s.setShell u sh).dec = s.dec := by cases u <;> rfl
@[simp] theorem State.setShell_cfg : (s.setShell u sh).cfg = s.cfg := by cases u <;> rfl
@[simp] theorem State.setShell_pending : (s.setShell u sh).pending = s.pending := by cases u <;> rfl
@[simp] theorem State.setShell_answers : (s.setShell u sh).answers = s.answers := by cases u <;> rfl
@[simp] theorem State.setShell_turns : (s.setShell u sh).turns = s.turns := by cases u <;> rfl

@[simp] theorem State.setEnc_enc : (s.setEnc e).enc = e := rfl
@[simp] theorem State.setEnc_dec : (s.setEnc e).dec = s.dec := rfl
@[simp] theorem State.setEnc_encShell : (s.setEnc e).encShell = s.encShell := rfl
@[simp] theorem State.setEnc_decShell : (s.setEnc e).decShell = s.decShell := rfl
@[simp] theorem State.setEnc_shell : (s.setEnc e).shell u = s.shell u := by cases u <;> rfl
@[simp] theorem State.setEnc_cfg : (s.setEnc e).cfg = s.cfg := rfl
@[simp] theorem State.setEnc_pending : (s.setEnc e).pending = s.pending := rfl
@[simp] theorem State.setEnc_answers : (s.setEnc e).answers = s.answers := rfl
@[simp] theorem State.setEnc_turns : (s.setEnc e).turns = s.turns := rfl

@[simp] theorem State.setDec_dec : (s.setDec d).dec = d := rfl
@[simp] theorem State.setDec_enc : (s.setDec d).enc = s.enc := rfl
@[simp] theorem State.setDec_encShell : (s.setDec d).encShell = s.encShell := rfl
@[simp] theorem State.setDec_decShell : (s.setDec d).decShell = s.decShell := rfl
@[simp] theorem State.setDec_shell : (s.setDec d).shell u = s.shell u := by cases u <;> rfl
@[simp] theorem State.setDec_cfg : (s.setDec d).cfg = s.cfg := rfl
@[simp] theorem State.setDec_pending : (s.setDec d).pending = s.pending := rfl
@[simp] theorem State.setDec_answers : (s.setDec d).answers = s.answers := rfl
@[simp] theorem State.setDec_turns : (s.setDec d).turns = s.turns := rfl

@[simp] theorem State.freeWork_cfg : (s.freeWork u).cfg = s.cfg := by cases u <;> rfl
@[simp] theorem State.freeWork_pending : (s.freeWork u).pending = s.pending := by cases u <;> rfl
@[simp] theorem State.freeWork_answers : (s.freeWork u).answers = s.answers := by cases u <;> rfl
@[simp] theorem State.freeWork_turns : (s.freeWork u).turns = s.turns := by cases u <;> rfl
@[simp] theorem State.freeWork_shell :
    (s.freeWork u).shell u = { s.shell u with draws := (s.shell u).draws + 1 } := by cases u <;> rfl
@[simp] theorem State.freeWork_enc_decShell : (s.freeWork .enc).decShell = s.decShell := rfl
@[simp] theorem State.freeWork_enc_dec : (s.freeWork .enc).dec = s.dec := rfl
@[simp] theorem State.freeWork_dec_encShell : (s.freeWork .dec).encShell = s.encShell := rfl
@[simp] theorem State.freeWork_dec_enc : (s.freeWork .dec).enc = s.enc := rfl

end

/-- The busy test reads the unit's own registers only. -/
@[simp] theorem State.busy_setEnc (s : State) (u : UnitId) (e : EncWork) :
    (s.setEnc e).busy u = s.busy u := by cases u <;> rfl

@[simp] theorem State.busy_setDec (s : State) (u : UnitId) (d : DecWork) :
    (s.setDec d).busy u = s.busy u := by cases u <;> rfl

theorem State.busy_iff (s : State) (u : UnitId) : s.busy u = true ↔ (s.shell u).status = .busy := by
  simp [State.busy]

/-- Reading `U.IN` depends on the unit's buffer and its reset count only. -/
theorem State.readIn_congr {s t : State} {u : UnitId} (hi : (t.shell u).inp = (s.shell u).inp)
    (hr : (t.shell u).resets = (s.shell u).resets) (a : Nat) : t.readIn u a = s.readIn u a := by
  simp only [State.readIn, hi, hr]

/-- `sameBut` is closed under composition, so a frame is proved operation by operation. -/
theorem State.sameBut_refl (u : UnitId) (s : State) : State.sameBut u s s := by
  cases u <;> exact ⟨rfl, rfl, rfl, rfl, rfl, rfl⟩

theorem State.sameBut_trans {u : UnitId} {a b c : State}
    (h : State.sameBut u a b) (k : State.sameBut u b c) : State.sameBut u a c := by
  cases u <;> obtain ⟨h1, h2, h3, h4, h5, h6⟩ := h <;> obtain ⟨k1, k2, k3, k4, k5, k6⟩ := k <;>
    exact ⟨k1.trans h1, k2.trans h2, k3.trans h3, k4.trans h4, k5.trans h5, k6.trans h6⟩

theorem State.sameBut_setShell (s : State) (u : UnitId) (sh : Shell) :
    State.sameBut u s (s.setShell u sh) := by
  cases u <;> exact ⟨rfl, rfl, rfl, rfl, rfl, rfl⟩

theorem State.sameBut_setEnc (s : State) (e : EncWork) : State.sameBut .enc s (s.setEnc e) :=
  ⟨rfl, rfl, rfl, rfl, rfl, rfl⟩

theorem State.sameBut_setDec (s : State) (d : DecWork) : State.sameBut .dec s (s.setDec d) :=
  ⟨rfl, rfl, rfl, rfl, rfl, rfl⟩

theorem State.sameBut_freeWork (s : State) (u : UnitId) : State.sameBut u s (s.freeWork u) := by
  cases u <;> exact ⟨rfl, rfl, rfl, rfl, rfl, rfl⟩

theorem State.sameBut_setWp (s : State) (u : UnitId) (p : Word) : State.sameBut u s (s.setWp u p) := by
  cases u <;> exact ⟨rfl, rfl, rfl, rfl, rfl, rfl⟩

end Sys2Proof.Machine
end

