-- ==== Sys2Proof/Laws/Ops.lean ====
section
/-! SUPPORT. One lemma for each shared operation that says what it can do. -/

namespace Sys2Proof.Machine

/-- Taking a fault writes what 60_exceptions.md R251 says and leaves the rest alone. -/
theorem State.raise_shell (s : State) (u : UnitId) (c : Cause) (pos : Word) :
    (s.raise u c pos).shell u =
      { s.shell u with err := c, errPos := pos, outLen := 0, status := .error, out := [],
                       draws := (s.shell u).draws + 1 } := by
  cases u <;> rfl

theorem State.raise_sameBut (s : State) (u : UnitId) (c : Cause) (pos : Word) :
    State.sameBut u s (s.raise u c pos) :=
  State.sameBut_trans (State.sameBut_freeWork s u) (State.sameBut_setShell _ u _)

theorem State.accept_shell (s : State) (u : UnitId) :
    (s.accept u).shell u = { s.shell u with outLen := 0, err := .noFault, errPos := 0, out := [] } := by
  cases u <;> rfl

theorem State.accept_sameBut (s : State) (u : UnitId) : State.sameBut u s (s.accept u) :=
  State.sameBut_setShell s u _

theorem State.complete_shell (s : State) (u : UnitId) :
    (s.complete u).shell u =
      { s.shell u with outLen := s.wp u, status := .done, draws := (s.shell u).draws + 1 } := by
  cases u <;> rfl

theorem State.complete_sameBut (s : State) (u : UnitId) : State.sameBut u s (s.complete u) :=
  State.sameBut_trans (State.sameBut_freeWork s u) (State.sameBut_setShell _ u _)

theorem State.put_shell (s : State) (u : UnitId) (bs : List Byte) :
    (s.put u bs).shell u = { s.shell u with out := (s.shell u).out.setMany (s.wp u).toNat bs } := by
  cases u <;> rfl

theorem State.put_wp (s : State) (u : UnitId) (bs : List Byte) :
    (s.put u bs).wp u = s.wp u + BitVec.ofNat 32 bs.length := by
  cases u <;> rfl

theorem State.put_sameBut (s : State) (u : UnitId) (bs : List Byte) : State.sameBut u s (s.put u bs) :=
  State.sameBut_trans (State.sameBut_setShell s u _) (State.sameBut_setWp _ u _)

/-- Producing output either raises OUT_OVERFLOW, for want of room, or puts the bytes and goes on. -/
theorem State.emit_cases (s : State) (u : UnitId) (pos : Word) (bs : List Byte) (after : State → State) :
    (s.room u < bs.length ∧ s.emit u pos bs after = s.raise u .outOverflow pos) ∨
    (bs.length ≤ s.room u ∧ s.emit u pos bs after = after (s.put u bs)) := by
  unfold State.emit
  split
  · exact .inl ⟨by assumption, rfl⟩
  · exact .inr ⟨by omega, rfl⟩

/-- A bytes-at-once read has as many bytes as asked for. -/
@[simp] theorem State.inBytes_length (s : State) (u : UnitId) (a k : Nat) :
    (s.inBytes u a k).length = k := by
  induction k generalizing a with
  | zero => rfl
  | succ k ih => simp [State.inBytes, ih]

/-- Byte `i` of a read is the byte at that offset. -/
theorem State.inBytes_getElem? (s : State) (u : UnitId) (a k i : Nat) (h : i < k) :
    (s.inBytes u a k)[i]? = some (s.readIn u (a + i)) := by
  induction k generalizing a i with
  | zero => omega
  | succ k ih =>
    cases i with
    | zero => rfl
    | succ i =>
      simp only [State.inBytes, List.getElem?_cons_succ]
      rw [ih (a + 1) i (by omega), show a + 1 + i = a + (i + 1) by omega]

/-- A run counted over at most `k` bytes is at most `k`. -/
theorem State.runFrom_le (s : State) (u : UnitId) (v : Byte) (a k : Nat) : s.runFrom u v a k ≤ k := by
  induction k generalizing a with
  | zero => rfl
  | succ k ih =>
    simp only [State.runFrom]
    split
    · have := ih (a + 1); omega
    · omega

/-- Every counted byte has the run's value. -/
theorem State.runFrom_same (s : State) (u : UnitId) (v : Byte) (a k j : Nat)
    (h : j < s.runFrom u v a k) : s.readIn u (a + j) = v := by
  induction k generalizing a j with
  | zero => simp [State.runFrom] at h
  | succ k ih =>
    simp only [State.runFrom] at h
    split at h
    · cases j with
      | zero => assumption
      | succ j =>
        have := ih (a + 1) j (by omega)
        rwa [show a + (j + 1) = a + 1 + j by omega]
    · omega

/-- No longer stretch of equal bytes is left uncounted. -/
theorem State.runFrom_largest (s : State) (u : UnitId) (v : Byte) (a k q : Nat) (hq : q ≤ k)
    (h : ∀ j < q, s.readIn u (a + j) = v) : q ≤ s.runFrom u v a k := by
  induction k generalizing a q with
  | zero => omega
  | succ k ih =>
    cases q with
    | zero => omega
    | succ q =>
      have h0 : s.readIn u a = v := by simpa using h 0 (by omega)
      have := ih (a + 1) q (by omega) (fun j hj => by
        have := h (j + 1) (by omega)
        rwa [show a + (j + 1) = a + 1 + j by omega] at this)
      simp only [State.runFrom, h0, if_true]
      omega

/-- A command decodes only from a write to CTRL with START set (30_encoding.md R108). -/
theorem decode_regWrite_cases {u : UnitId} {r : Nat} {x : Word} {i : Instr} {rest : List Byte}
    (h : decode (.regWrite u r x) = .ok (i, rest)) :
    r = 0 ∧ startBit x = true ∧ rest = [] ∧
      ((u = .enc ∧ i = .compress x) ∨ (u = .dec ∧ i = .decompress x)) := by
  simp only [decode] at h
  split at h
  · rename_i hr
    cases u <;> simp at h <;> obtain ⟨rfl, rfl⟩ := h <;> exact ⟨hr.1, hr.2, rfl, by simp⟩
  · cases h

/-- What a token decodes from: three shapes, one for each format (30_encoding.md R93). -/
theorem decodeToken_cases {bs : List Byte} {i : Instr} {rest : List Byte}
    (h : decodeToken bs = .ok (i, rest)) :
    (∃ v, i = .lit v ∧ v ≠ flagEsc ∧ v ≠ flagRun ∧ bs = v :: rest) ∨
    (∃ v, i = .esc v ∧ bs = flagEsc :: v :: rest) ∨
    (∃ n v, i = .run n v ∧ bs = flagRun :: n :: v :: rest) := by
  match bs with
  | [] => cases h
  | f :: tail =>
    by_cases h1 : f = flagEsc
    · match tail with
      | [] => simp [decodeToken, h1] at h
      | v :: tail =>
        simp [decodeToken, h1] at h
        obtain ⟨rfl, rfl⟩ := h
        exact .inr (.inl ⟨v, rfl, by rw [h1]⟩)
    · by_cases h2 : f = flagRun
      · match tail with
        | [] => simp [decodeToken, h2] at h
        | [n] => simp [decodeToken, h2] at h
        | n :: v :: tail =>
          simp [decodeToken, h2] at h
          obtain ⟨rfl, rfl⟩ := h
          exact .inr (.inr ⟨n, v, rfl, by rw [h2]⟩)
      · simp only [decodeToken] at h
        rw [if_neg h1, if_neg h2] at h
        cases h
        exact .inl ⟨f, rfl, h1, h2, rfl⟩

end Sys2Proof.Machine
end

