-- ==== Sys2Proof/Laws/PerInstr.lean ====
section
/-! SUPPORT. One statement about every instruction as syntax: how many bytes its encoding has. -/

namespace Sys2Proof.Laws.EncodedLength

/-- An encoding has at most 4 bytes, and a token's at least one and at most three (30_encoding.md R91
to R93; a token always consumes input, R104). -/
def Statement (i : Instr) : Prop :=
  i.bytes.length ≤ 4 ∧ (i.isToken = true → 1 ≤ i.bytes.length ∧ i.bytes.length ≤ Machine.maxToken)

theorem lit (v : Byte) : Statement (.lit v) := by simp [Statement, Instr.bytes, Machine.maxToken]
theorem esc (v : Byte) : Statement (.esc v) := by simp [Statement, Instr.bytes, Machine.maxToken]
theorem run (n v : Byte) : Statement (.run n v) := by simp [Statement, Instr.bytes, Machine.maxToken]
theorem blockCount (N : Word) : Statement (.blockCount N) := by
  simp [Statement, Instr.bytes, Instr.isToken, be32]
theorem payloadLen (L : Word) : Statement (.payloadLen L) := by
  simp [Statement, Instr.bytes, Instr.isToken, be32]
theorem compress (x : Word) : Statement (.compress x) := by simp [Statement, Instr.bytes, Instr.isToken]
theorem decompress (x : Word) : Statement (.decompress x) := by simp [Statement, Instr.bytes, Instr.isToken]

end Sys2Proof.Laws.EncodedLength
end

