-- ==== Sys2Proof/Tests/Slice0.lean ====
section
/-! SUPPORT. Tests of single steps, their expected results taken from the spec's encodings and test vectors (95_test_vectors.md), and for each statement of the obligations a state that meets its hypotheses. -/

namespace Sys2Proof.Tests

open Sys2Proof Sys2Proof.Machine

/-! ## Well-formedness: each check refuses a term that breaks it. -/

theorem test_literal_is_no_run_flag : (Instr.lit 0xFE).wellFormed = false := by decide
theorem test_literal_is_no_escape_flag : (Instr.lit 0xFF).wellFormed = false := by decide
theorem test_largest_literal : (Instr.lit 0xFD).wellFormed = true := by decide
theorem test_compress_needs_start : (Instr.compress 0xFFFFFFFE).wellFormed = false := by decide
theorem test_decompress_needs_start : (Instr.decompress 0).wellFormed = false := by decide
theorem test_short_run_is_not_canonical : (Instr.run 2 0x41).canonical = false := by decide
theorem test_escaped_253_is_not_canonical : (Instr.esc 0xFD).canonical = false := by decide

/-! ## Decoding: words written out bit by bit from 30_encoding.md. -/

/-- R94: any byte but the two flags is a LIT. -/
theorem test_decode_lit : decode (.token [0b01000001, 0x42]) = .ok (.lit 0x41, [0x42]) := by decide

/-- R95: `11111111 vvvvvvvv`. -/
theorem test_decode_esc : decode (.token [0b11111111, 0b11111110]) = .ok (.esc 254, []) := by decide

/-- R96: `11111110 nnnnnnnn vvvvvvvv`. -/
theorem test_decode_run :
    decode (.token [0b11111110, 0b00000011, 0b00000111]) = .ok (.run 3 7, []) := by decide

/-- R91: the first byte is `N[31:24]`. -/
theorem test_decode_count :
    decode (.countField [0x01, 0x02, 0x03, 0x04]) = .ok (.blockCount 0x01020304, []) := by decide

/-- R92, with the example 3087 of 20_memory.md R63. -/
theorem test_decode_len :
    decode (.lenField [0x00, 0x00, 0x0C, 0x0F]) = .ok (.payloadLen 3087, []) := by decide

/-- R108: any value with bit 0 set (VH5). -/
theorem test_decode_compress :
    decode (.regWrite .enc 0 0x80000001) = .ok (.compress 0x80000001, []) := by decide

theorem test_decode_decompress :
    decode (.regWrite .dec 0 1) = .ok (.decompress 1, []) := by decide

/-- VH4: bit 0 clear is no command. -/
theorem test_decode_no_command : decode (.regWrite .enc 0 0xFFFFFFFE) = .error .notCommand := by decide

/-- The same words numbered as the opcode table numbers them: bit 0 is the first byte's lowest. -/
theorem test_table_words :
    decodeTableWord 8 0x41 = some (.lit 0x41) ∧ decodeTableWord 16 0xFEFF = some (.esc 0xFE) ∧
    decodeTableWord 24 0x0703FE = some (.run 3 7) ∧
    decodeTableWord 32 0x02000000 = some (.blockCount 2) ∧
    decodeTableWord 32 1 = some (.compress 1) := by decide

/-- R97: a flag in an operand's place is plain data (V47, V75). -/
theorem test_operands_are_no_flags :
    parsePayload [0xFE, 0xFF, 0xFE] = .ok [.run 255 254] ∧
    parsePayload [0xFF, 0xFF, 0xFF, 0xFE] = .ok [.esc 255, .esc 254] := by decide

/-! ## States for the tests. -/

/-- Reset, with all four capacities `k`. -/
def smallReset (k : Word) : State :=
  { State.reset with cfg := { eInCap := k, eOutCap := k, dInCap := k, dOutCap := k } }

/-- DEC BUSY in its only block, which is all of `D.IN`; read pointer `rp`, write pointer 0. -/
def decAt (inp : List Byte) (cap : Word) (t : TokState) (tokStart rp : Word) (n : Byte) : State :=
  let s := smallReset cap
  { s with
    decShell := { s.decShell with
      status := .busy, inLen := BitVec.ofNat 32 inp.length, inp := Memory.setMany [] 0 inp },
    dec := { n := BitVec.ofNat 32 inp.length, rp := rp, blkRem := 1,
             payEnd := BitVec.ofNat 32 inp.length, wp := 0, tokState := t, tokStart := tokStart,
             runLen := n },
    turns := [.dec] }

/-- ENC BUSY at the cursor `cur` of its only block, which is all of `E.IN`; `cap` bytes of output. -/
def encAt (inp : List Byte) (cap : Word) (cur : Word) (inBlk : Bool) (wp blk : Word) : State :=
  let s := smallReset cap
  { s with
    encShell := { s.encShell with
      status := .busy, inLen := BitVec.ofNat 32 inp.length, inp := Memory.setMany [] 0 inp },
    enc := { n := BitVec.ofNat 32 inp.length, nblk := 1, blk := blk, inBlk := inBlk, cur := cur,
             blkEnd := BitVec.ofNat 32 inp.length, wp := wp, hdr := 4, runCnt := 0, runVal := 0 },
    turns := [.enc] }

/-- One unit loaded with its input and its command, nothing started. -/
def loaded (u : UnitId) (inp : List Byte) (cap : Word) : State :=
  let s := smallReset cap
  { s.setShell u { s.shell u with
      inLen := BitVec.ofNat 32 inp.length, inp := Memory.setMany [] 0 inp } with
    pending := [.writeReg u 0 1] }

/-- What a result's next state has of `f`, if there is one. -/
def seen {α : Type} (f : State → α) (r : Result) : Option α := (Result.next? r).map f

/-! ## One step of each instruction. -/

/-- P1 step 5: LIT 0x42. -/
theorem test_lit_appends :
    seen (fun t => (t.decShell.out, t.dec.rp, t.dec.wp, t.dec.tokStart))
      (exec (.lit 0x42) (decAt [0x42] 64 .readFlag 0 0 0)) = some ([(0, 0x42)], 1, 1, 0) := by decide

/-- V113: no room for a LIT. -/
theorem test_lit_overflows :
    seen (fun t => (t.decShell.status, t.decShell.err, t.decShell.errPos))
      (exec (.lit 0x42) (decAt [0x42] 0 .readFlag 0 0 0)) = some (.error, .outOverflow, 0) := by decide

/-- P1 step 9: the operand of an ESC is appended as it stands. -/
theorem test_esc_appends :
    seen (fun t => (t.decShell.out, t.dec.rp, t.dec.tokState))
      (exec (.esc 0xFE) (decAt [0xFF, 0xFE] 64 .readEscValue 0 1 0)) =
      some ([(0, 0xFE)], 2, .readFlag) := by decide

/-- V92: the flag of an ESC as the payload's last byte; the fault comes at the second step. -/
theorem test_esc_truncated :
    seen (fun t => (t.decShell.status, t.decShell.err, t.decShell.errPos))
      (step { decAt [0x41, 0xFF] 64 .readEscValue 1 2 0 with turns := [.dec] }) =
      some (.error, .miToken, 1) := by decide

/-- P1 step 4: RUN 4, 0x41 at its third step. -/
theorem test_run_appends :
    seen (fun t => (t.decShell.out, t.dec.wp, t.dec.rp))
      (exec (.run 4 0x41) (decAt [0xFE, 0x04, 0x41] 64 .readRunValue 0 2 4)) =
      some ([(0, 0x41), (1, 0x41), (2, 0x41), (3, 0x41)], 4, 3) := by decide

/-- V115: a RUN of length 0 writes nothing and needs no room. -/
theorem test_run_zero :
    seen (fun t => (t.decShell.status, t.decShell.out, t.dec.rp))
      (exec (.run 0 0x41) (decAt [0xFE, 0x00, 0x41] 0x3 .readRunValue 0 2 0)) =
      some (.busy, [], 3) := by decide

/-- V80: an empty buffer has no BLOCK_COUNT. -/
theorem test_count_missing :
    seen (fun t => (t.decShell.status, t.decShell.err, t.decShell.errPos))
      (exec (.decompress 1) State.reset) = some (.error, .miCount, 0) := by decide

/-- R172's example: the count 2 is read most significant byte first. -/
theorem test_count_starts :
    seen (fun t => (t.decShell.status, t.dec.blkRem, t.dec.rp, t.dec.tokState))
      (step (loaded .dec [0, 0, 0, 2, 0, 0] 64)) = some (.busy, 2, 4, .hdr) := by decide

/-- V91: a PAYLOAD_LEN of `2^32 - 1` does not wrap. -/
theorem test_len_too_large :
    seen (fun t => (t.decShell.err, t.decShell.errPos))
      (step (decAt [0xFF, 0xFF, 0xFF, 0xFF, 0x41] 64 .hdr 0 0 0)) = some (.miPayload, 4) := by decide

/-- R173's example: `L = 3`, three bytes remain. -/
theorem test_len_fits :
    seen (fun t => (t.dec.rp, t.dec.payEnd, t.dec.tokState))
      (step (decAt [0, 0, 0, 3, 0xFE, 0x03, 0x07] 64 .hdr 0 0 0)) = some (4, 7, .readFlag) := by decide

/-- R132's example: `E.IN_LEN = 5` gives one block. -/
theorem test_compress_starts :
    seen (fun t => (t.encShell.status, t.enc.nblk, t.encShell.out, t.enc.wp))
      (step (loaded .enc [1, 2, 3, 4, 5] 64)) =
      some (.busy, 1, [(0, 0), (1, 0), (2, 0), (3, 1)], 4) := by decide

/-- VH11: no room for BLOCK_COUNT. -/
theorem test_compress_overflows :
    seen (fun t => (t.encShell.status, t.encShell.err, t.encShell.errPos))
      (exec (.compress 1) (smallReset 3)) = some (.error, .outOverflow, 0) := by decide

/-- VH15: IN_LEN above the capacity. -/
theorem test_decompress_bad_length :
    seen (fun t => (t.decShell.status, t.decShell.err, t.decShell.inLen))
      (step (loaded .dec [0, 0, 0, 0, 0, 0, 0, 0, 0] 8)) = some (.error, .badLength, 9) := by decide

/-! ## ENC's own steps (P4, V14). -/

/-- P4 step 2: a run of 4. -/
theorem test_enc_emits_run :
    seen (fun t => (t.encShell.out, t.enc.cur, t.enc.runCnt, t.enc.runVal))
      (step (encAt [0x41, 0x41, 0x41, 0x41, 0x42] 64 0 true 8 0)) =
      some ([(8, 0xFE), (9, 0x04), (10, 0x41)], 4, 4, 0x41) := by decide

/-- P4 step 6: a single 254 is escaped. -/
theorem test_enc_emits_esc :
    seen (fun t => (t.encShell.out, t.enc.cur)) (step (encAt [0xFE, 0xFF] 64 0 true 8 0)) =
      some ([(8, 0xFF), (9, 0xFE)], 1) := by decide

/-- P4 step 8: PAYLOAD_LEN 11 at offset 4. -/
theorem test_enc_closes_block :
    seen (fun t => (t.encShell.out, t.enc.blk, t.enc.inBlk)) (step (encAt [0x41] 64 1 true 19 0)) =
      some ([(4, 0), (5, 0), (6, 0), (7, 0x0B)], 1, false) := by decide

/-- R240, R24: the codes a host reads. -/
theorem test_register_reads :
    (decAt [0x42] 64 .readFlag 0 0 0).decShell.readReg 1 = 1 ∧ State.reset.decShell.readReg 1 = 0 ∧
    Cause.miToken.code = 4 ∧ Cause.badLength.code = 6 := by decide

/-- Placing a word of the opcode table: the next step after reset runs its instruction. -/
theorem test_fetch_words :
    seen (fun t => t.dec.tokState) (step (State.reset.withFetchWord 16 0xFF)) = some .readEscValue ∧
    seen (fun t => t.dec.tokState) (step (State.reset.withFetchWord 24 0xFE)) = some .readRunLen ∧
    seen (fun t => t.decShell.out) (step (State.reset.withFetchWord 8 0x41)) = some [(0, 0x41)] ∧
    seen (fun t => t.dec.blkRem) (step (State.reset.withFetchWord 32 0x02000000)) = some 2 ∧
    seen (fun t => t.encShell.status) (step (State.reset.withFetchWord 32 1)) = some .busy := by decide

/-! ## Witnesses: for each statement, states and operands that meet its hypotheses together, one for
each clause, at the edges where clauses meet. -/

theorem witness_FirstByteSelectsToken :
    (0xFF : Byte).toNat = 255 ∧ (0xFE : Byte).toNat = 254 ∧ (0xFD : Byte).toNat ≤ 253 := by decide

theorem witness_DecodeOfEncodeIsTheInstruction :
    (Instr.lit 0xFD).wellFormed = true ∧ (Instr.lit 0xFD).bytes ≠ [] ∧
    (Instr.compress 1).wellFormed = true := by decide

theorem witness_DecodedBitsAreTheEncoding :
    decode (.token [0xFE, 0x00, 0x41, 0x07]) = .ok (.run 0 0x41, [0x07]) := by decide

theorem witness_PayloadHasOneDivisionIntoTokens :
    (∀ i ∈ [Instr.lit 0x41, .esc 0x41, .run 0 9], i.isToken = true ∧ i.wellFormed = true) ∧
    parsePayload [0x41, 0xFF, 0x41, 0xFE, 0x00, 0x09] = .ok [.lit 0x41, .esc 0x41, .run 0 9] := by decide

theorem witness_StepRunsTheDecodedToken :
    let s := decAt [0x41, 0xFE, 0x03, 0x07] 64 .readRunLen 1 2 0
    s.turns = [.dec] ∧ s.decShell.status = .busy ∧ s.dec.tokState ≠ .hdr ∧
    s.dec.rp.toNat ≤ s.dec.payEnd.toNat ∧ s.dec.payEnd.toNat ≤ s.dec.n.toNat ∧
    s.dec.n.toNat ≤ s.inCap .dec ∧
    decode (.token (s.dec.consumed ++
      s.inBytes .dec s.dec.rp.toNat (s.dec.payEnd.toNat - s.dec.rp.toNat))) = .ok (.run 3 7, []) ∧
    (s.dec.tokState = .readFlag → s.dec.rp.toNat < s.dec.payEnd.toNat) := by decide

theorem witness_StepRunsTheDecodedHeader :
    let s := decAt [0, 0, 0, 1, 0x41] 64 .hdr 0 0 0
    s.turns = [.dec] ∧ s.decShell.status = .busy ∧ s.dec.tokState = .hdr ∧ 0 < s.dec.blkRem.toNat ∧
    s.dec.rp.toNat ≤ s.dec.n.toNat ∧ s.dec.n.toNat ≤ s.inCap .dec ∧
    decode (.lenField (s.inBytes .dec s.dec.rp.toNat (s.dec.n.toNat - s.dec.rp.toNat))) =
      .ok (.payloadLen 1, [0x41]) := by decide

theorem witness_StepRunsTheDecodedCommand :
    let s := { loaded .enc [7, 7] 64 with turns := [.host] }
    s.turns = [.host] ∧ s.pending = [.writeReg .enc 0 1] ∧
    decode (.regWrite .enc 0 1) = .ok (.compress 1, []) := by decide

theorem witness_StepWithoutTurnsPrefersHostThenEncThenDec :
    ((loaded .enc [7] 64).turns = [] ∧ (loaded .enc [7] 64).pending = [.writeReg .enc 0 1]) ∧
    (let s := { encAt [7] 64 0 true 8 0 with turns := [] }
     s.turns = [] ∧ s.pending = [] ∧ s.encShell.status = .busy) ∧
    (let s := { decAt [7] 64 .readFlag 0 0 0 with turns := [] }
     s.turns = [] ∧ s.pending = [] ∧ s.encShell.status ≠ .busy ∧ s.decShell.status = .busy) ∧
    (State.reset.turns = [] ∧ State.reset.pending = [] ∧ State.reset.encShell.status ≠ .busy ∧
      State.reset.decShell.status ≠ .busy) := by decide

theorem witness_FirstByteIsFetched (b : Byte) (hb : b = 0xFF ∨ b = 0xFE ∨ b = 0xFD) :
    let s := decAt [b] 64 .readFlag 0 0 0
    s.decShell.status = .busy ∧ s.dec.tokState = .readFlag ∧ s.dec.rp.toNat < s.dec.payEnd.toNat ∧
    s.dec.payEnd.toNat ≤ s.dec.n.toNat ∧ s.dec.n.toNat ≤ s.inCap .dec ∧
    s.readIn .dec s.dec.rp.toNat = b := by
  rcases hb with rfl | rfl | rfl <;> decide

/-- Room for exactly one byte, and none. -/
theorem witness_LitAppendsItsByte :
    (let s := decAt [0x41] 1 .readFlag 0 0 0
     s.decShell.status = .busy ∧ s.dec.tokState = .readFlag ∧ s.dec.rp.toNat < s.dec.payEnd.toNat ∧
     1 ≤ s.cfg.dOutCap.toNat - s.dec.wp.toNat) ∧
    (let s := decAt [0x41] 0 .readFlag 0 0 0
     s.decShell.status = .busy ∧ s.dec.tokState = .readFlag ∧ s.dec.rp.toNat < s.dec.payEnd.toNat ∧
     1 > s.cfg.dOutCap.toNat - s.dec.wp.toNat) := by decide

theorem witness_EscAppendsItsOperand :
    (let s := decAt [0xFF] 0 .readEscValue 0 1 0
     s.decShell.status = .busy ∧ s.dec.tokState = .readEscValue ∧ s.dec.rp = s.dec.payEnd) ∧
    (let s := decAt [0xFF, 0x41] 0 .readEscValue 0 1 0
     s.decShell.status = .busy ∧ s.dec.tokState = .readEscValue ∧ s.dec.rp ≠ s.dec.payEnd ∧
     1 > s.cfg.dOutCap.toNat - s.dec.wp.toNat) ∧
    (let s := decAt [0xFF, 0x41] 1 .readEscValue 0 1 0
     s.decShell.status = .busy ∧ s.dec.tokState = .readEscValue ∧ s.dec.rp ≠ s.dec.payEnd ∧
     1 ≤ s.cfg.dOutCap.toNat - s.dec.wp.toNat) := by decide

theorem witness_RunAppendsItsValueRepeated :
    (let s := decAt [0xFE] 9 .readRunLen 0 1 0
     s.decShell.status = .busy ∧ s.dec.tokState = .readRunLen ∧ s.dec.rp = s.dec.payEnd) ∧
    (let s := decAt [0xFE, 3] 9 .readRunLen 0 1 0
     s.decShell.status = .busy ∧ s.dec.tokState = .readRunLen ∧ s.dec.rp ≠ s.dec.payEnd) ∧
    (let s := decAt [0xFE, 3] 9 .readRunValue 0 2 3
     s.decShell.status = .busy ∧ s.dec.tokState = .readRunValue ∧ s.dec.rp = s.dec.payEnd) ∧
    (let s := decAt [0xFE, 3, 7] 2 .readRunValue 0 2 3
     s.decShell.status = .busy ∧ s.dec.tokState = .readRunValue ∧ s.dec.rp ≠ s.dec.payEnd ∧
     s.dec.runLen.toNat > s.cfg.dOutCap.toNat - s.dec.wp.toNat) ∧
    (let s := decAt [0xFE, 3, 7] 3 .readRunValue 0 2 3
     s.decShell.status = .busy ∧ s.dec.tokState = .readRunValue ∧ s.dec.rp ≠ s.dec.payEnd ∧
     s.dec.runLen.toNat ≤ s.cfg.dOutCap.toNat - s.dec.wp.toNat) := by decide

theorem witness_EscCompletesInTwoSteps :
    let s := decAt [0xFF, 0x41] 1 .readFlag 0 0 0
    s.decShell.status = .busy ∧ s.dec.tokState = .readFlag ∧
    s.dec.rp.toNat + 2 ≤ s.dec.payEnd.toNat ∧ 1 ≤ s.cfg.dOutCap.toNat - s.dec.wp.toNat := by decide

/-- The longest run with exactly its room, and the empty run with none. -/
theorem witness_RunCompletesInThreeSteps :
    (let s := decAt [0xFE, 0xFF, 0x00] 255 .readFlag 0 0 0
     s.decShell.status = .busy ∧ s.dec.tokState = .readFlag ∧
     s.dec.rp.toNat + 3 ≤ s.dec.payEnd.toNat ∧
     (0xFF : Byte).toNat ≤ s.cfg.dOutCap.toNat - s.dec.wp.toNat) ∧
    (let s := decAt [0xFE, 0x00, 0x41] 0 .readFlag 0 0 0
     s.decShell.status = .busy ∧ s.dec.tokState = .readFlag ∧
     s.dec.rp.toNat + 3 ≤ s.dec.payEnd.toNat ∧
     (0 : Byte).toNat ≤ s.cfg.dOutCap.toNat - s.dec.wp.toNat) := by decide

theorem witness_MissingOperandEndsInMiToken :
    (let s := decAt [0x41, 0xFE] 9 .readFlag 0 1 0
     s.decShell.status = .busy ∧ s.dec.tokState = .readFlag ∧ s.dec.payEnd.toNat ≤ s.dec.n.toNat ∧
     s.dec.n.toNat ≤ s.inCap .dec ∧ s.dec.rp.toNat + 1 = s.dec.payEnd.toNat ∧
     (s.readIn .dec s.dec.rp.toNat = 0xFF ∨ s.readIn .dec s.dec.rp.toNat = 0xFE)) ∧
    (let s := decAt [0x41, 0xFE, 0x03] 9 .readFlag 0 1 0
     s.decShell.status = .busy ∧ s.dec.tokState = .readFlag ∧ s.dec.payEnd.toNat ≤ s.dec.n.toNat ∧
     s.dec.n.toNat ≤ s.inCap .dec ∧ s.dec.rp.toNat + 2 = s.dec.payEnd.toNat ∧
     s.readIn .dec s.dec.rp.toNat = 0xFE) := by decide

theorem witness_BlockCountStartsTheParse :
    (State.reset.decShell.status ≠ .busy ∧ State.reset.dec.rp = 0 ∧ 4 > State.reset.dec.n.toNat) ∧
    (let s := State.reset.setDec { State.reset.dec with n := 4 }
     s.decShell.status ≠ .busy ∧ s.dec.rp = 0 ∧ 4 ≤ s.dec.n.toNat) := by decide

/-- Three bytes where four are due; a length of one more than the two bytes that remain; of all of them. -/
theorem witness_PayloadLenFixesTheBlocksEnd :
    (let s := decAt [0, 0, 0] 9 .hdr 0 0 0
     s.decShell.status = .busy ∧ s.dec.tokState = .hdr ∧ 0 < s.dec.blkRem.toNat ∧
     4 > s.dec.n.toNat - s.dec.rp.toNat) ∧
    (let s := decAt [0, 0, 0, 3, 7, 7] 9 .hdr 0 0 0
     s.decShell.status = .busy ∧ s.dec.tokState = .hdr ∧ 0 < s.dec.blkRem.toNat ∧
     4 ≤ s.dec.n.toNat - s.dec.rp.toNat ∧
     (3 : Word).toNat > s.dec.n.toNat - (s.dec.rp.toNat + 4)) ∧
    (let s := decAt [0, 0, 0, 2, 7, 7] 9 .hdr 0 0 0
     s.decShell.status = .busy ∧ s.dec.tokState = .hdr ∧ 0 < s.dec.blkRem.toNat ∧
     4 ≤ s.dec.n.toNat - s.dec.rp.toNat ∧
     (2 : Word).toNat ≤ s.dec.n.toNat - (s.dec.rp.toNat + 4)) := by decide

theorem witness_MissingHeaderEndsInMiLen :
    let s := decAt [0, 0, 0] 9 .hdr 0 0 0
    s.decShell.status = .busy ∧ s.dec.tokState = .hdr ∧ 0 < s.dec.blkRem.toNat ∧
    s.dec.rp.toNat ≤ s.dec.n.toNat ∧ s.dec.n.toNat ≤ s.inCap .dec ∧
    s.dec.n.toNat - s.dec.rp.toNat < 4 := by decide

theorem witness_CompressStartsAJob :
    (let s := loaded .enc [1, 2] 1
     startBit 1 = true ∧ s.encShell.status ≠ .busy ∧ s.encShell.inLen.toNat > s.cfg.eInCap.toNat) ∧
    (let s := loaded .enc [1, 2, 3] 3
     startBit 1 = true ∧ s.encShell.status ≠ .busy ∧ s.encShell.inLen.toNat ≤ s.cfg.eInCap.toNat ∧
     s.cfg.eOutCap.toNat < 4) ∧
    (let s := loaded .enc [1, 2, 3, 4] 4
     startBit 1 = true ∧ s.encShell.status ≠ .busy ∧ s.encShell.inLen.toNat ≤ s.cfg.eInCap.toNat ∧
     4 ≤ s.cfg.eOutCap.toNat) := by decide

theorem witness_DecompressStartsAJob :
    (let s := loaded .dec [0, 0, 0, 0, 0] 4
     startBit 1 = true ∧ s.decShell.status ≠ .busy ∧ s.decShell.inLen.toNat > s.cfg.dInCap.toNat) ∧
    (let s := loaded .dec [0, 0, 0] 3
     startBit 1 = true ∧ s.decShell.status ≠ .busy ∧ s.decShell.inLen.toNat ≤ s.cfg.dInCap.toNat ∧
     s.decShell.inLen.toNat < 4) ∧
    (let s := loaded .dec [0, 0, 0, 0] 4
     startBit 1 = true ∧ s.decShell.status ≠ .busy ∧ s.decShell.inLen.toNat ≤ s.cfg.dInCap.toNat ∧
     4 ≤ s.decShell.inLen.toNat) := by decide

theorem witness_DecompressRunsBlockCount :
    let s := loaded .dec [0, 0, 0, 0] 4
    startBit 0x80000001 = true ∧ s.decShell.status ≠ .busy ∧
    s.decShell.inLen.toNat ≤ s.cfg.dInCap.toNat ∧ 4 ≤ s.decShell.inLen.toNat := by decide

theorem witness_CommandToBusyUnitIsIgnored :
    (encAt [7] 64 0 true 8 0).encShell.status = .busy ∧
    (decAt [7] 64 .readFlag 0 0 0).decShell.status = .busy := by decide

theorem witness_WritesThatAreNoCommandDoNothing :
    (0xFFFFFFFE : Word).getLsbD 0 = false ∧ 6 ≤ 6 := by decide

theorem witness_EncOpensABlock :
    (let s := encAt [7] 7 0 false 4 0
     s.encShell.status = .busy ∧ s.enc.inBlk = false ∧ s.enc.blk.toNat < s.enc.nblk.toNat ∧
     4 > s.cfg.eOutCap.toNat - s.enc.wp.toNat) ∧
    (let s := encAt [7] 8 0 false 4 0
     s.encShell.status = .busy ∧ s.enc.inBlk = false ∧ s.enc.blk.toNat < s.enc.nblk.toNat ∧
     4 ≤ s.cfg.eOutCap.toNat - s.enc.wp.toNat) := by decide

theorem witness_EncCountsTheRunAtTheCursor :
    let s := encAt [7] 64 0 true 8 0
    s.enc.cur.toNat < s.enc.blkEnd.toNat := by decide

/-- A run that ends with its block has a counted length of all of it. -/
theorem isRunLen_to_the_end {s : State} {u : UnitId} {i stop : Nat} (h : i < stop)
    (hc : stop - i ≤ maxRun) (hs : ∀ j < stop - i, s.readIn u (i + j) = s.readIn u i) :
    IsRunLen s u i stop (stop - i) :=
  ⟨by omega, by omega, hs, fun q hq _ => by omega⟩

/-- The three choices, each with exactly its room and with one byte less. -/
theorem witness_EncEmitsTheChosenToken (inp : List Byte) (cap : Word) (r : Nat)
    (h : (inp, r) = ([7, 7, 7], 3) ∧ (cap = 11 ∨ cap = 10) ∨
         (inp, r) = ([0xFD, 0xFD], 2) ∧ (cap = 9 ∨ cap = 8) ∨
         (inp, r) = ([0xFE, 0xFE], 2) ∧ (cap = 10 ∨ cap = 9)) :
    let s := encAt inp cap 0 true 8 0
    s.encShell.status = .busy ∧ s.enc.inBlk = true ∧ s.enc.cur.toNat < s.enc.blkEnd.toNat ∧
    s.enc.blkEnd.toNat ≤ s.enc.n.toNat ∧ s.enc.n.toNat ≤ s.inCap .enc ∧
    IsRunLen s .enc s.enc.cur.toNat s.enc.blkEnd.toNat r := by
  rcases h with ⟨h, rfl | rfl⟩ | ⟨h, rfl | rfl⟩ | ⟨h, rfl | rfl⟩ <;> cases h <;>
    exact ⟨by decide, by decide, by decide, by decide, by decide,
      isRunLen_to_the_end (by decide) (by decide) (by decide)⟩

/-- The clauses' own premises at those states. -/
theorem witness_EncEmitsTheChosenToken_clauses :
    (3 ≤ 3 ∧ 3 ≤ (encAt [7, 7, 7] 11 0 true 8 0).cfg.eOutCap.toNat - 8 ∧
      3 > (encAt [7, 7, 7] 10 0 true 8 0).cfg.eOutCap.toNat - 8) ∧
    (2 < 3 ∧ ((encAt [0xFD, 0xFD] 9 0 true 8 0).readIn .enc 0).toNat ≤ 253 ∧
      1 ≤ (encAt [0xFD, 0xFD] 9 0 true 8 0).cfg.eOutCap.toNat - 8 ∧
      1 > (encAt [0xFD, 0xFD] 8 0 true 8 0).cfg.eOutCap.toNat - 8) ∧
    (2 < 3 ∧ 254 ≤ ((encAt [0xFE, 0xFE] 10 0 true 8 0).readIn .enc 0).toNat ∧
      2 ≤ (encAt [0xFE, 0xFE] 10 0 true 8 0).cfg.eOutCap.toNat - 8 ∧
      2 > (encAt [0xFE, 0xFE] 9 0 true 8 0).cfg.eOutCap.toNat - 8) := by decide

theorem witness_EncClosesABlock :
    let s := encAt [7] 9 1 true 9 0
    s.encShell.status = .busy ∧ s.enc.inBlk = true ∧ s.enc.cur = s.enc.blkEnd ∧
    s.enc.hdr.toNat + 4 ≤ s.enc.wp.toNat ∧ s.enc.wp.toNat ≤ s.cfg.eOutCap.toNat := by decide

theorem witness_EncCompletesTheJob :
    let s := encAt [7] 9 1 false 9 1
    s.encShell.status = .busy ∧ s.enc.inBlk = false ∧ s.enc.blk = s.enc.nblk := by decide

theorem witness_DecEndsABlock :
    let s := decAt [7] 9 .readFlag 0 1 0
    s.decShell.status = .busy ∧ s.dec.tokState = .readFlag ∧ s.dec.rp = s.dec.payEnd ∧
    s.dec.payEnd.toNat ≤ s.dec.n.toNat ∧ s.dec.n.toNat ≤ s.inCap .dec := by decide

/-- With a byte after the last block. -/
theorem witness_DecCompletesTheJob :
    let d := decAt [7] 9 .hdr 0 0 0
    let s := d.setDec { d.dec with blkRem := 0 }
    s.decShell.status = .busy ∧ s.dec.tokState = .hdr ∧ s.dec.blkRem = 0 ∧
    s.dec.rp.toNat ≤ s.dec.n.toNat ∧ s.dec.n.toNat ≤ s.inCap .dec := by decide

theorem witness_WriteInStoresOneByte :
    (((smallReset 8).shell .dec).status ≠ .busy ∧ (7 : Word).toNat < (smallReset 8).inCap .dec) ∧
    ((encAt [7] 9 0 true 8 0).shell .enc).status = .busy ∧
    (smallReset 8).inCap .dec ≤ (8 : Word).toNat := by decide

theorem witness_OnlyInLenIsWritable :
    (State.reset.shell .enc).status ≠ .busy ∧ ((encAt [7] 9 0 true 8 0).shell .enc).status = .busy ∧
    (5 = 1 ∨ 5 = 3 ∨ 5 = 4 ∨ 5 = 5) := by decide

/-- DEC in each phase and with each cause. -/
theorem witness_RegisterReadsAnswerTheirValue (p : Phase) (c : Cause) :
    let s := State.reset.setShell .dec { State.reset.decShell with status := p, err := c }
    (s.shell .dec).status = p ∧ (s.shell .dec).err = c := ⟨rfl, rfl⟩

/-- A DONE unit with a result of one byte: offset 0 is specified, offset 1 is not. -/
theorem witness_ResultBytesAreReadAsWritten :
    let s := State.reset.setShell .dec { State.reset.decShell with status := .done, outLen := 1, out := [(0, 7)] }
    ((s.shell .dec).status = .done ∧ (0 : Word).toNat < (s.shell .dec).outLen.toNat ∧
      (s.shell .dec).out.get (0 : Word).toNat = some 7) ∧
    ((s.shell .dec).status ≠ .done ∨ (s.shell .dec).outLen.toNat ≤ (1 : Word).toNat) := by decide

theorem witness_InstructionsLeaveTheRestAlone :
    (∃ t, exec (.lit 7) (decAt [7] 9 .readFlag 0 0 0) = .next t) ∧
    (∃ t, exec (.compress 1) (loaded .enc [7] 64) = .next t) := ⟨⟨_, rfl⟩, ⟨_, rfl⟩⟩

theorem witness_UnitsShareNothing :
    let a := encAt [7] 64 0 true 8 0
    let b := { a with decShell := (decAt [7] 9 .readFlag 0 0 0).decShell }
    let c := decAt [7] 64 .readFlag 0 0 0
    let d := { c with enc := (encAt [7] 64 0 true 8 0).enc }
    (a.cfg = b.cfg ∧ a.encShell = b.encShell ∧ a.enc = b.enc ∧ ∃ t, encTurn a = .next t) ∧
    (c.cfg = d.cfg ∧ c.decShell = d.decShell ∧ c.dec = d.dec ∧ ∃ t, decTurn c = .next t) :=
  ⟨⟨rfl, rfl, rfl, _, rfl⟩, rfl, rfl, rfl, _, rfl⟩

theorem witness_UnitsNeverWriteTheirInput :
    Agent.dec ≠ .host ∧ ∃ t, agentTurn .dec (decAt [7] 9 .readFlag 0 0 0) = .next t :=
  ⟨by decide, _, rfl⟩

/-- A BUSY unit at its own turn, and at a reset. -/
theorem witness_InputIsFrozenDuringAJob :
    let s := decAt [7] 9 .readFlag 0 0 0
    let r := { s with pending := [.reset], turns := [.host] }
    ((s.shell .dec).status = .busy ∧ ∃ t, step s = .next t) ∧
    ((r.shell .dec).status = .busy ∧ ∃ t, step r = .next t) := ⟨⟨rfl, _, rfl⟩, rfl, _, rfl⟩

theorem witness_NoStepChangesTheConfiguration : ∃ t, step State.reset = .next t := ⟨_, rfl⟩

/-- A reset of a BUSY unit; a job that completes; a command that is accepted. -/
theorem witness_StatusChangesAreTheNamedOnes :
    let s := decAt [7] 9 .readFlag 0 0 0
    let h := decAt [7] 9 .hdr 0 0 0
    (∃ t, step { s with pending := [.reset], turns := [.host] } = .next t ∧
      t.decShell.status = .idle ∧ s.decShell.status ≠ .idle) ∧
    (∃ t, step (h.setDec { h.dec with blkRem := 0 }) = .next t ∧
      t.decShell.status = .done ∧ h.decShell.status ≠ .done) ∧
    (∃ t, step (loaded .dec [0, 0, 0, 0] 9) = .next t ∧
      (loaded .dec [0, 0, 0, 0] 9).decShell.status ≠ .busy ∧
      t.decShell.status ≠ (loaded .dec [0, 0, 0, 0] 9).decShell.status) :=
  ⟨⟨_, rfl, rfl, by decide⟩, ⟨_, rfl, rfl, by decide⟩, ⟨_, rfl, by decide, by decide⟩⟩

/-- A BUSY DEC that satisfies the invariant. -/
theorem decAt_inv : State.Inv { decAt [7] 9 .readFlag 0 0 0 with turns := [] } where
  encShellInv := by constructor <;> first | decide | simp [Memory.within, Memory.listedBelow, decAt, smallReset, State.reset, Shell.afterReset]
  decShellInv := by constructor <;> first | decide | simp [Memory.within, Memory.listedBelow, Memory.setMany, Memory.set, decAt, smallReset, State.reset, Shell.afterReset, Config.inCap]
  encBusy := fun h => absurd h (by decide)
  decBusy := fun _ => by constructor <;> first | decide | simp [Memory.listedBelow, decAt, smallReset, State.reset, Config.outCap]


/-- A BUSY ENC, its only block still to be opened. -/
def encStarted : State :=
  let s := encAt [7] 64 0 false 4 0
  { s with encShell := { s.encShell with out := [(0, 0), (1, 0), (2, 0), (3, 1)] }, turns := [] }

theorem encStarted_inv : encStarted.Inv where
  encShellInv := by constructor <;> first | decide | simp [Memory.within, Memory.listedBelow, Memory.setMany, Memory.set, encStarted, encAt, smallReset, State.reset, Shell.afterReset, Config.inCap, Config.outCap]
  decShellInv := by constructor <;> first | decide | simp [Memory.within, Memory.listedBelow, encStarted, encAt, smallReset, State.reset, Shell.afterReset]
  encBusy := fun _ => by constructor <;> decide
  decBusy := fun h => absurd h (by decide)

theorem loaded_inv (u : UnitId) : (loaded u [7] 64).Inv where
  encShellInv := by cases u <;> constructor <;> first | decide | simp [Memory.within, Memory.listedBelow, Memory.setMany, Memory.set, loaded, smallReset, State.setShell, State.shell, State.reset, Shell.afterReset, Config.inCap]
  decShellInv := by cases u <;> constructor <;> first | decide | simp [Memory.within, Memory.listedBelow, Memory.setMany, Memory.set, loaded, smallReset, State.setShell, State.shell, State.reset, Shell.afterReset, Config.inCap]
  encBusy := fun h => absurd h (by cases u <;> decide)
  decBusy := fun h => absurd h (by cases u <;> decide)

theorem witness_EveryStepKeepsTheInvariant :
    State.Inv { decAt [7] 9 .readFlag 0 0 0 with turns := [] } ∧
    (∃ t, step { decAt [7] 9 .readFlag 0 0 0 with turns := [] } = .next t) ∧
    encStarted.Inv ∧ ∃ t, step encStarted = .next t :=
  ⟨decAt_inv, ⟨_, rfl⟩, encStarted_inv, _, rfl⟩

theorem witness_NoStepStopsUnderTheInvariant : (loaded .enc [7] 64).Inv := loaded_inv .enc

theorem witness_CompressJobsEnd :
    encStarted.Inv ∧ encStarted.turns = [] ∧ encStarted.pending = [] ∧
    encStarted.encShell.status = .busy := ⟨encStarted_inv, by decide⟩

theorem witness_DecompressJobsEnd :
    let s := { decAt [7] 9 .readFlag 0 0 0 with turns := [] }
    s.Inv ∧ s.turns = [] ∧ s.pending = [] ∧ s.encShell.status ≠ .busy ∧ s.decShell.status = .busy :=
  ⟨decAt_inv, by decide⟩

theorem witness_CompressedSizeIsBounded : ([7, 7] : List Byte) ≠ [] := by decide

/-- V43. -/
theorem witness_DecodedSizeIsBounded :
    decompress [0, 0, 0, 1, 0, 0, 0, 3, 0xFE, 3, 7] = .ok [7, 7, 7] := by decide

/-- V76: two bytes after a block. -/
theorem witness_TrailingBytesAreIgnored :
    decompress [0, 0, 0, 1, 0, 0, 0, 3, 0xFE, 3, 0x41] = .ok [0x41, 0x41, 0x41] ∧
    decompress [0, 0, 0, 1, 0, 0, 0, 3, 0xFE, 3, 0x41, 0xDE, 0xAD] = .ok [0x41, 0x41, 0x41] := by decide

theorem witness_DecompressUndoesCompress : ([7, 7, 7] : List Byte).length < 2 ^ 32 := by decide

theorem witness_CompressJobComputesCompress :
    let s := loaded .enc [7] 64
    s.Inv ∧ s.turns = [] ∧ s.pending = [.writeReg .enc 0 1] ∧ startBit 1 = true ∧
    s.encShell.status ≠ .busy ∧ s.encShell.inLen.toNat = [(7 : Byte)].length ∧
    [(7 : Byte)].length ≤ s.inCap .enc ∧ s.inBytes .enc 0 1 = [7] := ⟨loaded_inv .enc, by decide⟩

theorem witness_DecompressJobComputesDecompress :
    let s := loaded .dec [7] 64
    s.Inv ∧ s.turns = [] ∧ s.pending = [.writeReg .dec 0 1] ∧ startBit 1 = true ∧
    s.encShell.status ≠ .busy ∧ s.decShell.status ≠ .busy ∧
    s.decShell.inLen.toNat = [(7 : Byte)].length ∧
    [(7 : Byte)].length ≤ s.inCap .dec ∧ s.inBytes .dec 0 1 = [7] := ⟨loaded_inv .dec, by decide⟩

/-! ## The codec on the spec's examples. -/

/-- X6. -/
theorem test_escapes_and_runs :
    encBlock [0xFE] = [0xFF, 0xFE] ∧ encBlock [0xFF] = [0xFF, 0xFF] ∧
    encBlock [0xFE, 0xFE, 0xFE] = [0xFE, 0x03, 0xFE] ∧ encBlock [0x07, 0x07] = [0x07, 0x07] := by decide

/-- V118 and V117: which of two defects is met first. -/
theorem test_first_fault_wins :
    decompressResult 1 [0, 0, 0, 1, 0, 0, 0, 3, 0x41, 0x42, 0xFF] = .fails .outOverflow 9 ∧
    decompressResult 2 [0, 0, 0, 1, 0, 0, 0, 3, 0x41, 0x42, 0xFF] = .fails .miToken 10 := by decide

end Sys2Proof.Tests
end

section
/-! PROOFS. What a unit's own operations leave alone: the frame of each shared operation (10_state.md R21, R25, R29). -/

namespace Sys2Proof.Machine

/-- From `s` to `t` nothing changed but unit `u`, and of `u` neither `U.IN` nor IN_LEN did. -/
structure State.Frames (u : UnitId) (s t : State) : Prop where
  rest : State.sameBut u s t
  inp : (t.shell u).inp = (s.shell u).inp
  inLen : (t.shell u).inLen = (s.shell u).inLen
  resets : (t.shell u).resets = (s.shell u).resets

theorem State.Frames.refl (u : UnitId) (s : State) : State.Frames u s s :=
  ⟨State.sameBut_refl u s, rfl, rfl, rfl⟩

theorem State.Frames.trans {u : UnitId} {a b c : State}
    (h : State.Frames u a b) (k : State.Frames u b c) : State.Frames u a c :=
  ⟨State.sameBut_trans h.rest k.rest, k.inp.trans h.inp, k.inLen.trans h.inLen,
    k.resets.trans h.resets⟩

theorem State.Frames.cfg {u : UnitId} {s t : State} (h : State.Frames u s t) : t.cfg = s.cfg := by
  cases u <;> exact h.rest.2.2.1

/-- A unit other than the one that moved keeps its registers and buffers. -/
theorem State.sameBut_shell {u v : UnitId} {s t : State} (h : State.sameBut u s t) (hv : v ≠ u) :
    t.shell v = s.shell v := by
  cases u <;> cases v
  · exact absurd rfl hv
  · exact h.1
  · exact h.1
  · exact absurd rfl hv

/-- The input of every unit stays, of the one that moved and of the other. -/
theorem State.Frames.input {u : UnitId} {s t : State} (h : State.Frames u s t) (v : UnitId) :
    (t.shell v).inp = (s.shell v).inp ∧ (t.shell v).inLen = (s.shell v).inLen ∧
    (t.shell v).resets = (s.shell v).resets := by
  by_cases hv : v = u
  · subst hv
    exact ⟨h.inp, h.inLen, h.resets⟩
  · rw [State.sameBut_shell h.rest hv]
    exact ⟨rfl, rfl, rfl⟩

section
variable (s : State) (u : UnitId)

theorem State.raise_frames (c : Cause) (pos : Word) : State.Frames u s (s.raise u c pos) :=
  ⟨State.raise_sameBut s u c pos, by simp [State.raise_shell], by simp [State.raise_shell],
    by simp [State.raise_shell]⟩

theorem State.accept_frames : State.Frames u s (s.accept u) :=
  ⟨State.accept_sameBut s u, by simp [State.accept_shell], by simp [State.accept_shell],
    by simp [State.accept_shell]⟩

theorem State.complete_frames : State.Frames u s (s.complete u) :=
  ⟨State.complete_sameBut s u, by simp [State.complete_shell], by simp [State.complete_shell],
    by simp [State.complete_shell]⟩

theorem State.setBusy_frames : State.Frames u s (s.setBusy u) :=
  ⟨State.sameBut_setShell s u _, by simp [State.setBusy], by simp [State.setBusy],
    by simp [State.setBusy]⟩

theorem State.writeOut_frames (a : Nat) (bs : List Byte) : State.Frames u s (s.writeOut u a bs) :=
  ⟨State.sameBut_setShell s u _, by simp [State.writeOut], by simp [State.writeOut],
    by simp [State.writeOut]⟩

theorem State.put_frames (bs : List Byte) : State.Frames u s (s.put u bs) :=
  ⟨State.put_sameBut s u bs, by simp [State.put_shell], by simp [State.put_shell],
    by simp [State.put_shell]⟩

theorem State.setEnc_frames (e : EncWork) : State.Frames .enc s (s.setEnc e) :=
  ⟨State.sameBut_setEnc s e, rfl, rfl, rfl⟩

theorem State.setDec_frames (d : DecWork) : State.Frames .dec s (s.setDec d) :=
  ⟨State.sameBut_setDec s d, rfl, rfl, rfl⟩

end

/-! STATUS after each shared operation. -/

section
variable (s : State) (u : UnitId)

@[simp] theorem State.raise_status (c : Cause) (pos : Word) :
    ((s.raise u c pos).shell u).status = .error := by simp [State.raise_shell]

@[simp] theorem State.complete_status : ((s.complete u).shell u).status = .done := by
  simp [State.complete_shell]

@[simp] theorem State.setBusy_status : ((s.setBusy u).shell u).status = .busy := by
  simp [State.setBusy]

@[simp] theorem State.put_status (bs : List Byte) :
    ((s.put u bs).shell u).status = (s.shell u).status := by simp [State.put_shell]

end

end Sys2Proof.Machine
end

section
/-! PROOFS. What a unit can do: the rules of the reference machines (40_encoder.md section 2, 41_decoder.md section 2), each with the part of its guard that keeps the pointers in place. -/

namespace Sys2Proof.Machine

/-! DEC's rules. -/

/-- The states DEC's rules lead to from `s` (41_decoder.md R173 to R180). -/
inductive DecRule (s : State) : State → Prop
  /-- A fault. -/
  | fail (c : Cause) (pos : Word) (hc : c ≠ .noFault) : DecRule s (s.raise .dec c pos)
  /-- A flag byte is consumed (R175). -/
  | fetchFlag (next : TokState) (hst : s.dec.tokState = .readFlag) (hend : s.dec.rp ≠ s.dec.payEnd)
      (hnext : next = .readEscValue ∨ next = .readRunLen) : DecRule s (s.fetchFlag next)
  /-- A run length is consumed (R178). -/
  | takeRunLen (n : Byte) (hst : s.dec.tokState = .readRunLen) (hend : s.dec.rp ≠ s.dec.payEnd) :
      DecRule s (s.takeRunLen n)
  /-- The last byte of a token is consumed and the token's bytes are appended (R176 to R178). -/
  | append (start : Word) (bs : List Byte) (hst : s.dec.tokState ≠ .hdr)
      (hend : s.dec.rp ≠ s.dec.payEnd) (hroom : bs.length ≤ s.room .dec) :
      DecRule s (((s.setDec { s.dec with tokStart := start }).put .dec bs).nextToken)
  /-- A PAYLOAD_LEN that fits is consumed (R173, R174). -/
  | openPayload (L : Word) (hblk : 0 < s.dec.blkRem.toNat)
      (hlen : lenBytes ≤ s.dec.n.toNat - s.dec.rp.toNat)
      (hfit : L.toNat ≤ s.dec.n.toNat - (s.dec.rp + 4).toNat) :
      DecRule s (s.setDec
        { s.dec with rp := s.dec.rp + 4, payEnd := s.dec.rp + 4 + L, tokState := .readFlag })
  /-- The end of a block (R179). -/
  | endBlock : DecRule s s.endBlock
  /-- The end of the job (R180). -/
  | complete : DecRule s (s.complete .dec)

theorem State.atFirstByte_iff (s : State) :
    s.atFirstByte = true ↔
      s.decShell.status = .busy ∧ s.dec.tokState = .readFlag ∧
        s.dec.rp.toNat < s.dec.payEnd.toNat := by
  simp [State.atFirstByte, State.busy, and_assoc]

theorem State.inTokState_iff (s : State) (k : TokState) :
    s.inTokState k = true ↔ s.decShell.status = .busy ∧ s.dec.tokState = k := by
  simp [State.inTokState, State.busy]

theorem State.atPayloadEnd_iff (s : State) : s.atPayloadEnd = true ↔ s.dec.rp = s.dec.payEnd := by
  simp [State.atPayloadEnd]

theorem State.atHeader_iff (s : State) :
    s.atHeader = true ↔
      s.decShell.status = .busy ∧ s.dec.tokState = .hdr ∧ 0 < s.dec.blkRem.toNat := by
  simp [State.atHeader, State.busy, and_assoc]

/-- Before the payload's end DEC is not at it. -/
theorem rp_ne_payEnd_of_lt {s : State} (h : s.dec.rp.toNat < s.dec.payEnd.toNat) :
    s.dec.rp ≠ s.dec.payEnd := fun he => by simp [he] at h

/-- Appending a token's bytes is one of two rules: OUT_OVERFLOW, or the append itself. -/
theorem emit_nextToken_rule {s : State} {start pos : Word} {bs : List Byte}
    (hst : s.dec.tokState ≠ .hdr) (hend : s.dec.rp ≠ s.dec.payEnd) :
    DecRule s ((s.setDec { s.dec with tokStart := start }).emit .dec pos bs State.nextToken) := by
  obtain ⟨_, h⟩ | ⟨hroom, h⟩ :=
    State.emit_cases (s.setDec { s.dec with tokStart := start }) .dec pos bs State.nextToken
  · rw [h]; exact .fail .outOverflow pos (by decide)
  · rw [h]; exact .append start bs hst hend hroom

theorem execLit_rule {v : Byte} {s t : State} (h : execLit v s = .next t) :
    s.decShell.status = .busy ∧ DecRule s t := by
  unfold execLit at h
  split at h
  next hat =>
    obtain ⟨hb, hst, hlt⟩ := s.atFirstByte_iff.mp hat
    cases h
    exact ⟨hb, emit_nextToken_rule (by simp [hst]) (rp_ne_payEnd_of_lt hlt)⟩
  next => cases h

theorem execEsc_rule {v : Byte} {s t : State} (h : execEsc v s = .next t) :
    s.decShell.status = .busy ∧ DecRule s t := by
  unfold execEsc at h
  split at h
  next hat =>
    obtain ⟨hb, hst, hlt⟩ := s.atFirstByte_iff.mp hat
    cases h
    exact ⟨hb, .fetchFlag _ hst (rp_ne_payEnd_of_lt hlt) (.inl rfl)⟩
  next =>
    split at h
    next hin =>
      obtain ⟨hb, hst⟩ := (s.inTokState_iff _).mp hin
      refine ⟨hb, ?_⟩
      split at h <;> cases h
      next => exact .fail .miToken _ (by decide)
      next hend =>
        exact emit_nextToken_rule (start := s.dec.tokStart) (by simp [hst])
          (mt s.atPayloadEnd_iff.mpr hend)
    next => cases h

theorem execRun_rule {n v : Byte} {s t : State} (h : execRun n v s = .next t) :
    s.decShell.status = .busy ∧ DecRule s t := by
  unfold execRun at h
  split at h
  next hat =>
    obtain ⟨hb, hst, hlt⟩ := s.atFirstByte_iff.mp hat
    cases h
    exact ⟨hb, .fetchFlag _ hst (rp_ne_payEnd_of_lt hlt) (.inr rfl)⟩
  next =>
    split at h
    next hin =>
      obtain ⟨hb, hst⟩ := (s.inTokState_iff _).mp hin
      refine ⟨hb, ?_⟩
      split at h <;> cases h
      next => exact .fail .miToken _ (by decide)
      next hend => exact .takeRunLen n hst (mt s.atPayloadEnd_iff.mpr hend)
    next =>
      split at h
      next hin =>
        obtain ⟨hb, hst⟩ := (s.inTokState_iff _).mp hin
        refine ⟨hb, ?_⟩
        split at h <;> cases h
        next => exact .fail .miToken _ (by decide)
        next hend =>
          exact emit_nextToken_rule (start := s.dec.tokStart) (by simp [hst])
            (mt s.atPayloadEnd_iff.mpr hend)
      next => cases h

theorem execPayloadLen_rule {L : Word} {s t : State} (h : execPayloadLen L s = .next t) :
    s.decShell.status = .busy ∧ DecRule s t := by
  unfold execPayloadLen at h
  split at h
  next hat =>
    obtain ⟨hb, hst, hblk⟩ := s.atHeader_iff.mp hat
    refine ⟨hb, ?_⟩
    split at h
    next =>
      cases h
      exact .fail .miLen _ (by decide)
    next hlen =>
      dsimp only at h
      split at h <;> cases h
      next => exact .fail .miPayload _ (by decide)
      next hfit => exact .openPayload L hblk (not_lt.mp hlen) (not_lt.mp hfit)
  next => cases h

/-- The instructions that DEC meets at its own turns: the tokens and the block header. -/
inductive ParsedByDec : Instr → Prop
  | lit (v : Byte) : ParsedByDec (.lit v)
  | esc (v : Byte) : ParsedByDec (.esc v)
  | run (n v : Byte) : ParsedByDec (.run n v)
  | payloadLen (L : Word) : ParsedByDec (.payloadLen L)

theorem ParsedByDec.exec_rule {i : Instr} (hi : ParsedByDec i) {s t : State} (h : exec i s = .next t) :
    s.decShell.status = .busy ∧ DecRule s t := by
  cases hi with
  | lit v => exact execLit_rule h
  | esc v => exact execEsc_rule h
  | run n v => exact execRun_rule h
  | payloadLen L => exact execPayloadLen_rule h

theorem decode_token_parsed {bs rest : List Byte} {i : Instr}
    (h : decode (.token bs) = .ok (i, rest)) : ParsedByDec i := by
  obtain ⟨v, rfl, _⟩ | ⟨v, rfl, _⟩ | ⟨n, v, rfl, _⟩ := decodeToken_cases h
  · exact .lit v
  · exact .esc v
  · exact .run n v

theorem decode_lenField_parsed {bs rest : List Byte} {i : Instr}
    (h : decode (.lenField bs) = .ok (i, rest)) : ParsedByDec i := by
  match bs with
  | [] | [_] | [_, _] | [_, _, _] => cases h
  | b0 :: b1 :: b2 :: b3 :: tail =>
    cases h
    exact .payloadLen _

/-- Only a RUN with its length byte and nothing more lacks just its value. -/
theorem decodeToken_runValueMissing {bs : List Byte} {n : Byte}
    (h : decodeToken bs = .error (.runValueMissing n)) : bs = [flagRun, n] := by
  unfold decodeToken at h
  split at h
  next => cases h
  next f tail =>
    split at h
    next => split at h <;> cases h
    next =>
      split at h
      next hf => split at h <;> cases h; rw [hf]
      next => cases h

/-- At the payload's end no operand is left: the token in progress has its consumed bytes only. -/
theorem State.tokenBytes_at_end {s : State} (h : s.dec.rp = s.dec.payEnd) :
    s.tokenBytes = s.dec.consumed := by
  simp [State.tokenBytes, h, State.inBytes]

theorem truncatedStep_rule {s : State} {e : Reject} (h : decode (.token s.tokenBytes) = .error e)
    (hflag : s.dec.tokState = .readFlag → s.dec.rp ≠ s.dec.payEnd) :
    DecRule s (truncatedStep e s) := by
  unfold truncatedStep
  split
  next hst => exact .fetchFlag _ hst (hflag hst) (.inl rfl)
  next hst => exact .fetchFlag _ hst (hflag hst) (.inr rfl)
  next hst => exact .fetchFlag _ hst (hflag hst) (.inr rfl)
  next n hst =>
    refine .takeRunLen n hst fun hend => ?_
    have hbs := decodeToken_runValueMissing h
    simp [State.tokenBytes_at_end hend, DecWork.consumed, hst] at hbs
  next => exact .fail .miToken _ (by decide)

theorem tokenStep_rule {s t : State} (hflag : s.dec.tokState = .readFlag → s.dec.rp ≠ s.dec.payEnd)
    (h : tokenStep s = .next t) : DecRule s t := by
  unfold tokenStep at h
  split at h
  next hd => exact ((decode_token_parsed hd).exec_rule h).2
  next hd =>
    cases h
    exact truncatedStep_rule hd hflag

theorem headerStep_rule {s t : State} (h : headerStep s = .next t) : DecRule s t := by
  unfold headerStep at h
  split at h
  next hd => exact ((decode_lenField_parsed hd).exec_rule h).2
  next =>
    cases h
    exact .fail .miLen _ (by decide)

/-- A step of DEC is one of its rules. -/
theorem decStep_rule {s t : State} (h : decStep s = .next t) : DecRule s t := by
  unfold decStep at h
  split at h
  next => cases h
  next =>
    split at h
    next =>
      split at h
      next => cases h; exact .complete
      next => exact headerStep_rule h
    next hst =>
      split at h
      next => cases h
      next =>
        split at h
        next => cases h; exact .endBlock
        next hend => exact tokenStep_rule (fun _ => mt s.atPayloadEnd_iff.mpr hend) h
    all_goals
      next hst =>
        split at h
        next => cases h
        next => exact tokenStep_rule (fun hf => by simp [hst] at hf) h

theorem decTurn_rule {s t : State} (h : decTurn s = .next t) :
    t = s ∨ s.decShell.status = .busy ∧ DecRule s t := by
  unfold decTurn at h
  split at h
  next hb => exact .inr ⟨(s.busy_iff .dec).mp hb, decStep_rule h⟩
  next => cases h; exact .inl rfl

theorem DecRule.frames {s t : State} (h : DecRule s t) : State.Frames .dec s t := by
  cases h with
  | fail c pos => exact State.raise_frames s .dec c pos
  | fetchFlag => exact State.setDec_frames s _
  | takeRunLen => exact State.setDec_frames s _
  | append start bs =>
    exact (State.setDec_frames s _).trans
      ((State.put_frames _ .dec bs).trans (State.setDec_frames _ _))
  | openPayload => exact State.setDec_frames s _
  | endBlock => exact State.setDec_frames s _
  | complete => exact State.complete_frames s .dec

/-- DEC's rules end a job or leave STATUS as it is. -/
theorem DecRule.status {s t : State} (h : DecRule s t) :
    t.decShell.status = s.decShell.status ∨ t.decShell.status = .done ∨
      t.decShell.status = .error := by
  cases h with
  | fail c pos => exact .inr (.inr (State.raise_status s .dec c pos))
  | complete => exact .inr (.inl (State.complete_status s .dec))
  | append start bs => exact .inl (State.put_status _ .dec bs)
  | fetchFlag | takeRunLen | openPayload | endBlock => exact .inl rfl

/-! ENC's rules. -/

/-- The states ENC's rules lead to from `s` (40_encoder.md R134 to R144). -/
inductive EncRule (s : State) : State → Prop
  /-- OUT_OVERFLOW, ENC's one fault inside a job (R144). -/
  | overflow (pos : Word) : EncRule s (s.raise .enc .outOverflow pos)
  /-- A block is opened (R135). -/
  | openBlock (hin : s.enc.inBlk = false) (hblk : s.enc.blk.toNat < s.enc.nblk.toNat)
      (hroom : lenBytes ≤ s.room .enc) :
      EncRule s (s.setEnc { s.enc with
        hdr := s.enc.wp, wp := s.enc.wp + 4, inBlk := true,
        blkEnd := s.enc.cur + BitVec.ofNat 32 (min blockSize (s.enc.n.toNat - s.enc.cur.toNat)) })
  /-- A token is written and the cursor moves over what it represents (R136 to R141). -/
  | emit (bs : List Byte) (hin : s.enc.inBlk = true) (hcur : s.enc.cur.toNat < s.enc.blkEnd.toNat)
      (hroom : bs.length ≤ s.room .enc) : EncRule s (s.scan.put .enc bs).advance
  /-- The block is closed (R142). -/
  | closeBlock (hin : s.enc.inBlk = true) (hcur : s.enc.cur = s.enc.blkEnd) : EncRule s s.closeBlock
  /-- The end of the job (R143). -/
  | complete (hin : s.enc.inBlk = false) : EncRule s (s.complete .enc)

theorem emitToken_rule {s : State} (hin : s.enc.inBlk = true)
    (hcur : s.enc.cur.toNat < s.enc.blkEnd.toNat) : EncRule s s.emitToken := by
  unfold State.emitToken
  obtain ⟨_, h⟩ | ⟨hroom, h⟩ := State.emit_cases s.scan .enc s.scan.enc.cur
    (chooseToken s.scan.enc.runCnt s.scan.enc.runVal).bytes State.advance
  · simp only [h]; exact .overflow s.enc.cur
  · simp only [h]; exact .emit _ hin hcur hroom

theorem openBlock_rule {s : State} (hin : s.enc.inBlk = false)
    (hblk : s.enc.blk.toNat < s.enc.nblk.toNat) : EncRule s s.openBlock := by
  unfold State.openBlock
  split
  next => exact .overflow _
  next hroom => exact .openBlock hin hblk (not_lt.mp hroom)

/-- A step of ENC is one of its rules. -/
theorem encStep_rule {s t : State} (h : encStep s = .next t) : EncRule s t := by
  unfold encStep at h
  split at h
  next hin =>
    split at h
    next hcur => split at h <;> cases h; exact emitToken_rule hin hcur
    next =>
      split at h
      next hcur => split at h <;> cases h; exact .closeBlock hin hcur
      next => cases h
  next hin =>
    have hin : s.enc.inBlk = false := by simpa using hin
    split at h
    next hblk => cases h; exact openBlock_rule hin hblk
    next => split at h <;> cases h; exact .complete hin

theorem encTurn_rule {s t : State} (h : encTurn s = .next t) :
    t = s ∨ s.encShell.status = .busy ∧ EncRule s t := by
  unfold encTurn at h
  split at h
  next hb => exact .inr ⟨(s.busy_iff .enc).mp hb, encStep_rule h⟩
  next => cases h; exact .inl rfl

theorem EncRule.frames {s t : State} (h : EncRule s t) : State.Frames .enc s t := by
  cases h with
  | overflow pos => exact State.raise_frames s .enc _ pos
  | openBlock => exact State.setEnc_frames s _
  | emit bs =>
    exact (State.setEnc_frames s _).trans
      ((State.put_frames _ .enc bs).trans (State.setEnc_frames _ _))
  | closeBlock => exact (State.writeOut_frames s .enc _ _).trans (State.setEnc_frames _ _)
  | complete => exact State.complete_frames s .enc

/-- ENC's rules end a job or leave STATUS as it is. -/
theorem EncRule.status {s t : State} (h : EncRule s t) :
    t.encShell.status = s.encShell.status ∨ t.encShell.status = .done ∨
      t.encShell.status = .error := by
  cases h with
  | overflow pos => exact .inr (.inr (State.raise_status s .enc _ pos))
  | complete => exact .inr (.inl (State.complete_status s .enc))
  | emit bs => exact .inl (State.put_status s.scan .enc bs)
  | openBlock | closeBlock => exact .inl rfl

/-! The commands' rules. -/

/-- BLOCK_COUNT is MI_COUNT or the parse's start (41_decoder.md R172). -/
theorem execBlockCount_cases {N : Word} {s t : State} (h : execBlockCount N s = .next t) :
    t = s.raise .dec .miCount 0 ∨
    (countBytes ≤ s.dec.n.toNat - s.dec.rp.toNat ∧
      t = (s.setDec { s.dec with blkRem := N, rp := 4, tokState := .hdr }).setBusy .dec) := by
  unfold execBlockCount at h
  split at h
  next =>
    split at h <;> cases h
    next => exact .inl rfl
    next hn => exact .inr ⟨not_lt.mp hn, rfl⟩
  next => cases h

/-- What COMPRESS leads to: nothing, a fault of ENC, or a job (42_host_interface.md R211, R213). -/
inductive CompressRule (s : State) : State → Prop
  | ignored : CompressRule s s
  | fail (c : Cause) (pos : Word) (hc : c ≠ .noFault) (hm : c.malformed = false)
      (hidle : s.encShell.status ≠ .busy) : CompressRule s (s.raise .enc c pos)
  | start (hidle : s.encShell.status ≠ .busy) (hn : s.encShell.inLen.toNat ≤ s.inCap .enc)
      (hroom : countBytes ≤ s.outCap .enc) :
      CompressRule s (((s.accept .enc).encStart.put .enc
        (Instr.blockCount (s.accept .enc).encStart.enc.nblk).bytes).setBusy .enc)

theorem execCompress_rule {x : Word} {s t : State} (h : execCompress x s = .next t) :
    CompressRule s t := by
  unfold execCompress at h
  split at h
  next => cases h; exact .ignored
  next hgo =>
    have hidle : s.encShell.status ≠ .busy := fun hb => by simp [State.busy, hb] at hgo
    dsimp only at h
    split at h <;> cases h
    next => exact .fail .badLength 0 (by decide) rfl hidle
    next hn =>
      obtain ⟨_, h⟩ | ⟨hroom, h⟩ := State.emit_cases (s.accept .enc).encStart .enc
        (s.accept .enc).encStart.enc.cur (Instr.blockCount (s.accept .enc).encStart.enc.nblk).bytes
        (fun r => r.setBusy .enc)
      · rw [h]; exact .fail .outOverflow 0 (by decide) rfl hidle
      · rw [h]; exact .start hidle (not_lt.mp hn) hroom

theorem CompressRule.frames {s t : State} (h : CompressRule s t) : State.Frames .enc s t := by
  cases h with
  | ignored => exact .refl .enc s
  | fail c pos => exact State.raise_frames s .enc c pos
  | start =>
    exact (State.accept_frames s .enc).trans ((State.setEnc_frames _ _).trans
      ((State.put_frames _ .enc _).trans (State.setBusy_frames _ .enc)))

/-- What DECOMPRESS leads to: nothing, a fault of DEC, or a job (42_host_interface.md R212, R213). -/
inductive DecompressRule (s : State) : State → Prop
  | ignored : DecompressRule s s
  | fail (c : Cause) (pos : Word) (hc : c ≠ .noFault) (hidle : s.decShell.status ≠ .busy) :
      DecompressRule s (s.raise .dec c pos)
  | start (N : Word) (hidle : s.decShell.status ≠ .busy) (hn : s.decShell.inLen.toNat ≤ s.inCap .dec)
      (hcount : countBytes ≤ s.decShell.inLen.toNat) :
      DecompressRule s (((s.accept .dec).decStart.setDec
        { (s.accept .dec).decStart.dec with blkRem := N, rp := 4, tokState := .hdr }).setBusy .dec)

theorem execDecompress_rule {x : Word} {s t : State} (h : execDecompress x s = .next t) :
    DecompressRule s t := by
  unfold execDecompress at h
  split at h
  next => cases h; exact .ignored
  next hgo =>
    have hidle : s.decShell.status ≠ .busy := fun hb => by simp [State.busy, hb] at hgo
    dsimp only at h
    split at h
    next => cases h; exact .fail .badLength 0 (by decide) hidle
    next hn =>
      split at h
      next => cases h; exact .fail .miCount 0 (by decide) hidle
      next =>
        obtain rfl | ⟨hcount, rfl⟩ := execBlockCount_cases h
        · exact .fail .miCount 0 (by decide) hidle
        · exact .start _ hidle (not_lt.mp hn) hcount

theorem DecompressRule.frames {s t : State} (h : DecompressRule s t) : State.Frames .dec s t := by
  cases h with
  | ignored => exact .refl .dec s
  | fail c pos => exact State.raise_frames s .dec c pos
  | start =>
    exact (State.accept_frames s .dec).trans ((State.setDec_frames _ _).trans
      ((State.setDec_frames _ _).trans (State.setBusy_frames _ .dec)))

/-- Every instruction stays inside its unit and leaves the unit's input alone. -/
theorem exec_frames {i : Instr} {s t : State} (h : exec i s = .next t) :
    State.Frames (unitOf i) s t := by
  cases i with
  | lit v => exact ((ParsedByDec.lit v).exec_rule h).2.frames
  | esc v => exact ((ParsedByDec.esc v).exec_rule h).2.frames
  | run n v => exact ((ParsedByDec.run n v).exec_rule h).2.frames
  | payloadLen L => exact ((ParsedByDec.payloadLen L).exec_rule h).2.frames
  | blockCount N =>
    obtain rfl | ⟨_, rfl⟩ := execBlockCount_cases h
    · exact State.raise_frames s .dec _ _
    · exact (State.setDec_frames s _).trans (State.setBusy_frames _ .dec)
  | compress x => exact (execCompress_rule h).frames
  | decompress x => exact (execDecompress_rule h).frames

theorem encTurn_frames {s t : State} (h : encTurn s = .next t) : State.Frames .enc s t := by
  obtain rfl | ⟨_, hr⟩ := encTurn_rule h
  · exact .refl .enc t
  · exact hr.frames

theorem decTurn_frames {s t : State} (h : decTurn s = .next t) : State.Frames .dec s t := by
  obtain rfl | ⟨_, hr⟩ := decTurn_rule h
  · exact .refl .dec t
  · exact hr.frames

end Sys2Proof.Machine
end

section
/-! PROOFS. A unit reads its own state and the capacities alone (10_state.md R21): its step commutes with a change of everything else. -/

namespace Sys2Proof.Machine

/-- `s` with all but unit `u` and the capacities taken from `r`. -/
def State.withRest : UnitId → State → State → State
  | .enc, s, r => { r with cfg := s.cfg, encShell := s.encShell, enc := s.enc }
  | .dec, s, r => { r with cfg := s.cfg, decShell := s.decShell, dec := s.dec }

/-- Act on the next state, if there is one. -/
def Result.mapNext (f : State → State) : Result → Result
  | .next t => .next (f t)
  | .fault e => .fault e
  | .refused e => .refused e

@[simp] theorem Result.mapNext_next (f : State → State) (t : State) :
    Result.mapNext f (.next t) = .next (f t) := rfl

@[simp] theorem Result.mapNext_fault (f : State → State) (e : Fault) :
    Result.mapNext f (.fault e) = .fault e := rfl

@[simp] theorem Result.mapNext_ite (f : State → State) (c : Prop) [Decidable c] (a b : Result) :
    Result.mapNext f (if c then a else b) =
      if c then Result.mapNext f a else Result.mapNext f b := by
  split <;> rfl

/-- Two states that agree on the capacities and on ENC differ in the rest only. -/
theorem State.withRest_enc_of_agree {a b : State} (hc : a.cfg = b.cfg)
    (hs : a.encShell = b.encShell) (hw : a.enc = b.enc) : a.withRest .enc b = b := by
  simp only [State.withRest, hc, hs, hw]

/-- Two states that agree on the capacities and on DEC differ in the rest only. -/
theorem State.withRest_dec_of_agree {a b : State} (hc : a.cfg = b.cfg)
    (hs : a.decShell = b.decShell) (hw : a.dec = b.dec) : a.withRest .dec b = b := by
  simp only [State.withRest, hc, hs, hw]

section
variable (s r : State) (u : UnitId)

@[simp] theorem State.withRest_enc_enc : (s.withRest .enc r).enc = s.enc := rfl
@[simp] theorem State.withRest_dec_dec : (s.withRest .dec r).dec = s.dec := rfl
@[simp] theorem State.withRest_busy : (s.withRest u r).busy u = s.busy u := by cases u <;> rfl
@[simp] theorem State.withRest_room : (s.withRest u r).room u = s.room u := by cases u <;> rfl
@[simp] theorem State.withRest_readIn (a : Nat) : (s.withRest u r).readIn u a = s.readIn u a := by
  cases u <;> rfl

@[simp] theorem State.withRest_inBytes (a k : Nat) :
    (s.withRest u r).inBytes u a k = s.inBytes u a k := by
  induction k generalizing a with
  | zero => rfl
  | succ k ih => simp [State.inBytes, ih]

@[simp] theorem State.withRest_runFrom (v : Byte) (a k : Nat) :
    (s.withRest u r).runFrom u v a k = s.runFrom u v a k := by
  induction k generalizing a with
  | zero => rfl
  | succ k ih => simp [State.runFrom, ih]

theorem State.raise_withRest (c : Cause) (pos : Word) :
    (s.withRest u r).raise u c pos = (s.raise u c pos).withRest u r := by cases u <;> rfl

theorem State.complete_withRest : (s.withRest u r).complete u = (s.complete u).withRest u r := by
  cases u <;> rfl

theorem State.put_withRest (bs : List Byte) :
    (s.withRest u r).put u bs = (s.put u bs).withRest u r := by cases u <;> rfl

/-- Producing output is local when what follows it is. -/
theorem State.emit_withRest (pos : Word) (bs : List Byte) {after : State → State}
    (hafter : ∀ s : State, after (s.withRest u r) = (after s).withRest u r) :
    (s.withRest u r).emit u pos bs after = (s.emit u pos bs after).withRest u r := by
  unfold State.emit
  rw [State.withRest_room]
  split
  next => exact State.raise_withRest s r u _ pos
  next => rw [State.put_withRest, hafter]

/-! ENC's step. -/

@[simp] theorem State.withRest_blockInside : (s.withRest .enc r).blockInside = s.blockInside := rfl
@[simp] theorem State.withRest_hdrInside : (s.withRest .enc r).hdrInside = s.hdrInside := rfl

theorem State.scan_withRest : (s.withRest .enc r).scan = s.scan.withRest .enc r := by
  unfold State.scan State.runLen
  simp only [State.withRest_enc_enc, State.withRest_readIn, State.withRest_runFrom]
  rfl

theorem State.emitToken_withRest : (s.withRest .enc r).emitToken = s.emitToken.withRest .enc r := by
  unfold State.emitToken
  rw [State.scan_withRest]
  exact State.emit_withRest s.scan r .enc _ _ fun _ => rfl

theorem State.openBlock_withRest : (s.withRest .enc r).openBlock = s.openBlock.withRest .enc r := by
  unfold State.openBlock
  rw [State.withRest_room]
  split <;> rfl

theorem encStep_withRest :
    encStep (s.withRest .enc r) = (encStep s).mapNext (fun t => t.withRest .enc r) := by
  unfold encStep
  simp only [State.withRest_enc_enc, State.withRest_blockInside, State.withRest_hdrInside,
    State.emitToken_withRest, State.openBlock_withRest, State.complete_withRest, Result.mapNext_ite,
    Result.mapNext_next, Result.mapNext_fault]
  rfl

theorem encTurn_withRest :
    encTurn (s.withRest .enc r) = (encTurn s).mapNext (fun t => t.withRest .enc r) := by
  unfold encTurn
  rw [State.withRest_busy, encStep_withRest]
  split <;> rfl

/-! DEC's step. -/

@[simp] theorem State.withRest_atFirstByte : (s.withRest .dec r).atFirstByte = s.atFirstByte := rfl
@[simp] theorem State.withRest_inTokState (k : TokState) :
    (s.withRest .dec r).inTokState k = s.inTokState k := rfl
@[simp] theorem State.withRest_atPayloadEnd : (s.withRest .dec r).atPayloadEnd = s.atPayloadEnd := rfl
@[simp] theorem State.withRest_atHeader : (s.withRest .dec r).atHeader = s.atHeader := rfl
@[simp] theorem State.withRest_readInside : (s.withRest .dec r).readInside = s.readInside := rfl
@[simp] theorem State.withRest_payloadInside :
    (s.withRest .dec r).payloadInside = s.payloadInside := rfl
@[simp] theorem State.withRest_tokenBytes : (s.withRest .dec r).tokenBytes = s.tokenBytes := by
  simp [State.tokenBytes]
@[simp] theorem State.withRest_lenBytesAt : (s.withRest .dec r).lenBytesAt = s.lenBytesAt := by
  simp [State.lenBytesAt]

/-- Appending a token's bytes is local. -/
theorem State.emit_nextToken_withRest (pos : Word) (bs : List Byte) :
    (s.withRest .dec r).emit .dec pos bs State.nextToken =
      (s.emit .dec pos bs State.nextToken).withRest .dec r :=
  State.emit_withRest s r .dec pos bs fun _ => rfl

/-- What DEC runs at its own turns is local. -/
theorem ParsedByDec.exec_withRest {i : Instr} (hi : ParsedByDec i) :
    exec i (s.withRest .dec r) =
      Result.mapNext (fun t => t.withRest .dec r) (exec i s) := by
  cases hi with
  | lit v =>
    have hemit := State.emit_nextToken_withRest
      (s.setDec { s.dec with tokStart := s.dec.rp }) r s.dec.rp [v]
    simp only [exec, execLit, State.withRest_atFirstByte, Result.mapNext_ite, Result.mapNext_next]
    exact if_congr Iff.rfl (congrArg Host.Outcome.next hemit) rfl
  | esc v =>
    simp only [exec, execEsc, State.withRest_atFirstByte, State.withRest_inTokState,
      State.withRest_atPayloadEnd, State.withRest_dec_dec, State.emit_nextToken_withRest,
      Result.mapNext_ite, Result.mapNext_next]
    rfl
  | run n v =>
    simp only [exec, execRun, State.withRest_atFirstByte, State.withRest_inTokState,
      State.withRest_atPayloadEnd, State.withRest_dec_dec, State.emit_nextToken_withRest,
      Result.mapNext_ite, Result.mapNext_next]
    rfl
  | payloadLen L =>
    simp only [exec, execPayloadLen, State.withRest_atHeader, State.withRest_dec_dec,
      Result.mapNext_ite, Result.mapNext_next]
    rfl

theorem State.endBlock_withRest : (s.withRest .dec r).endBlock = s.endBlock.withRest .dec r := rfl

theorem truncatedStep_withRest (e : Reject) :
    truncatedStep e (s.withRest .dec r) = (truncatedStep e s).withRest .dec r := by
  unfold truncatedStep
  rw [State.withRest_dec_dec]
  split <;> rfl

theorem tokenStep_withRest :
    tokenStep (s.withRest .dec r) = (tokenStep s).mapNext (fun t => t.withRest .dec r) := by
  unfold tokenStep
  rw [State.withRest_tokenBytes]
  split
  next hd => exact (decode_token_parsed hd).exec_withRest s r
  next e _ => exact congrArg Host.Outcome.next (truncatedStep_withRest s r e)

theorem headerStep_withRest :
    headerStep (s.withRest .dec r) = (headerStep s).mapNext (fun t => t.withRest .dec r) := by
  unfold headerStep
  rw [State.withRest_lenBytesAt]
  split
  next hd => exact (decode_lenField_parsed hd).exec_withRest s r
  next => rfl

theorem decStep_withRest :
    decStep (s.withRest .dec r) = (decStep s).mapNext (fun t => t.withRest .dec r) := by
  unfold decStep
  simp only [State.withRest_dec_dec, State.withRest_readInside, State.withRest_payloadInside,
    State.withRest_atPayloadEnd, State.complete_withRest, State.endBlock_withRest, headerStep_withRest,
    tokenStep_withRest]
  cases s.dec.tokState <;> simp only [Result.mapNext_ite, Result.mapNext_next, Result.mapNext_fault]

theorem decTurn_withRest :
    decTurn (s.withRest .dec r) = (decTurn s).mapNext (fun t => t.withRest .dec r) := by
  unfold decTurn
  rw [State.withRest_busy, decStep_withRest]
  split <;> rfl

end

/-! The statements about units. -/

/-- Settles O40: each instruction's outcomes are compositions of operations that keep the frame. -/
theorem instructionsLeaveTheRestAlone : Obligations.InstructionsLeaveTheRestAlone := by
  intro i s t h
  obtain ⟨hrest, hinp, hlen, hresets⟩ := exec_frames h
  exact ⟨hrest, hinp, hlen, hresets⟩

/-- Settles O41: the frame of each turn, and each turn commutes with a change of the rest. -/
theorem unitsShareNothing : Obligations.UnitsShareNothing := by
  refine ⟨fun _ _ h => (encTurn_frames h).rest, fun _ _ h => (decTurn_frames h).rest, ?_, ?_⟩
  · intro a b s hc hs hw h
    refine ⟨s.withRest .enc b, ?_, rfl, rfl⟩
    rw [← State.withRest_enc_of_agree hc hs hw, encTurn_withRest, h]
    simp [State.withRest]
  · intro a b s hc hs hw h
    refine ⟨s.withRest .dec b, ?_, rfl, rfl⟩
    rw [← State.withRest_dec_of_agree hc hs hw, decTurn_withRest, h]
    simp [State.withRest]

/-- Settles O42: a turn's frame holds the unit's own input and the other unit whole. -/
theorem unitsNeverWriteTheirInput : Obligations.UnitsNeverWriteTheirInput := by
  intro g u s t hg h
  cases g with
  | host => exact absurd rfl hg
  | enc => exact (encTurn_frames h).input u
  | dec => exact (decTurn_frames h).input u

end Sys2Proof.Machine
end

section
/-! PROOFS. What one step of the whole machine can do: whose turn it is, the host's operations, the capacities and STATUS (00_scope.md R10, 10_state.md R24, R38). -/

namespace Sys2Proof.Machine

@[simp] theorem State.shell_with_pending (s : State) (ops : List HostOp) (u : UnitId) :
    ({ s with pending := ops } : State).shell u = s.shell u := by cases u <;> rfl

@[simp] theorem State.shell_with_turns (s : State) (gs : List Agent) (u : UnitId) :
    ({ s with turns := gs } : State).shell u = s.shell u := by cases u <;> rfl

@[simp] theorem State.shell_with_answers (s : State) (as : List Answer) (u : UnitId) :
    ({ s with answers := as } : State).shell u = s.shell u := by cases u <;> rfl

/-- A step is some agent's turn, the list of turns aside. -/
theorem step_agentTurn {s t : State} (h : step s = .next t) :
    ∃ g gs, agentTurn g { s with turns := gs } = .next t := by
  unfold step at h
  split at h
  next => exact ⟨s.nextAgent, s.turns, h⟩
  next g gs _ => exact ⟨g, gs, h⟩

/-- At its turn the host does nothing, or issues its next operation. -/
theorem hostTurn_cases {s t : State} (h : hostTurn s = .next t) :
    t = s ∨ ∃ op ops, s.pending = op :: ops ∧ hostStep op { s with pending := ops } = .next t := by
  unfold hostTurn at h
  split at h
  next => cases h; exact .inl rfl
  next op ops hp => exact .inr ⟨op, ops, hp, h⟩

/-- A register write is a command to its unit, a write of IN_LEN, or nothing. -/
theorem hostWriteReg_cases {u : UnitId} {r : Nat} {x : Word} {s t : State}
    (h : hostWriteReg u r x s = .next t) :
    (u = .enc ∧ r = 0 ∧ startBit x = true ∧ CompressRule s t) ∨
    (u = .dec ∧ r = 0 ∧ startBit x = true ∧ DecompressRule s t) ∨
    t = s.hostWriteInLen u x ∨ t = s := by
  unfold hostWriteReg at h
  split at h
  next hd =>
    obtain ⟨hr, hx, -, ⟨hu, rfl⟩ | ⟨hu, rfl⟩⟩ := decode_regWrite_cases hd
    · exact .inl ⟨hu, hr, hx, execCompress_rule h⟩
    · exact .inr (.inl ⟨hu, hr, hx, execDecompress_rule h⟩)
  next =>
    split at h <;> cases h
    next => exact .inr (.inr (.inl rfl))
    next => exact .inr (.inr (.inr rfl))

/-- `WriteIn` stores a byte in a unit at rest, or does nothing. -/
theorem State.hostWriteIn_cases (s : State) (u : UnitId) (a : Word) (v : Byte) :
    s.hostWriteIn u a v = s ∨
    ((s.shell u).status ≠ .busy ∧ a.toNat < s.inCap u ∧
      s.hostWriteIn u a v =
        s.setShell u { s.shell u with inp := (s.shell u).inp.set a.toNat v }) := by
  unfold State.hostWriteIn
  split
  next hc => exact .inr (by simpa [State.busy] using hc)
  next => exact .inl rfl

/-- A write of IN_LEN stores it in a unit at rest, or does nothing. -/
theorem State.hostWriteInLen_cases (s : State) (u : UnitId) (x : Word) :
    s.hostWriteInLen u x = s ∨
    ((s.shell u).status ≠ .busy ∧
      s.hostWriteInLen u x = s.setShell u { s.shell u with inLen := x }) := by
  unfold State.hostWriteInLen
  split
  next => exact .inl rfl
  next hb => exact .inr ⟨mt (s.busy_iff u).mpr hb, rfl⟩

/-- `ReadOut` adds an answer, and may draw a free value. -/
theorem State.hostReadOut_cases (s : State) (u : UnitId) (a : Word) :
    ∃ as, s.hostReadOut u a = { s with answers := as } ∨
      s.hostReadOut u a = { s.drawByte u with answers := as } := by
  unfold State.hostReadOut
  split
  next => exact ⟨_, .inl rfl⟩
  next => exact ⟨_, .inr rfl⟩

/-! The capacities. -/

theorem hostStep_cfg {op : HostOp} {s t : State} (h : hostStep op s = .next t) : t.cfg = s.cfg := by
  cases op with
  | writeIn u a v =>
    cases h
    obtain h | ⟨_, _, h⟩ := s.hostWriteIn_cases u a v <;> simp [h]
  | writeReg u r x =>
    obtain ⟨_, _, _, hr⟩ | ⟨_, _, _, hr⟩ | rfl | rfl := hostWriteReg_cases h
    · exact hr.frames.cfg
    · exact hr.frames.cfg
    · obtain h | ⟨_, h⟩ := s.hostWriteInLen_cases u x <;> simp [h]
    · rfl
  | readReg u r => cases h; rfl
  | readOut u a =>
    cases h
    obtain ⟨as, h | h⟩ := s.hostReadOut_cases u a <;> simp [h, State.drawByte]
  | reset => cases h; rfl

theorem agentTurn_cfg {g : Agent} {s t : State} (h : agentTurn g s = .next t) : t.cfg = s.cfg := by
  cases g with
  | host =>
    obtain rfl | ⟨op, ops, _, h⟩ := hostTurn_cases h
    · rfl
    · exact hostStep_cfg (s := { s with pending := ops }) h
  | enc => exact (encTurn_frames h).cfg
  | dec => exact (decTurn_frames h).cfg

/-- Settles O44: no agent's turn writes the capacities. -/
theorem noStepChangesTheConfiguration : Obligations.NoStepChangesTheConfiguration := by
  intro s t h
  obtain ⟨g, gs, h⟩ := step_agentTurn h
  exact agentTurn_cfg (s := { s with turns := gs }) h

/-! STATUS. -/

/-- How unit `u` goes from STATUS `p` to `q` in a step, `pending` being the host's operations before
it (10_state.md R24). -/
inductive PhaseChange (u : UnitId) (pending : List HostOp) (p q : Phase) : Prop
  | stay (hq : q = p)
  | finish (hp : p = .busy) (hq : q = .done ∨ q = .error)
  | command (x : Word) (ops : List HostOp) (hp : p ≠ .busy) (hq : q = .busy ∨ q = .error)
      (hx : startBit x = true) (hop : pending = .writeReg u 0 x :: ops)
  | reset (ops : List HostOp) (hq : q = .idle) (hop : pending = .reset :: ops)

/-- The other unit's turn, or a command to it, leaves STATUS as it is. -/
theorem PhaseChange.of_sameBut {u v : UnitId} {s t : State} (h : State.sameBut u s t) (hv : v ≠ u)
    (pending : List HostOp) : PhaseChange v pending (s.shell v).status (t.shell v).status :=
  .stay (by rw [State.sameBut_shell h hv])

theorem encTurn_phaseChange {s t : State} (h : encTurn s = .next t) (v : UnitId)
    (pending : List HostOp) : PhaseChange v pending (s.shell v).status (t.shell v).status := by
  cases v with
  | dec => exact .of_sameBut (encTurn_frames h).rest (by decide) pending
  | enc =>
    obtain rfl | ⟨hb, hr⟩ := encTurn_rule h
    · exact .stay rfl
    · obtain hs | hs := hr.status
      · exact .stay hs
      · exact .finish hb hs

theorem decTurn_phaseChange {s t : State} (h : decTurn s = .next t) (v : UnitId)
    (pending : List HostOp) : PhaseChange v pending (s.shell v).status (t.shell v).status := by
  cases v with
  | enc => exact .of_sameBut (decTurn_frames h).rest (by decide) pending
  | dec =>
    obtain rfl | ⟨hb, hr⟩ := decTurn_rule h
    · exact .stay rfl
    · obtain hs | hs := hr.status
      · exact .stay hs
      · exact .finish hb hs

theorem CompressRule.phaseChange {s t : State} (h : CompressRule s t) {x : Word}
    (hx : startBit x = true) (v : UnitId) (ops : List HostOp) :
    PhaseChange v (.writeReg .enc 0 x :: ops) (s.shell v).status (t.shell v).status := by
  cases v with
  | dec => exact .of_sameBut h.frames.rest (by decide) _
  | enc =>
    cases h with
    | ignored => exact .stay rfl
    | fail c pos _ _ hidle =>
      exact .command x ops hidle (.inr (State.raise_status s .enc c pos)) hx rfl
    | start hidle => exact .command x ops hidle (.inl (State.setBusy_status _ .enc)) hx rfl

theorem DecompressRule.phaseChange {s t : State} (h : DecompressRule s t) {x : Word}
    (hx : startBit x = true) (v : UnitId) (ops : List HostOp) :
    PhaseChange v (.writeReg .dec 0 x :: ops) (s.shell v).status (t.shell v).status := by
  cases v with
  | enc => exact .of_sameBut h.frames.rest (by decide) _
  | dec =>
    cases h with
    | ignored => exact .stay rfl
    | fail c pos _ hidle =>
      exact .command x ops hidle (.inr (State.raise_status s .dec c pos)) hx rfl
    | start N hidle => exact .command x ops hidle (.inl (State.setBusy_status _ .dec)) hx rfl

/-- A write to one unit's registers that keeps its STATUS keeps every unit's. -/
theorem State.setShell_status {s : State} {u : UnitId} {sh : Shell}
    (h : sh.status = (s.shell u).status) (v : UnitId) :
    ((s.setShell u sh).shell v).status = (s.shell v).status := by
  by_cases hv : v = u
  · subst hv; simpa using h
  · rw [State.sameBut_shell (State.sameBut_setShell s u sh) hv]

theorem hostStep_phaseChange {op : HostOp} {s t : State} (h : hostStep op s = .next t) (v : UnitId)
    (ops : List HostOp) : PhaseChange v (op :: ops) (s.shell v).status (t.shell v).status := by
  cases op with
  | writeIn u a b =>
    cases h
    obtain h | ⟨_, _, h⟩ := s.hostWriteIn_cases u a b
    · exact .stay (by rw [h])
    · exact .stay (by rw [h]; exact State.setShell_status (by rfl) v)
  | writeReg u r x =>
    obtain ⟨rfl, rfl, hx, hr⟩ | ⟨rfl, rfl, hx, hr⟩ | rfl | rfl := hostWriteReg_cases h
    · exact hr.phaseChange hx v ops
    · exact hr.phaseChange hx v ops
    · obtain h | ⟨_, h⟩ := s.hostWriteInLen_cases u x
      · exact .stay (by rw [h])
      · exact .stay (by rw [h]; exact State.setShell_status (by rfl) v)
    · exact .stay rfl
  | readReg u r => cases h; exact .stay (by simp [State.hostReadReg])
  | readOut u a =>
    cases h
    obtain ⟨as, h | h⟩ := s.hostReadOut_cases u a
    · exact .stay (by simp [h])
    · exact .stay (by rw [h, State.shell_with_answers]; exact State.setShell_status (by rfl) v)
  | reset => cases h; exact .reset ops (by cases v <;> rfl) rfl

theorem agentTurn_phaseChange {g : Agent} {s t : State} (h : agentTurn g s = .next t) (v : UnitId) :
    PhaseChange v s.pending (s.shell v).status (t.shell v).status := by
  cases g with
  | host =>
    obtain rfl | ⟨op, ops, hp, h⟩ := hostTurn_cases h
    · exact .stay rfl
    · rw [hp]
      simpa using hostStep_phaseChange h v ops
  | enc => exact encTurn_phaseChange h v _
  | dec => exact decTurn_phaseChange h v _

theorem step_phaseChange {s t : State} (h : step s = .next t) (v : UnitId) :
    PhaseChange v s.pending (s.shell v).status (t.shell v).status := by
  obtain ⟨g, gs, h⟩ := step_agentTurn h
  simpa using agentTurn_phaseChange h v

/-- Settles O45: each clause is read off the four ways STATUS can change. -/
theorem statusChangesAreTheNamedOnes : Obligations.StatusChangesAreTheNamedOnes := by
  intro u s t h
  cases step_phaseChange h u with
  | stay hq =>
    rw [hq]
    exact ⟨fun hi hn => absurd hi hn, fun hd hn => absurd hd hn, fun _ hn => absurd rfl hn⟩
  | finish hp hq =>
    refine ⟨fun hi => ?_, fun _ _ => hp, fun hn => absurd hp hn⟩
    rw [hi] at hq
    exact absurd hq (by decide)
  | command x ops hp hq hx hop =>
    refine ⟨fun hi => ?_, fun hd => ?_, fun _ _ => ⟨_, ops, hop, .inr ⟨x, hx, rfl⟩⟩⟩
    · rw [hi] at hq
      exact absurd hq (by decide)
    · rw [hd] at hq
      exact absurd hq (by decide)
  | reset ops hq hop =>
    refine ⟨fun _ _ => ⟨ops, hop⟩, fun hd => ?_, fun _ _ => ⟨_, ops, hop, .inl rfl⟩⟩
    rw [hd] at hq
    exact absurd hq (by decide)

end Sys2Proof.Machine
end

section
/-! PROOFS. The invariant: what holds of a unit's registers after each kind of update, and that every step keeps it (10_state.md R24 to R35, 20_memory.md R62, R76). -/

namespace Sys2Proof.Machine

/-! Pointers and buffers. -/

theorem outCap_lt (c : Config) (u : UnitId) : c.outCap u < 2 ^ 32 := by
  cases u
  · exact c.eOutCap.isLt
  · exact c.dOutCap.isLt

/-- A pointer advanced inside a buffer does not wrap (20_memory.md R76). -/
theorem toNat_add_ofNat {p : Word} {k : Nat} (h : p.toNat + k < 2 ^ 32) :
    (p + BitVec.ofNat 32 k).toNat = p.toNat + k := by
  rw [BitVec.toNat_add, BitVec.toNat_ofNat, Nat.add_mod_mod, Nat.mod_eq_of_lt h]

/-- A pointer below another can take one more step. -/
theorem toNat_add_one {p q : Word} (h : p.toNat < q.toNat) : (p + 1).toNat = p.toNat + 1 :=
  toNat_add_ofNat (k := 1) (by have := q.isLt; omega)

/-- After a store the offsets that were listed are, and those stored to. -/
theorem Memory.isSome_get_setMany {m : Memory} {a x : Nat} {bs : List Byte}
    (h : (m.get x).isSome = true ∨ (a ≤ x ∧ x < a + bs.length)) :
    ((m.setMany a bs).get x).isSome = true := by
  by_cases hx : a ≤ x ∧ x < a + bs.length
  · obtain ⟨i, rfl⟩ := Nat.exists_eq_add_of_le hx.1
    have hi : i < bs.length := by omega
    rw [Memory.get_setMany_inside bs m a i hi, List.getElem?_eq_getElem hi]
    rfl
  · rw [Memory.get_setMany_outside bs m a x (by omega)]
    exact h.resolve_right hx

/-- A store where the listed bytes end moves their end. -/
theorem Memory.listedBelow_setMany {m : Memory} {a : Nat} (h : m.listedBelow a) (bs : List Byte) :
    (m.setMany a bs).listedBelow (a + bs.length) := fun x hx =>
  Memory.isSome_get_setMany (if hxa : x < a then .inl (h x hxa) else .inr ⟨by omega, hx⟩)

/-! What holds of a unit's registers after each kind of update. -/

namespace ShellInv

variable {cfg : Config} {u : UnitId} {sh : Shell}

theorem afterReset (cfg : Config) (u : UnitId) (resets draws : Nat) :
    ShellInv cfg u (Shell.afterReset resets draws) where
  inWf := rfl
  outWf := rfl
  inWithin := Memory.within_nil _
  outWithin := Memory.within_nil _
  errIff := by simp [Shell.afterReset]
  posZero := fun _ => rfl
  lenZero := fun _ => rfl
  encCause := fun _ => rfl
  doneListed := fun h => by cases h

theorem raised (h : ShellInv cfg u sh) {c : Cause} (hc : c ≠ .noFault)
    (hm : u = .enc → c.malformed = false) (pos : Word) (draws : Nat) :
    ShellInv cfg u { sh with err := c, errPos := pos, outLen := 0, status := .error, out := [],
                             draws := draws } where
  inWf := h.inWf
  outWf := rfl
  inWithin := h.inWithin
  outWithin := Memory.within_nil _
  errIff := by simpa using hc
  posZero := fun hs => absurd rfl hs
  lenZero := fun _ => rfl
  encCause := hm
  doneListed := fun h => by cases h

theorem started (h : ShellInv cfg u sh) {out : Memory} (hwf : out.wf = true)
    (hwithin : out.within (cfg.outCap u)) :
    ShellInv cfg u { sh with outLen := 0, err := .noFault, errPos := 0, out := out,
                             status := .busy } where
  inWf := h.inWf
  outWf := hwf
  inWithin := h.inWithin
  outWithin := hwithin
  errIff := by simp
  posZero := fun _ => rfl
  lenZero := fun _ => rfl
  encCause := fun _ => rfl
  doneListed := fun h => by cases h

/-- A BUSY unit may store to its output. -/
theorem stored (h : ShellInv cfg u sh) (hb : sh.status = .busy) {a : Nat} {bs : List Byte}
    (hin : a + bs.length ≤ cfg.outCap u) :
    ShellInv cfg u { sh with out := sh.out.setMany a bs } where
  inWf := h.inWf
  outWf := Memory.wf_setMany h.outWf a bs
  inWithin := h.inWithin
  outWithin := Memory.within_setMany h.outWithin bs hin
  errIff := h.errIff
  posZero := h.posZero
  lenZero := h.lenZero
  encCause := h.encCause
  doneListed := fun hd => by cases hb.symm.trans hd

/-- A BUSY unit may complete once every byte of the result is there. -/
theorem completed (h : ShellInv cfg u sh) (hb : sh.status = .busy) {len : Word}
    (hlen : sh.out.listedBelow len.toNat) (draws : Nat) :
    ShellInv cfg u { sh with outLen := len, status := .done, draws := draws } where
  inWf := h.inWf
  outWf := h.outWf
  inWithin := h.inWithin
  outWithin := h.outWithin
  errIff := by simpa [hb] using h.errIff
  posZero := fun _ => h.posZero (by simp [hb])
  lenZero := fun hn => absurd rfl hn
  encCause := h.encCause
  doneListed := fun _ => hlen

/-- The host may write the input buffer inside its capacity, and IN_LEN. -/
theorem hostWritten (h : ShellInv cfg u sh) {inp : Memory} (hwf : inp.wf = true)
    (hwithin : inp.within (cfg.inCap u)) (inLen : Word) :
    ShellInv cfg u { sh with inp := inp, inLen := inLen } where
  inWf := hwf
  outWf := h.outWf
  inWithin := hwithin
  outWithin := h.outWithin
  errIff := h.errIff
  posZero := h.posZero
  lenZero := h.lenZero
  encCause := h.encCause
  doneListed := h.doneListed

theorem drawn (h : ShellInv cfg u sh) (draws : Nat) : ShellInv cfg u { sh with draws := draws } where
  inWf := h.inWf
  outWf := h.outWf
  inWithin := h.inWithin
  outWithin := h.outWithin
  errIff := h.errIff
  posZero := h.posZero
  lenZero := h.lenZero
  encCause := h.encCause
  doneListed := h.doneListed

end ShellInv

/-! The invariant of the machine, unit by unit. -/

/-- What `State.Inv` asks of a BUSY unit's working registers. -/
def State.WorkInv (s : State) : UnitId → Prop
  | .enc => EncInv s.cfg s.encShell s.enc
  | .dec => DecInv s.cfg s.decShell s.dec

theorem State.Inv.shellInv {s : State} (hs : s.Inv) (u : UnitId) : ShellInv s.cfg u (s.shell u) := by
  cases u
  · exact hs.encShellInv
  · exact hs.decShellInv

theorem State.Inv.workInv {s : State} (hs : s.Inv) (u : UnitId) (hb : (s.shell u).status = .busy) :
    s.WorkInv u := by
  cases u
  · exact hs.encBusy hb
  · exact hs.decBusy hb

/-- An update of one unit keeps the invariant when that unit's part holds after it. -/
theorem State.Inv.update {s t : State} {u : UnitId} (hs : s.Inv) (hrest : State.sameBut u s t)
    (hshell : ShellInv s.cfg u (t.shell u))
    (hwork : (t.shell u).status = .busy → t.WorkInv u) : t.Inv := by
  cases u with
  | enc =>
    obtain ⟨hd, hdw, hc, -, -, -⟩ := hrest
    refine ⟨?_, ?_, hwork, ?_⟩ <;> simp only [hc, hd, hdw]
    · exact hshell
    · exact hs.decShellInv
    · exact hs.decBusy
  | dec =>
    obtain ⟨he, hew, hc, -, -, -⟩ := hrest
    refine ⟨?_, ?_, ?_, hwork⟩ <;> simp only [hc, he, hew]
    · exact hs.encShellInv
    · exact hshell
    · exact hs.encBusy

/-- The invariant says nothing of the host's lists. -/
theorem State.Inv.withHost {s : State} (hs : s.Inv) (ops : List HostOp) (as : List Answer)
    (gs : List Agent) : State.Inv { s with pending := ops, answers := as, turns := gs } :=
  ⟨hs.encShellInv, hs.decShellInv, hs.encBusy, hs.decBusy⟩

theorem State.Inv.raise {s : State} (hs : s.Inv) (u : UnitId) {c : Cause} (pos : Word)
    (hc : c ≠ .noFault) (hm : u = .enc → c.malformed = false) : (s.raise u c pos).Inv := by
  refine hs.update (State.raise_sameBut s u c pos) ?_ fun hb => ?_
  · rw [State.raise_shell]
    exact (hs.shellInv u).raised hc hm pos _
  · rw [State.raise_status] at hb
    cases hb

theorem State.Inv.complete {s : State} (hs : s.Inv) (u : UnitId) (hb : (s.shell u).status = .busy)
    (hlen : (s.shell u).out.listedBelow (s.wp u).toNat) : (s.complete u).Inv := by
  refine hs.update (State.complete_sameBut s u) ?_ fun hb => ?_
  · rw [State.complete_shell]
    exact (hs.shellInv u).completed hb hlen _
  · rw [State.complete_status] at hb
    cases hb

/-- A host's write to a unit at rest. -/
theorem State.Inv.hostWrite {s : State} (hs : s.Inv) {u : UnitId} (hb : (s.shell u).status ≠ .busy)
    {inp : Memory} (hwf : inp.wf = true) (hwithin : inp.within (s.inCap u)) (inLen : Word) :
    (s.setShell u { s.shell u with inp := inp, inLen := inLen }).Inv := by
  refine hs.update (State.sameBut_setShell s u _) ?_ fun hb' => ?_
  · rw [State.setShell_shell]
    exact (hs.shellInv u).hostWritten hwf hwithin inLen
  · rw [State.setShell_shell] at hb'
    exact absurd hb' hb

theorem State.WorkInv.drawByte {s : State} {u : UnitId} (h : s.WorkInv u) :
    (s.drawByte u).WorkInv u := by
  cases u with
  | enc => exact ⟨h.nLen, h.nblkEq, h.wpIn, h.closed, h.opened, h.outListed⟩
  | dec => exact ⟨h.nLen, h.rpIn, h.wpIn, h.inBlock, h.inToken⟩

theorem State.Inv.drawByte {s : State} (hs : s.Inv) (u : UnitId) : (s.drawByte u).Inv := by
  refine hs.update (State.sameBut_setShell s u _) ?_ fun hb => ?_
  · rw [State.drawByte, State.setShell_shell]
    exact (hs.shellInv u).drawn _
  · rw [State.drawByte, State.setShell_shell] at hb
    exact (hs.workInv u hb).drawByte

/-- The host's reset leaves the capacities, and both units as after a reset. -/
theorem State.hostReset_inv (s : State) : s.hostReset.Inv where
  encShellInv := ShellInv.afterReset _ _ _ _
  decShellInv := ShellInv.afterReset _ _ _ _
  encBusy := fun h => by cases h
  decBusy := fun h => by cases h

/-- An update of ENC's working registers. -/
theorem State.Inv.setEnc {s : State} (hs : s.Inv) {e : EncWork} (he : EncInv s.cfg s.encShell e) :
    (s.setEnc e).Inv :=
  hs.update (State.sameBut_setEnc s e) hs.encShellInv fun _ => he

/-- An update of DEC's working registers. -/
theorem State.Inv.setDec {s : State} (hs : s.Inv) {d : DecWork} (hd : DecInv s.cfg s.decShell d) :
    (s.setDec d).Inv :=
  hs.update (State.sameBut_setDec s d) hs.decShellInv fun _ => hd

/-! DEC's rules keep the invariant. -/

namespace DecInv

variable {cfg : Config} {sh : Shell} {d : DecWork} (h : DecInv cfg sh d)
include h

/-- Inside a payload, before its end, the read pointer can take one more step. -/
theorem rp_succ (hst : d.tokState ≠ .hdr) (hend : d.rp ≠ d.payEnd) :
    (d.rp + 1).toNat = d.rp.toNat + 1 ∧ d.rp.toNat < d.payEnd.toNat := by
  obtain ⟨-, hle, -⟩ := h.inBlock hst
  have hlt : d.rp.toNat < d.payEnd.toNat :=
    lt_of_le_of_ne hle fun he => hend (BitVec.eq_of_toNat_eq he)
  exact ⟨toNat_add_one hlt, hlt⟩

theorem fetchFlag {next : TokState} (hst : d.tokState = .readFlag) (hend : d.rp ≠ d.payEnd)
    (hnext : next = .readEscValue ∨ next = .readRunLen) :
    DecInv cfg sh { d with tokStart := d.rp, rp := d.rp + 1, tokState := next } := by
  have hne : d.tokState ≠ .hdr := by simp [hst]
  obtain ⟨hrp, hlt⟩ := h.rp_succ hne hend
  obtain ⟨hblk, -, hpay⟩ := h.inBlock hne
  refine ⟨h.nLen, ?_, h.wpIn, fun _ => ⟨hblk, ?_, hpay⟩, ?_⟩
  · simp only [hrp]; omega
  · simp only [hrp]; omega
  · obtain rfl | rfl := hnext
    · exact ⟨fun _ => hrp.symm, nofun, nofun⟩
    · exact ⟨nofun, fun _ => hrp.symm, nofun⟩

theorem takeRunLen (n : Byte) (hst : d.tokState = .readRunLen) (hend : d.rp ≠ d.payEnd) :
    DecInv cfg sh { d with runLen := n, rp := d.rp + 1, tokState := .readRunValue } := by
  have hne : d.tokState ≠ .hdr := by simp [hst]
  obtain ⟨hrp, hlt⟩ := h.rp_succ hne hend
  obtain ⟨hblk, -, hpay⟩ := h.inBlock hne
  have hstart : d.tokStart.toNat + 1 = d.rp.toNat := h.inToken.2.1 hst
  refine ⟨h.nLen, ?_, h.wpIn, fun _ => ⟨hblk, ?_, hpay⟩, nofun, nofun, fun _ => ?_⟩
  all_goals simp only [hrp]; omega

theorem append (start : Word) {bs : List Byte} (hst : d.tokState ≠ .hdr) (hend : d.rp ≠ d.payEnd)
    (hfit : d.wp.toNat + bs.length ≤ cfg.outCap .dec) :
    DecInv cfg { sh with out := sh.out.setMany d.wp.toNat bs }
      { d with tokStart := start, rp := d.rp + 1, wp := d.wp + BitVec.ofNat 32 bs.length,
               tokState := .readFlag } := by
  obtain ⟨hrp, hlt⟩ := h.rp_succ hst hend
  obtain ⟨hblk, -, hpay⟩ := h.inBlock hst
  have hwp := toNat_add_ofNat (hfit.trans_lt (outCap_lt cfg .dec))
  refine ⟨h.nLen, ?_, ?_, fun _ => ⟨hblk, ?_, hpay⟩, nofun, nofun, nofun⟩
  · simp only [hrp]; omega
  · simp only [hwp]
    exact ⟨hfit, Memory.listedBelow_setMany h.wpIn.2 bs⟩
  · simp only [hrp]; omega

theorem openPayload {L : Word} (hblk : 0 < d.blkRem.toNat) (hlen : 4 ≤ d.n.toNat - d.rp.toNat)
    (hfit : L.toNat ≤ d.n.toNat - (d.rp + 4).toNat) :
    DecInv cfg sh { d with rp := d.rp + 4, payEnd := d.rp + 4 + L, tokState := .readFlag } := by
  have hn := d.n.isLt
  have hrp : (d.rp + 4).toNat = d.rp.toNat + 4 := toNat_add_ofNat (k := 4) (by omega)
  have hpay : (d.rp + 4 + L).toNat = d.rp.toNat + 4 + L.toNat := by
    rw [BitVec.toNat_add, hrp, Nat.mod_eq_of_lt (by omega)]
  refine ⟨h.nLen, ?_, h.wpIn, fun _ => ⟨hblk, ?_, ?_⟩, nofun, nofun, nofun⟩
  all_goals simp only [hrp, hpay]; omega

theorem endBlock : DecInv cfg sh { d with blkRem := d.blkRem - 1, tokState := .hdr } :=
  ⟨h.nLen, h.rpIn, h.wpIn, fun hst => absurd rfl hst, nofun, nofun, nofun⟩

end DecInv

theorem DecRule.inv {s t : State} (h : DecRule s t) (hs : s.Inv) (hb : s.decShell.status = .busy) :
    t.Inv := by
  have hw := hs.decBusy hb
  cases h with
  | fail c pos hc => exact hs.raise .dec pos hc nofun
  | fetchFlag next hst hend hnext => exact hs.setDec (hw.fetchFlag hst hend hnext)
  | takeRunLen n hst hend => exact hs.setDec (hw.takeRunLen n hst hend)
  | append start bs hst hend hroom =>
    have hfit : s.dec.wp.toNat + bs.length ≤ s.cfg.outCap .dec :=
      Nat.add_le_of_le_sub' hw.wpIn.1 hroom
    exact hs.update (DecRule.append start bs hst hend hroom).frames.rest
      (hs.decShellInv.stored hb hfit) fun _ => hw.append start hst hend hfit
  | openPayload L hblk hlen hfit => exact hs.setDec (hw.openPayload hblk hlen hfit)
  | endBlock => exact hs.setDec hw.endBlock
  | complete => exact hs.complete .dec hb hw.wpIn.2

/-! ENC's rules keep the invariant. -/

/-- The block count of a word-sized input is a word (40_encoder.md R133). -/
theorem blockCountOf_lt {n : Nat} (h : n < 2 ^ 32) : blockCountOf n < 2 ^ 32 := by
  simp only [blockCountOf, blockSize]
  omega

/-- A block that is counted starts inside the input (40_encoder.md R133). -/
theorem mul_blockSize_lt {k n : Nat} (h : k < blockCountOf n) : k * blockSize < n := by
  simp only [blockCountOf, blockSize] at *
  omega

/-- The bytes the chosen token represents lie in the block (40_encoder.md R136, R141). -/
theorem State.advanceOf_scan_le {s : State} (hcur : s.enc.cur.toNat < s.enc.blkEnd.toNat) :
    s.enc.cur.toNat + advanceOf s.scan.enc.runCnt ≤ s.enc.blkEnd.toNat := by
  have hrun : s.runLen ≤ min maxRun (s.enc.blkEnd.toNat - s.enc.cur.toNat) := s.runFrom_le _ _ _ _
  have hmod : s.scan.enc.runCnt.toNat ≤ s.runLen := (BitVec.toNat_ofNat _ _).trans_le (Nat.mod_le _ _)
  unfold advanceOf
  split <;> omega

namespace EncInv

variable {cfg : Config} {sh : Shell} {e : EncWork} (h : EncInv cfg sh e)
include h

/-- Between blocks every output byte so far is there. -/
theorem listedBelow (hin : e.inBlk = false) : sh.out.listedBelow e.wp.toNat := fun a ha =>
  (h.outListed a ha).resolve_left fun ⟨hopen, _⟩ => by simp [hin] at hopen

theorem openBlock (hin : e.inBlk = false) (hblk : e.blk.toNat < e.nblk.toNat)
    (hfit : e.wp.toNat + 4 ≤ cfg.outCap .enc) :
    EncInv cfg sh { e with
      hdr := e.wp, wp := e.wp + 4, inBlk := true,
      blkEnd := e.cur + BitVec.ofNat 32 (min blockSize (e.n.toNat - e.cur.toNat)) } := by
  have hstart : e.blk.toNat * blockSize < e.n.toNat := mul_blockSize_lt (h.nblkEq ▸ hblk)
  have hcur : e.cur.toNat = e.blk.toNat * blockSize :=
    (h.closed hin).2.trans (Nat.min_eq_left hstart.le)
  have hcurN : e.cur.toNat ≤ e.n.toNat := hcur.trans_le hstart.le
  have hwp : (e.wp + 4).toNat = e.wp.toNat + 4 :=
    toNat_add_ofNat (k := 4) (hfit.trans_lt (outCap_lt cfg .enc))
  have hend : (e.cur + BitVec.ofNat 32 (min blockSize (e.n.toNat - e.cur.toNat))).toNat =
      e.cur.toNat + min blockSize (e.n.toNat - e.cur.toNat) :=
    toNat_add_ofNat ((Nat.add_le_of_le_sub' hcurN (min_le_right _ _)).trans_lt e.n.isLt)
  refine ⟨h.nLen, h.nblkEq, ⟨?_, ?_⟩, nofun, fun _ => ⟨hblk, ?_, hcur.ge, ?_, h.wpIn.1, ?_⟩, ?_⟩
  · simp only [hwp]; exact Nat.le_add_right_of_le h.wpIn.1
  · simp only [hwp]; exact hfit
  · simp only [hend]
    rw [← Nat.add_min_add_left, Nat.add_sub_of_le hcurN, Nat.succ_mul, hcur]
  · simp only [hend]; exact Nat.le_add_right _ _
  · simp only [hwp]; exact le_rfl
  · intro a ha
    simp only [hwp] at ha
    by_cases hlow : a < e.wp.toNat
    · exact .inr (h.listedBelow hin a hlow)
    · exact .inl ⟨rfl, not_lt.mp hlow, ha⟩

theorem emit (hin : e.inBlk = true) {bs : List Byte} {k : Nat}
    (hfit : e.wp.toNat + bs.length ≤ cfg.outCap .enc) (hk : e.cur.toNat + k ≤ e.blkEnd.toNat)
    (runVal runCnt : Byte) :
    EncInv cfg { sh with out := sh.out.setMany e.wp.toNat bs }
      { e with runVal := runVal, runCnt := runCnt, wp := e.wp + BitVec.ofNat 32 bs.length,
               cur := e.cur + BitVec.ofNat 32 k } := by
  obtain ⟨hblk, hend, hlow, -, hhdr, hhdrEnd⟩ := h.opened hin
  have hwp := toNat_add_ofNat (hfit.trans_lt (outCap_lt cfg .enc))
  have hcur := toNat_add_ofNat (hk.trans_lt e.blkEnd.isLt)
  refine ⟨h.nLen, h.nblkEq, ⟨?_, ?_⟩, fun hout => ?_, fun _ => ⟨hblk, hend, ?_, ?_, hhdr, ?_⟩, ?_⟩
  · simp only [hwp]; exact Nat.le_add_right_of_le h.wpIn.1
  · simp only [hwp]; exact hfit
  · cases hin.symm.trans hout
  · simp only [hcur]; exact Nat.le_add_right_of_le hlow
  · simp only [hcur]; exact hk
  · simp only [hwp]; exact Nat.le_add_right_of_le hhdrEnd
  · intro a ha
    simp only [hwp] at ha
    by_cases hold : a < e.wp.toNat
    · exact (h.outListed a hold).imp_right fun h => Memory.isSome_get_setMany (.inl h)
    · exact .inr (Memory.isSome_get_setMany (.inr ⟨not_lt.mp hold, ha⟩))

theorem closeBlock (hin : e.inBlk = true) (hcur : e.cur = e.blkEnd) {bs : List Byte}
    (hbs : bs.length = lenBytes) :
    EncInv cfg { sh with out := sh.out.setMany e.hdr.toNat bs }
      { e with blk := e.blk + 1, inBlk := false } := by
  obtain ⟨hblk, hend, -⟩ := h.opened hin
  have hblk' : (e.blk + 1).toNat = e.blk.toNat + 1 := toNat_add_one hblk
  refine ⟨h.nLen, h.nblkEq, h.wpIn, fun _ => ⟨?_, ?_⟩, nofun, fun a ha => .inr ?_⟩
  · simp only [hblk']; exact hblk
  · simp only [hblk', hcur]; exact hend
  · refine Memory.isSome_get_setMany ((h.outListed a ha).symm.imp_right fun ⟨_, hfield⟩ => ?_)
    rw [hbs]
    exact hfield

end EncInv

theorem EncRule.inv {s t : State} (h : EncRule s t) (hs : s.Inv) (hb : s.encShell.status = .busy) :
    t.Inv := by
  have hw := hs.encBusy hb
  cases h with
  | overflow pos => exact hs.raise .enc pos (by decide) fun _ => rfl
  | openBlock hin hblk hroom =>
    exact hs.setEnc (hw.openBlock hin hblk (Nat.add_le_of_le_sub' hw.wpIn.2 hroom))
  | emit bs hin hcur hroom =>
    have hfit : s.enc.wp.toNat + bs.length ≤ s.cfg.outCap .enc :=
      Nat.add_le_of_le_sub' hw.wpIn.2 hroom
    exact hs.update (EncRule.emit bs hin hcur hroom).frames.rest (hs.encShellInv.stored hb hfit)
      fun _ => hw.emit hin hfit (State.advanceOf_scan_le hcur) _ _
  | closeBlock hin hcur =>
    obtain ⟨-, -, -, -, -, hhdrEnd⟩ := hw.opened hin
    have hfit : s.enc.hdr.toNat + lenBytes ≤ s.cfg.outCap .enc := hhdrEnd.trans hw.wpIn.2
    exact hs.update (EncRule.closeBlock hin hcur).frames.rest (hs.encShellInv.stored hb hfit)
      fun _ => hw.closeBlock hin hcur rfl
  | complete hin => exact hs.complete .enc hb (hw.listedBelow hin)

/-! The commands keep the invariant. -/

/-- ENC's working registers at a job's start, with the BLOCK_COUNT field written (40_encoder.md R132). -/
theorem EncInv.start {cfg : Config} {sh : Shell} {e : EncWork} (hn : sh.inLen.toNat ≤ cfg.inCap .enc)
    (hroom : countBytes ≤ cfg.outCap .enc) (hlisted : sh.out.listedBelow countBytes) :
    EncInv cfg sh { e with
      n := sh.inLen, nblk := BitVec.ofNat 32 (blockCountOf sh.inLen.toNat),
      blk := 0, inBlk := false, cur := 0, wp := 4 } where
  nLen := ⟨rfl, hn⟩
  nblkEq := by
    rw [BitVec.toNat_ofNat, Nat.mod_eq_of_lt (blockCountOf_lt sh.inLen.isLt)]
  wpIn := ⟨le_refl _, hroom⟩
  closed := fun _ => ⟨Nat.zero_le _, by simp⟩
  opened := fun h => by cases h
  outListed := fun a ha => .inr (hlisted a ha)

section
variable {s : State} (hs : s.Inv)
include hs

theorem CompressRule.inv {t : State} (h : CompressRule s t) : t.Inv := by
  cases h with
  | ignored => exact hs
  | fail c pos hc hm => exact hs.raise .enc pos hc fun _ => hm
  | start hidle hn hroom =>
    have hroom' : 0 + (Instr.blockCount (s.accept .enc).encStart.enc.nblk).bytes.length ≤
        s.cfg.outCap .enc := (Nat.zero_add _).trans_le hroom
    have hshell := hs.encShellInv.started (Memory.wf_setMany Memory.wf_nil 0 _)
      (Memory.within_setMany (Memory.within_nil _) _ hroom')
    exact hs.update (CompressRule.start hidle hn hroom).frames.rest hshell fun _ =>
      EncInv.start hn hroom (Memory.listedBelow_setMany (Memory.listedBelow_zero _) _)

theorem DecompressRule.inv {t : State} (h : DecompressRule s t) : t.Inv := by
  cases h with
  | ignored => exact hs
  | fail c pos hc => exact hs.raise .dec pos hc fun h => by cases h
  | start N hidle hn hcount =>
    have hshell := hs.decShellInv.started Memory.wf_nil (Memory.within_nil _)
    exact hs.update (DecompressRule.start N hidle hn hcount).frames.rest hshell fun _ =>
      ⟨⟨rfl, hn⟩, hcount, ⟨Nat.zero_le _, Memory.listedBelow_zero _⟩, fun h => absurd rfl h,
        by simp [State.setBusy]⟩

theorem hostStep_inv {op : HostOp} {t : State} (h : hostStep op s = .next t) : t.Inv := by
  cases op with
  | writeIn u a v =>
    cases h
    obtain h | ⟨hb, ha, h⟩ := s.hostWriteIn_cases u a v <;> rw [h]
    · exact hs
    · exact hs.hostWrite hb (Memory.wf_set (hs.shellInv u).inWf _ v)
        (Memory.within_set (hs.shellInv u).inWithin ha v) _
  | writeReg u r x =>
    obtain ⟨_, _, _, hr⟩ | ⟨_, _, _, hr⟩ | rfl | rfl := hostWriteReg_cases h
    · exact hr.inv hs
    · exact hr.inv hs
    · obtain h | ⟨hb, h⟩ := s.hostWriteInLen_cases u x <;> rw [h]
      · exact hs
      · exact hs.hostWrite hb (hs.shellInv u).inWf (hs.shellInv u).inWithin x
    · exact hs
  | readReg u r => cases h; exact hs.withHost _ _ _
  | readOut u a =>
    cases h
    obtain ⟨as, h | h⟩ := s.hostReadOut_cases u a <;> rw [h]
    · exact hs.withHost _ as _
    · exact (hs.drawByte u).withHost _ as _
  | reset => cases h; exact s.hostReset_inv

theorem agentTurn_inv {g : Agent} {t : State} (h : agentTurn g s = .next t) : t.Inv := by
  cases g with
  | host =>
    obtain rfl | ⟨op, ops, _, h⟩ := hostTurn_cases h
    · exact hs
    · exact hostStep_inv (hs.withHost ops _ _) h
  | enc =>
    obtain rfl | ⟨hb, hr⟩ := encTurn_rule h
    · exact hs
    · exact hr.inv hs hb
  | dec =>
    obtain rfl | ⟨hb, hr⟩ := decTurn_rule h
    · exact hs
    · exact hr.inv hs hb

end

/-- After reset each unit's registers and buffers are those of R40. -/
theorem State.reset_shell (u : UnitId) : State.reset.shell u = Shell.afterReset 0 0 := by
  cases u <;> rfl

/-- Settles O47: each agent's turn keeps the invariant, the units' rule by rule. -/
theorem everyStepKeepsTheInvariant : Obligations.EveryStepKeepsTheInvariant := by
  intro s t hs h
  obtain ⟨g, gs, h⟩ := step_agentTurn h
  exact agentTurn_inv (hs.withHost _ _ gs) h

/-- Settles O46: no unit is BUSY and no byte of a buffer is listed. -/
theorem invariantHoldsAtReset : Obligations.InvariantHoldsAtReset where
  encShellInv := ShellInv.afterReset _ _ _ _
  decShellInv := ShellInv.afterReset _ _ _ _
  encBusy := fun h => by cases h
  decBusy := fun h => by cases h

/-- Settles O37: the registers that R40 gives a value, read off the reset shell. -/
theorem resetStateIsIdle : Obligations.ResetStateIsIdle := by
  intro u
  rw [State.reset_shell]
  exact ⟨rfl, rfl, rfl, rfl, rfl, rfl⟩

end Sys2Proof.Machine
end

section
/-! PROOFS. The input of a BUSY unit: no agent but the host's reset touches it (20_memory.md R73). -/

namespace Sys2Proof.Machine

/-- Two states of a unit's registers and buffers hold the same input. -/
def Shell.SameInput (sh sh' : Shell) : Prop :=
  sh'.inp = sh.inp ∧ sh'.inLen = sh.inLen ∧ sh'.resets = sh.resets

theorem Shell.SameInput.of_eq {sh sh' : Shell} (h : sh' = sh) : sh.SameInput sh' := by
  subst h
  exact ⟨rfl, rfl, rfl⟩

theorem State.Frames.sameInput {v : UnitId} {s t : State} (h : State.Frames v s t) (u : UnitId) :
    (s.shell u).SameInput (t.shell u) := h.input u

theorem State.drawByte_frames (s : State) (u : UnitId) : State.Frames u s (s.drawByte u) :=
  ⟨State.sameBut_setShell s u _, by simp [State.drawByte], by simp [State.drawByte],
    by simp [State.drawByte]⟩

/-- A write to a unit at rest is not to the BUSY one. -/
theorem State.setShell_shell_of_busy {s : State} {u v : UnitId} (hv : (s.shell v).status ≠ .busy)
    (hu : (s.shell u).status = .busy) (sh : Shell) : (s.setShell v sh).shell u = s.shell u :=
  State.sameBut_shell (State.sameBut_setShell s v sh) fun huv => hv (huv ▸ hu)

/-- The host resets the hardware, or leaves a BUSY unit's input alone (42_host_interface.md R213, R215,
R218). -/
theorem hostStep_input {op : HostOp} {s t : State} (h : hostStep op s = .next t) {u : UnitId}
    (hb : (s.shell u).status = .busy) :
    (s.shell u).SameInput (t.shell u) ∨ (op = .reset ∧ (t.shell u).status = .idle) := by
  cases op with
  | writeIn v a b =>
    cases h
    refine .inl (.of_eq ?_)
    obtain h | ⟨hv, _, h⟩ := s.hostWriteIn_cases v a b <;> rw [h]
    exact State.setShell_shell_of_busy hv hb _
  | writeReg v r x =>
    left
    obtain ⟨_, _, _, hr⟩ | ⟨_, _, _, hr⟩ | rfl | rfl := hostWriteReg_cases h
    · exact hr.frames.sameInput u
    · exact hr.frames.sameInput u
    · refine .of_eq ?_
      obtain h | ⟨hv, h⟩ := s.hostWriteInLen_cases v x <;> rw [h]
      exact State.setShell_shell_of_busy hv hb _
    · exact .of_eq rfl
  | readReg v r => cases h; exact .inl (.of_eq (State.shell_with_answers s _ u))
  | readOut v a =>
    cases h
    left
    obtain ⟨as, h | h⟩ := s.hostReadOut_cases v a <;> rw [h, State.shell_with_answers]
    · exact .of_eq rfl
    · exact (s.drawByte_frames v).sameInput u
  | reset => cases h; exact .inr ⟨rfl, by cases u <;> rfl⟩

theorem agentTurn_input {g : Agent} {s t : State} (h : agentTurn g s = .next t) {u : UnitId}
    (hb : (s.shell u).status = .busy) :
    (s.shell u).SameInput (t.shell u) ∨
      (∃ ops, s.pending = .reset :: ops ∧ (t.shell u).status = .idle) := by
  cases g with
  | host =>
    obtain rfl | ⟨op, ops, hp, h⟩ := hostTurn_cases h
    · exact .inl (.of_eq rfl)
    · obtain hin | ⟨rfl, hidle⟩ := hostStep_input (u := u) h (by simpa using hb)
      · exact .inl (by simpa using hin)
      · exact .inr ⟨ops, hp, hidle⟩
  | enc => exact .inl ((encTurn_frames h).sameInput u)
  | dec => exact .inl ((decTurn_frames h).sameInput u)

/-- Settles O43: the units' turns keep every input, and the host's writes reach a unit at rest only. -/
theorem inputIsFrozenDuringAJob : Obligations.InputIsFrozenDuringAJob := by
  intro u s t hb h
  obtain ⟨g, gs, h⟩ := step_agentTurn h
  have hturn := agentTurn_input (u := u) h (by simpa using hb)
  rwa [State.shell_with_turns] at hturn

end Sys2Proof.Machine
end

section
/-! PROOFS. Progress: in a state of the invariant some guard holds for a BUSY unit, no access is out of bounds, and every host operation has its effect (20_memory.md R62, 42_host_interface.md R219). -/

namespace Sys2Proof.Machine

/-! ENC. -/

/-- Between blocks a block is still to be opened, or the job is complete; in a block the cursor is
before its end, or at it (40_encoder.md section 2). -/
theorem EncInv.encStep_next {s : State} (hw : EncInv s.cfg s.encShell s.enc) :
    ∃ t, encStep s = .next t := by
  unfold encStep
  split
  next hin =>
    obtain ⟨-, hend, -, hcur, -, hhdr⟩ := hw.opened hin
    split
    next =>
      have hinside : s.blockInside = true := by
        simp only [State.blockInside, Bool.and_eq_true, decide_eq_true_eq]
        exact ⟨hend.trans_le (min_le_right _ _), hw.nLen.2⟩
      exact ⟨_, if_pos hinside⟩
    next hnot =>
      have hinside : s.hdrInside = true := decide_eq_true (hhdr.trans hw.wpIn.2)
      have hat : s.enc.cur = s.enc.blkEnd := BitVec.eq_of_toNat_eq (hcur.antisymm (not_lt.mp hnot))
      exact ⟨_, (if_pos hat).trans (if_pos hinside)⟩
  next hin =>
    obtain ⟨hblk, -⟩ := hw.closed (by simpa using hin)
    split
    next => exact ⟨_, rfl⟩
    next hnot =>
      have hlast : s.enc.blk = s.enc.nblk := BitVec.eq_of_toNat_eq (hblk.antisymm (not_lt.mp hnot))
      exact ⟨_, if_pos hlast⟩

/-! DEC: each instruction answers a next state where its guard holds. -/

theorem execLit_next {s : State} (v : Byte) (hat : s.atFirstByte = true) :
    ∃ t, execLit v s = .next t := ⟨_, if_pos hat⟩

theorem execEsc_next {s : State} (v : Byte)
    (hat : s.atFirstByte = true ∨ s.inTokState .readEscValue = true) :
    ∃ t, execEsc v s = .next t := by
  unfold execEsc
  split
  next => exact ⟨_, rfl⟩
  next hfirst =>
    rw [if_pos (hat.resolve_left hfirst)]
    split <;> exact ⟨_, rfl⟩

theorem execRun_next {s : State} (n v : Byte)
    (hat : s.atFirstByte = true ∨ s.inTokState .readRunLen = true ∨
      s.inTokState .readRunValue = true) :
    ∃ t, execRun n v s = .next t := by
  unfold execRun
  split
  next => exact ⟨_, rfl⟩
  next hfirst =>
    split
    next => split <;> exact ⟨_, rfl⟩
    next hlen =>
      rw [if_pos ((hat.resolve_left hfirst).resolve_left hlen)]
      split <;> exact ⟨_, rfl⟩

theorem execPayloadLen_next {s : State} (L : Word) (hat : s.atHeader = true) :
    ∃ t, execPayloadLen L s = .next t := by
  unfold execPayloadLen
  rw [if_pos hat]
  split
  next => exact ⟨_, rfl⟩
  next => dsimp only; split <;> exact ⟨_, rfl⟩

theorem execBlockCount_next {s : State} (N : Word) (hidle : s.busy .dec = false)
    (hrp : s.dec.rp = 0) : ∃ t, execBlockCount N s = .next t := by
  unfold execBlockCount
  rw [if_pos (by simp [hidle, hrp])]
  split <;> exact ⟨_, rfl⟩

/-! DEC: the token in progress begins with what DEC has consumed of it, so it decodes to an instruction
whose guard holds. -/

theorem decodeToken_flagEsc {bs rest : List Byte} {i : Instr}
    (h : decodeToken (flagEsc :: bs) = .ok (i, rest)) : ∃ v, i = .esc v := by
  obtain ⟨v, _, hv, _, hbs⟩ | ⟨v, hi, _⟩ | ⟨n, v, _, hbs⟩ := decodeToken_cases h
  · exact absurd (List.cons.inj hbs).1.symm hv
  · exact ⟨v, hi⟩
  · exact absurd (List.cons.inj hbs).1 (by decide)

theorem decodeToken_flagRun {bs rest : List Byte} {i : Instr}
    (h : decodeToken (flagRun :: bs) = .ok (i, rest)) : ∃ n v, i = .run n v := by
  obtain ⟨v, _, _, hv, hbs⟩ | ⟨v, _, hbs⟩ | ⟨n, v, hi, _⟩ := decodeToken_cases h
  · exact absurd (List.cons.inj hbs).1.symm hv
  · exact absurd (List.cons.inj hbs).1 (by decide)
  · exact ⟨n, v, hi⟩

theorem decode_lenField_payloadLen {bs rest : List Byte} {i : Instr}
    (h : decode (.lenField bs) = .ok (i, rest)) : ∃ L, i = .payloadLen L := by
  match bs with
  | [] | [_] | [_, _] | [_, _, _] => cases h
  | b0 :: b1 :: b2 :: b3 :: tail =>
    cases h
    exact ⟨_, rfl⟩

section
variable {s : State}

/-- At a first byte every token may stand (41_decoder.md R175). -/
theorem exec_next_of_atFirstByte {bs rest : List Byte} {i : Instr} (hat : s.atFirstByte = true)
    (hd : decode (.token bs) = .ok (i, rest)) : ∃ t, exec i s = .next t := by
  obtain ⟨v, rfl, _⟩ | ⟨v, rfl, _⟩ | ⟨n, v, rfl, _⟩ := decodeToken_cases hd
  · exact execLit_next v hat
  · exact execEsc_next v (.inl hat)
  · exact execRun_next n v (.inl hat)

/-- A token step finds the guard of the token it decodes: the one of a first byte, or that of the
operand which `D.tok_state` names (41_decoder.md R175, R177, R178). -/
theorem tokenStep_next (hb : s.decShell.status = .busy) (hst : s.dec.tokState ≠ .hdr)
    (hflag : s.dec.tokState = .readFlag → s.dec.rp.toNat < s.dec.payEnd.toNat) :
    ∃ t, tokenStep s = .next t := by
  unfold tokenStep
  split
  next i _ hd =>
    have hin (k : TokState) (hk : s.dec.tokState = k) : s.inTokState k = true :=
      (s.inTokState_iff k).mpr ⟨hb, hk⟩
    cases hk : s.dec.tokState with
    | hdr => exact absurd hk hst
    | readFlag => exact exec_next_of_atFirstByte (s.atFirstByte_iff.mpr ⟨hb, hk, hflag hk⟩) hd
    | readEscValue =>
      simp only [State.tokenBytes, DecWork.consumed, hk] at hd
      obtain ⟨v, rfl⟩ := decodeToken_flagEsc hd
      exact execEsc_next v (.inr (hin _ hk))
    | readRunLen =>
      simp only [State.tokenBytes, DecWork.consumed, hk] at hd
      obtain ⟨n, v, rfl⟩ := decodeToken_flagRun hd
      exact execRun_next n v (.inr (.inl (hin _ hk)))
    | readRunValue =>
      simp only [State.tokenBytes, DecWork.consumed, hk] at hd
      obtain ⟨n, v, rfl⟩ := decodeToken_flagRun hd
      exact execRun_next n v (.inr (.inr (hin _ hk)))
  next => exact ⟨_, rfl⟩

theorem headerStep_next (hat : s.atHeader = true) : ∃ t, headerStep s = .next t := by
  unfold headerStep
  split
  next hd =>
    obtain ⟨L, rfl⟩ := decode_lenField_payloadLen hd
    exact execPayloadLen_next L hat
  next => exact ⟨_, rfl⟩

namespace DecInv

variable (hw : DecInv s.cfg s.decShell s.dec)
include hw

theorem readInside : s.readInside = true := by
  simp only [State.readInside, Bool.and_eq_true, decide_eq_true_eq]
  exact ⟨hw.rpIn, hw.nLen.2⟩

theorem payloadInside (hst : s.dec.tokState ≠ .hdr) : s.payloadInside = true := by
  obtain ⟨-, hrp, hpay⟩ := hw.inBlock hst
  simp only [State.payloadInside, Bool.and_eq_true, decide_eq_true_eq]
  exact ⟨hrp, hpay⟩

/-- DEC's guards follow `D.tok_state`: the header, or a token inside the payload (41_decoder.md
section 2). -/
theorem decStep_next (hb : s.decShell.status = .busy) : ∃ t, decStep s = .next t := by
  unfold decStep
  rw [if_neg (by simp [hw.readInside])]
  have hpay (hst : s.dec.tokState ≠ .hdr) : ¬ (!s.payloadInside) = true := by
    simp [hw.payloadInside hst]
  cases hk : s.dec.tokState with
  | hdr =>
    dsimp only
    split
    next => exact ⟨_, rfl⟩
    next hblk =>
      have hpos : 0 < s.dec.blkRem.toNat :=
        Nat.pos_of_ne_zero fun h0 => hblk (BitVec.eq_of_toNat_eq h0)
      exact headerStep_next (s.atHeader_iff.mpr ⟨hb, hk, hpos⟩)
  | readFlag =>
    have hst : s.dec.tokState ≠ .hdr := by simp [hk]
    dsimp only
    rw [if_neg (hpay hst)]
    split
    next => exact ⟨_, rfl⟩
    next hend =>
      exact tokenStep_next hb hst fun _ => (hw.rp_succ hst (mt s.atPayloadEnd_iff.mpr hend)).2
  | readEscValue | readRunLen | readRunValue =>
    have hst : s.dec.tokState ≠ .hdr := by simp [hk]
    dsimp only
    rw [if_neg (hpay hst)]
    exact tokenStep_next hb hst (by simp [hk])

end DecInv

end

/-! The host: no operation stops, in any state. -/

section
variable (s : State)

theorem execCompress_next (x : Word) : ∃ t, execCompress x s = .next t := by
  unfold execCompress
  split
  next => exact ⟨_, rfl⟩
  next => dsimp only; split <;> exact ⟨_, rfl⟩

/-- A job start reads BLOCK_COUNT where its guard holds: `D.rp` is 0 and DEC not yet BUSY
(41_decoder.md R172). -/
theorem execDecompress_next (x : Word) : ∃ t, execDecompress x s = .next t := by
  unfold execDecompress
  split
  next => exact ⟨_, rfl⟩
  next hgo =>
    obtain ⟨-, hidle⟩ : startBit x = true ∧ s.busy .dec = false := by simpa using hgo
    dsimp only
    split
    next => exact ⟨_, rfl⟩
    next =>
      split
      next => exact ⟨_, rfl⟩
      next => exact execBlockCount_next _ hidle rfl

theorem hostWriteReg_next (u : UnitId) (r : Nat) (x : Word) : ∃ t, hostWriteReg u r x s = .next t := by
  unfold hostWriteReg
  split
  next hd =>
    obtain ⟨-, -, -, ⟨-, rfl⟩ | ⟨-, rfl⟩⟩ := decode_regWrite_cases hd
    · exact execCompress_next s x
    · exact execDecompress_next s x
  next => split <;> exact ⟨_, rfl⟩

theorem hostStep_next (op : HostOp) : ∃ t, hostStep op s = .next t := by
  cases op with
  | writeReg u r x => exact hostWriteReg_next s u r x
  | writeIn | readReg | readOut | reset => exact ⟨_, rfl⟩

theorem hostTurn_next : ∃ t, hostTurn s = .next t := by
  unfold hostTurn
  split
  next => exact ⟨_, rfl⟩
  next op ops _ => exact hostStep_next _ op

end

/-! The step of the whole machine. -/

section
variable {s : State} (hs : s.Inv)
include hs

theorem State.Inv.encTurn_next : ∃ t, encTurn s = .next t := by
  unfold encTurn
  split
  next hb => exact (hs.encBusy ((s.busy_iff .enc).mp hb)).encStep_next
  next => exact ⟨_, rfl⟩

theorem State.Inv.decTurn_next : ∃ t, decTurn s = .next t := by
  unfold decTurn
  split
  next hb =>
    have hb := (s.busy_iff .dec).mp hb
    exact (hs.decBusy hb).decStep_next hb
  next => exact ⟨_, rfl⟩

theorem State.Inv.agentTurn_next (g : Agent) : ∃ t, agentTurn g s = .next t := by
  cases g with
  | host => exact hostTurn_next s
  | enc => exact hs.encTurn_next
  | dec => exact hs.decTurn_next

end

/-- Settles O48: whichever agent moves, its turn answers a next state. -/
theorem noStepStopsUnderTheInvariant : Obligations.NoStepStopsUnderTheInvariant := by
  intro s hs
  unfold step
  split
  next => exact hs.agentTurn_next s.nextAgent
  next g gs _ => exact (hs.withHost _ _ gs).agentTurn_next g

end Sys2Proof.Machine
end

section
/-! PROOFS. The decoder and the encoder of single items agree: what each token, field and command decodes from, and what is rejected (30_encoding.md R91 to R108). -/

namespace Sys2Proof
open Machine

/-! The flag bytes. -/

theorem eq_flagEsc_iff (v : Byte) : v = flagEsc ↔ v.toNat = 255 := by rw [← BitVec.toNat_inj]; rfl

theorem eq_flagRun_iff (v : Byte) : v = flagRun ↔ v.toNat = 254 := by rw [← BitVec.toNat_inj]; rfl

theorem Instr.wellFormed_lit_iff (v : Byte) :
    (Instr.lit v).wellFormed = true ↔ v ≠ flagEsc ∧ v ≠ flagRun := by
  simp [Instr.wellFormed, and_comm]

/-- A literal is no flag byte: at most 253 (30_encoding.md R94). -/
theorem Instr.wellFormed_lit_iff_le (v : Byte) :
    (Instr.lit v).wellFormed = true ↔ v.toNat ≤ 253 := by
  have hv := v.isLt
  rw [Instr.wellFormed_lit_iff, Ne, Ne, eq_flagEsc_iff, eq_flagRun_iff]
  omega

/-! Tokens: `decodeToken` has one equation for each format, and each has its truncated forms. -/

theorem decodeToken_esc (v : Byte) (rest : List Byte) :
    decodeToken (flagEsc :: v :: rest) = .ok (.esc v, rest) := rfl

theorem decodeToken_run (n v : Byte) (rest : List Byte) :
    decodeToken (flagRun :: n :: v :: rest) = .ok (.run n v, rest) := rfl

theorem decodeToken_lit {v : Byte} (h : (Instr.lit v).wellFormed = true) (rest : List Byte) :
    decodeToken (v :: rest) = .ok (.lit v, rest) := by
  obtain ⟨hesc, hrun⟩ := (Instr.wellFormed_lit_iff v).mp h
  exact (if_neg hesc).trans (if_neg hrun)

/-- A well-formed token is read back, whatever follows it (30_encoding.md R97). -/
theorem decodeToken_bytes_append {i : Instr} (htok : i.isToken = true) (hwf : i.wellFormed = true)
    (rest : List Byte) : decodeToken (i.bytes ++ rest) = .ok (i, rest) := by
  cases i with
  | lit v => exact decodeToken_lit hwf rest
  | esc v => exact decodeToken_esc v rest
  | run n v => exact decodeToken_run n v rest
  | blockCount | payloadLen | compress | decompress => cases htok

/-- What decodes to a token begins with that token's bytes (30_encoding.md R93, R98). -/
theorem decodeToken_sound {bs rest : List Byte} {i : Instr} (h : decodeToken bs = .ok (i, rest)) :
    i.isToken = true ∧ i.wellFormed = true ∧ bs = i.bytes ++ rest := by
  obtain ⟨v, rfl, hesc, hrun, rfl⟩ | ⟨v, rfl, rfl⟩ | ⟨n, v, rfl, rfl⟩ := decodeToken_cases h
  · exact ⟨rfl, (Instr.wellFormed_lit_iff v).mpr ⟨hesc, hrun⟩, rfl⟩
  · exact ⟨rfl, rfl, rfl⟩
  · exact ⟨rfl, rfl, rfl⟩

/-- The token forms that lack a byte (30_encoding.md R102). -/
theorem decodeToken_error_iff (bs : List Byte) :
    (∃ e, decodeToken bs = .error e) ↔
      bs = [] ∨ bs = [flagEsc] ∨ bs = [flagRun] ∨ ∃ n, bs = [flagRun, n] := by
  constructor
  · rintro ⟨e, h⟩
    match bs with
    | [] => exact .inl rfl
    | f :: tail =>
      by_cases hesc : f = flagEsc
      · subst hesc
        match tail with
        | [] => exact .inr (.inl rfl)
        | v :: rest => cases h
      · by_cases hrun : f = flagRun
        · subst hrun
          match tail with
          | [] => exact .inr (.inr (.inl rfl))
          | [n] => exact .inr (.inr (.inr ⟨n, rfl⟩))
          | n :: v :: rest => cases h
        · rw [decodeToken_lit ((Instr.wellFormed_lit_iff f).mpr ⟨hesc, hrun⟩)] at h
          cases h
  · rintro (rfl | rfl | rfl | ⟨n, rfl⟩) <;> exact ⟨_, rfl⟩

/-! The 32-bit fields: `be32` and `ube32` are inverse (20_memory.md R63). -/

theorem ube32_toNat (b0 b1 b2 b3 : Byte) : (ube32 b0 b1 b2 b3).toNat =
    b0.toNat * 2 ^ 24 + b1.toNat * 2 ^ 16 + b2.toNat * 2 ^ 8 + b3.toNat := by
  have h0 := b0.isLt
  have h1 := b1.isLt
  have h2 := b2.isLt
  have h3 := b3.isLt
  rw [ube32, BitVec.toNat_ofNat, Nat.mod_eq_of_lt (by omega)]

@[simp] theorem be32_length (w : Word) : (be32 w).length = 4 := rfl

theorem be32_ube32 (b0 b1 b2 b3 : Byte) : be32 (ube32 b0 b1 b2 b3) = [b0, b1, b2, b3] := by
  have h0 := b0.isLt
  have h1 := b1.isLt
  have h2 := b2.isLt
  have h3 := b3.isLt
  simp only [be32, ube32_toNat, List.cons.injEq, ← BitVec.toNat_inj, BitVec.toNat_ofNat, and_true]
  omega

theorem ube32_of_be32 {w : Word} {b0 b1 b2 b3 : Byte} (h : be32 w = [b0, b1, b2, b3]) :
    ube32 b0 b1 b2 b3 = w := by
  have hw := w.isLt
  simp only [be32, List.cons.injEq, and_true] at h
  obtain ⟨rfl, rfl, rfl, rfl⟩ := h
  simp only [← BitVec.toNat_inj, ube32_toNat, BitVec.toNat_ofNat]
  omega

@[simp] theorem decode_countField_be32 (N : Word) (rest : List Byte) :
    decode (.countField (be32 N ++ rest)) = .ok (.blockCount N, rest) :=
  congrArg (fun w => Except.ok (Instr.blockCount w, rest)) (ube32_of_be32 (w := N) rfl)

@[simp] theorem decode_lenField_be32 (L : Word) (rest : List Byte) :
    decode (.lenField (be32 L ++ rest)) = .ok (.payloadLen L, rest) :=
  congrArg (fun w => Except.ok (Instr.payloadLen w, rest)) (ube32_of_be32 (w := L) rfl)

/-- A list of bytes is too short for a field, or begins with a field's four bytes. -/
theorem length_lt_four_or_be32_append (bs : List Byte) :
    bs.length < 4 ∨ ∃ (w : Word) (rest : List Byte), bs = be32 w ++ rest := by
  match bs with
  | [] | [_] | [_, _] | [_, _, _] => simp
  | b0 :: b1 :: b2 :: b3 :: rest =>
    exact .inr ⟨ube32 b0 b1 b2 b3, rest, by rw [be32_ube32]; rfl⟩

theorem decode_countField_of_length_lt {bs : List Byte} (h : bs.length < 4) :
    decode (.countField bs) = .error .countTruncated := by
  match bs, h with
  | [], _ | [_], _ | [_, _], _ | [_, _, _], _ => rfl

theorem decode_lenField_of_length_lt {bs : List Byte} (h : bs.length < 4) :
    decode (.lenField bs) = .error .lenTruncated := by
  match bs, h with
  | [], _ | [_], _ | [_, _], _ | [_, _, _], _ => rfl

/-! Any instruction. -/

@[simp] theorem Source.followedBy_nil (src : Source) : src.followedBy [] = src := by
  cases src with
  | countField bs | lenField bs | token bs => simp [Source.followedBy]
  | regWrite u r x => rfl

/-- Decoding undoes encoding; only an instruction that has bytes can have bytes after it. -/
theorem decode_encode_followedBy {i : Instr} (hwf : i.wellFormed = true) {rest : List Byte}
    (hrest : i.bytes = [] → rest = []) : decode ((encode i).followedBy rest) = .ok (i, rest) := by
  cases i with
  | lit v => exact decodeToken_lit hwf rest
  | esc v => exact decodeToken_esc v rest
  | run n v => exact decodeToken_run n v rest
  | blockCount N => exact decode_countField_be32 N rest
  | payloadLen L => exact decode_lenField_be32 L rest
  | compress x | decompress x =>
    have hstart : startBit x = true := hwf
    simp [encode, Source.followedBy, decode, hstart, hrest rfl]

/-- Settles O4: both halves are `decode_encode_followedBy`, the first with nothing following. -/
theorem decodeOfEncodeIsTheInstruction : Obligations.DecodeOfEncodeIsTheInstruction := by
  intro i rest hwf
  constructor
  · have h := decode_encode_followedBy hwf (rest := []) fun _ => rfl
    rwa [Source.followedBy_nil] at h
  · exact fun hbytes => decode_encode_followedBy hwf fun hnil => absurd hnil hbytes

/-- Settles O5, source by source: a field is split into its four bytes and the rest, a token and a
command by what they decode from. -/
theorem decodedBitsAreTheEncoding : Obligations.DecodedBitsAreTheEncoding := by
  intro src i rest h
  cases src with
  | countField bs =>
    obtain hlt | ⟨N, tail, rfl⟩ := length_lt_four_or_be32_append bs
    · rw [decode_countField_of_length_lt hlt] at h
      cases h
    · rw [decode_countField_be32] at h
      cases h
      exact ⟨rfl, rfl⟩
  | lenField bs =>
    obtain hlt | ⟨L, tail, rfl⟩ := length_lt_four_or_be32_append bs
    · rw [decode_lenField_of_length_lt hlt] at h
      cases h
    · rw [decode_lenField_be32] at h
      cases h
      exact ⟨rfl, rfl⟩
  | token bs =>
    obtain ⟨htok, hwf, rfl⟩ := decodeToken_sound h
    refine ⟨hwf, ?_⟩
    cases i with
    | lit | esc | run => rfl
    | blockCount | payloadLen | compress | decompress => cases htok
  | regWrite u r x =>
    obtain ⟨rfl, hstart, rfl, ⟨rfl, rfl⟩ | ⟨rfl, rfl⟩⟩ := decode_regWrite_cases h
    · exact ⟨hstart, rfl⟩
    · exact ⟨hstart, rfl⟩

/-- Settles O1: the nine words are evaluated. -/
theorem writtenWordsDecode : Obligations.WrittenWordsDecode := by
  unfold Obligations.WrittenWordsDecode
  decide

/-- Settles O2: each range of the first byte has its own equation of `decodeToken`. -/
theorem firstByteSelectsToken : Obligations.FirstByteSelectsToken := by
  intro f x y rest
  refine ⟨fun hf => ?_, fun hf => ?_, fun hf => ?_⟩
  · rw [(eq_flagEsc_iff f).mpr hf]
    exact decodeToken_esc x (y :: rest)
  · rw [(eq_flagRun_iff f).mpr hf]
    exact decodeToken_run x y rest
  · exact decodeToken_lit ((Instr.wellFormed_lit_iff_le f).mpr hf) (x :: y :: rest)

theorem decode_countField_error_iff (bs : List Byte) :
    (∃ e, decode (.countField bs) = .error e) ↔ bs.length < 4 := by
  obtain hlt | ⟨N, tail, rfl⟩ := length_lt_four_or_be32_append bs
  · simp [decode_countField_of_length_lt hlt, hlt]
  · simp

theorem decode_lenField_error_iff (bs : List Byte) :
    (∃ e, decode (.lenField bs) = .error e) ↔ bs.length < 4 := by
  obtain hlt | ⟨L, tail, rfl⟩ := length_lt_four_or_be32_append bs
  · simp [decode_lenField_of_length_lt hlt, hlt]
  · simp

/-- Settles O3, place by place. -/
theorem onlyTruncatedBytesAreRejected : Obligations.OnlyTruncatedBytesAreRejected := fun bs =>
  ⟨decodeToken_error_iff bs, decode_countField_error_iff bs, decode_lenField_error_iff bs⟩

end Sys2Proof
end

section
/-! PROOFS. Payloads: the division into tokens undoes `encodeTokens`, and the encoder's tokens are canonical (30_encoding.md R100, R104). -/

namespace Sys2Proof
open Machine

/-! Every token has a byte, so a payload's length is fuel enough for its tokens. -/

theorem Instr.bytes_ne_nil {i : Instr} (htok : i.isToken = true) : i.bytes ≠ [] := by
  cases i with
  | lit | esc | run => exact List.cons_ne_nil _ _
  | blockCount | payloadLen | compress | decompress => cases htok

theorem length_le_encodeTokens {ts : List Instr} (h : ∀ i ∈ ts, i.isToken = true) :
    ts.length ≤ (encodeTokens ts).length := by
  induction ts with
  | nil => rfl
  | cons i is ih =>
    obtain ⟨hi, his⟩ := List.forall_mem_cons.mp h
    have hpos := List.length_pos_iff.mpr (Instr.bytes_ne_nil hi)
    have hle := ih his
    simp only [encodeTokens, List.length_append, List.length_cons]
    omega

/-! `decodeTokens`, one token at a time. -/

@[simp] theorem decodeTokens_nil (fuel : Nat) : decodeTokens fuel [] = .ok [] := by
  cases fuel <;> rfl

theorem decodeTokens_cons_of_ok {fuel : Nat} {bs rest : List Byte} {i : Instr} {is : List Instr}
    (hi : decodeToken bs = .ok (i, rest)) (his : decodeTokens fuel rest = .ok is) :
    decodeTokens (fuel + 1) bs = .ok (i :: is) := by
  match bs with
  | [] => cases hi
  | b :: bs => simp only [decodeTokens, hi, his]

/-- A payload that is read as tokens is empty, or begins with one token and goes on with the others. -/
theorem decodeTokens_cases {fuel : Nat} {bs : List Byte} {ts : List Instr}
    (h : decodeTokens fuel bs = .ok ts) :
    (bs = [] ∧ ts = []) ∨
    ∃ k i rest is, fuel = k + 1 ∧ ts = i :: is ∧ decodeToken bs = .ok (i, rest) ∧
      decodeTokens k rest = .ok is := by
  match fuel, bs with
  | fuel, [] =>
    rw [decodeTokens_nil] at h
    cases h
    exact .inl ⟨rfl, rfl⟩
  | 0, _ :: _ => cases h
  | k + 1, b :: bs =>
    simp only [decodeTokens] at h
    split at h
    next => cases h
    next i rest hi =>
      split at h
      next => cases h
      next is his =>
        cases h
        exact .inr ⟨k, i, rest, is, rfl, rfl, hi, his⟩

/-- With fuel for each token, the bytes of a sequence are read back as the sequence. -/
theorem decodeTokens_encodeTokens {ts : List Instr}
    (h : ∀ i ∈ ts, i.isToken = true ∧ i.wellFormed = true) {fuel : Nat} (hfuel : ts.length ≤ fuel) :
    decodeTokens fuel (encodeTokens ts) = .ok ts := by
  induction ts generalizing fuel with
  | nil => exact decodeTokens_nil fuel
  | cons i is ih =>
    obtain ⟨⟨htok, hwf⟩, his⟩ := List.forall_mem_cons.mp h
    obtain ⟨k, rfl⟩ := Nat.exists_eq_add_of_le' (Nat.one_le_of_lt hfuel)
    exact decodeTokens_cons_of_ok (decodeToken_bytes_append htok hwf (encodeTokens is))
      (ih his (Nat.le_of_succ_le_succ hfuel))

/-- Tokens read from a payload are well formed, and their bytes are the payload. -/
theorem decodeTokens_sound {fuel : Nat} {bs : List Byte} {ts : List Instr}
    (h : decodeTokens fuel bs = .ok ts) :
    encodeTokens ts = bs ∧ ∀ i ∈ ts, i.isToken = true ∧ i.wellFormed = true := by
  induction ts generalizing fuel bs with
  | nil =>
    obtain ⟨rfl, -⟩ | ⟨_, _, _, _, _, hts, -⟩ := decodeTokens_cases h
    · exact ⟨rfl, by simp⟩
    · cases hts
  | cons i is ih =>
    obtain ⟨-, hts⟩ | ⟨k, _, rest, _, -, hts, hi, his⟩ := decodeTokens_cases h
    · cases hts
    · cases hts
      obtain ⟨htok, hwf, rfl⟩ := decodeToken_sound hi
      obtain ⟨rfl, hall⟩ := ih his
      exact ⟨rfl, List.forall_mem_cons.mpr ⟨⟨htok, hwf⟩, hall⟩⟩

theorem parsePayload_encodeTokens {ts : List Instr}
    (h : ∀ i ∈ ts, i.isToken = true ∧ i.wellFormed = true) :
    parsePayload (encodeTokens ts) = .ok ts :=
  decodeTokens_encodeTokens h (length_le_encodeTokens fun i hi => (h i hi).1)

/-- Settles O6, by induction on the tokens in both directions. -/
theorem payloadHasOneDivisionIntoTokens : Obligations.PayloadHasOneDivisionIntoTokens :=
  ⟨fun _ h => parsePayload_encodeTokens h, fun _ _ h => decodeTokens_sound h⟩

/-! The encoder's tokens. -/

/-- A canonical token is one the format admits (30_encoding.md R100, R105). -/
theorem Instr.wellFormed_of_canonical {i : Instr} (h : i.canonical = true) :
    i.isToken = true ∧ i.wellFormed = true := by
  cases i with
  | lit v => exact ⟨rfl, (Instr.wellFormed_lit_iff_le v).mpr (of_decide_eq_true h)⟩
  | esc | run => exact ⟨rfl, rfl⟩
  | blockCount | payloadLen | compress | decompress => cases h

/-- Whatever the run, the encoder's choice is canonical (40_encoder.md R137, R148). -/
theorem chooseToken_canonical (r v : Byte) : (chooseToken r v).canonical = true := by
  unfold chooseToken
  split
  next hr => exact decide_eq_true hr
  next =>
    split
    next hv => exact decide_eq_true hv
    next hv => exact decide_eq_true (by omega)

theorem canonical_of_mem_blockTokens {fuel i : Nat} {bs : List Byte} {p : Nat × Instr}
    (h : p ∈ blockTokens fuel i bs) : p.2.canonical = true := by
  induction fuel generalizing i bs with
  | zero => cases h
  | succ fuel ih =>
    cases bs with
    | nil => cases h
    | cons v bs =>
      obtain rfl | htail := List.mem_cons.mp h
      · exact chooseToken_canonical _ v
      · exact ih htail

/-- Settles O52: the tokens of the block are canonical, so they are well formed and are read back. -/
theorem encodedBlocksAreCanonical : Obligations.EncodedBlocksAreCanonical := by
  intro b
  have hcanon : ∀ i ∈ (blockTokens b.length 0 b).map Prod.snd, i.canonical = true :=
    List.forall_mem_map.mpr fun _ hp => canonical_of_mem_blockTokens hp
  exact ⟨_, parsePayload_encodeTokens fun i hi => Instr.wellFormed_of_canonical (hcanon i hi), hcanon⟩

end Sys2Proof
end

section
/-! PROOFS. The encoder's choice at its cursor: the counted run, the token emitted for it, and the bytes that token stands for (40_encoder.md R131, R136 to R141). -/

namespace Sys2Proof.Machine

/-! The token and the advance, by the length of the run. -/

theorem chooseToken_of_three_le {r : Byte} (h : 3 ≤ r.toNat) (v : Byte) : chooseToken r v = .run r v :=
  if_pos h

theorem chooseToken_of_lt_three {r : Byte} (h : r.toNat < 3) (v : Byte) :
    chooseToken r v = if 254 ≤ v.toNat then .esc v else .lit v :=
  if_neg (not_le.mpr h)

theorem advanceOf_of_three_le {r : Byte} (h : 3 ≤ r.toNat) : advanceOf r = r.toNat := if_pos h

theorem advanceOf_of_lt_three {r : Byte} (h : r.toNat < 3) : advanceOf r = 1 := if_neg (not_le.mpr h)

/-- Every token stands for at least one byte (40_encoder.md R141). -/
theorem advanceOf_pos (r : Byte) : 1 ≤ advanceOf r := by
  obtain h | h := lt_or_ge r.toNat 3
  · exact (advanceOf_of_lt_three h).ge
  · rw [advanceOf_of_three_le h]
    omega

/-! The counted run. -/

/-- There is one counted run at a cursor (40_encoder.md R131). -/
theorem IsRunLen.unique {s : State} {u : UnitId} {i stop q r : Nat} (hq : IsRunLen s u i stop q)
    (hr : IsRunLen s u i stop r) : q = r :=
  (hr.largest q hq.cap hq.same).antisymm (hq.largest r hr.cap hr.same)

/-- Settles O27: `runFrom` counts bytes equal to the one at the cursor and leaves none uncounted. -/
theorem encCountsTheRunAtTheCursor : Obligations.EncCountsTheRunAtTheCursor := by
  intro s hcur
  have hlargest : ∀ q, q ≤ min maxRun (s.enc.blkEnd.toNat - s.enc.cur.toNat) →
      (∀ j < q, s.readIn .enc (s.enc.cur.toNat + j) = s.readIn .enc s.enc.cur.toNat) →
      q ≤ s.runLen := fun q => s.runFrom_largest .enc _ _ _ q
  refine ⟨hlargest 1 ?_ ?_, s.runFrom_le _ _ _ _, fun j => s.runFrom_same _ _ _ _ j, hlargest⟩
  · exact le_min (by decide) (Nat.sub_pos_of_lt hcur)
  · intro j hj
    rw [Nat.lt_one_iff.mp hj, Nat.add_zero]

end Sys2Proof.Machine
end

section
/-! PROOFS. ENC's own steps, each with its guard: what it writes, or that it fails for want of room (40_encoder.md R135 to R144). -/

namespace Sys2Proof.Machine

/-! Output, by the room there is. -/

section
variable {s : State} {u : UnitId} {bs : List Byte} (pos : Word) (after : State → State)

theorem State.emit_of_room (h : bs.length ≤ s.room u) : s.emit u pos bs after = after (s.put u bs) :=
  if_neg (not_lt.mpr h)

theorem State.emit_of_no_room (h : bs.length > s.room u) :
    s.emit u pos bs after = s.raise u .outOverflow pos :=
  if_pos h

end

/-! Faults and stores. -/

/-- After operations inside a unit, a fault of that unit is a fault from the state before them
(60_exceptions.md R251). -/
theorem State.Frames.failsWith_raise {u : UnitId} {s t : State} (h : State.Frames u s t) (c : Cause)
    (pos : Word) : FailsWith u c pos s (t.raise u c pos) := by
  have hframes := h.trans (State.raise_frames t u c pos)
  refine ⟨?_, ?_, ?_, State.raise_status t u c pos, hframes.inp, hframes.inLen, hframes.resets,
    hframes.rest⟩ <;> rw [State.raise_shell]

theorem State.raise_failsWith (s : State) (u : UnitId) (c : Cause) (pos : Word) :
    FailsWith u c pos s (s.raise u c pos) :=
  (State.Frames.refl u s).failsWith_raise c pos

/-- A change of ENC's working registers alone moves ENC without a store. -/
theorem State.setEnc_encMoves (s : State) (e : EncWork) : EncMoves e 0 [] s (s.setEnc e) :=
  ⟨rfl, Memory.stores_refl _ 0, rfl, State.sameBut_setEnc s e⟩

/-- A store, and a change of ENC's working registers. -/
theorem State.writeOut_setEnc_encMoves (s : State) (e : EncWork) (a : Nat) (bs : List Byte) :
    EncMoves e a bs s ((s.writeOut .enc a bs).setEnc e) :=
  ⟨rfl, Memory.stores_setMany _ a bs, rfl,
    ((State.writeOut_frames s .enc a bs).trans (State.setEnc_frames _ e)).rest⟩

/-! The turns of BUSY ENC, guard by guard (40_encoder.md section 2). -/

section
variable {s : State} (hb : s.encShell.status = .busy)
include hb

theorem encTurn_of_busy : encTurn s = encStep s := if_pos ((s.busy_iff .enc).mpr hb)

theorem encTurn_openBlock (hin : s.enc.inBlk = false) (hblk : s.enc.blk.toNat < s.enc.nblk.toNat) :
    encTurn s = .next s.openBlock := by
  simp [encTurn_of_busy hb, encStep, hin, hblk]

theorem encTurn_emitToken (hin : s.enc.inBlk = true) (hcur : s.enc.cur.toNat < s.enc.blkEnd.toNat)
    (hend : s.enc.blkEnd.toNat ≤ s.enc.n.toNat) (hn : s.enc.n.toNat ≤ s.inCap .enc) :
    encTurn s = .next s.emitToken := by
  simp [encTurn_of_busy hb, encStep, hin, hcur, State.blockInside, hend, hn]

theorem encTurn_closeBlock (hin : s.enc.inBlk = true) (hcur : s.enc.cur = s.enc.blkEnd)
    (hhdr : s.enc.hdr.toNat + lenBytes ≤ s.outCap .enc) : encTurn s = .next s.closeBlock := by
  simp [encTurn_of_busy hb, encStep, hin, hcur, State.hdrInside, hhdr]

theorem encTurn_complete (hin : s.enc.inBlk = false) (hblk : s.enc.blk = s.enc.nblk) :
    encTurn s = .next (s.complete .enc) := by
  simp [encTurn_of_busy hb, encStep, hin, hblk]

end

/-- Settles O26: the room is checked first, and the block's end does not wrap. -/
theorem encOpensABlock : Obligations.EncOpensABlock := by
  intro s hb hin hblk
  have hturn := encTurn_openBlock hb hin hblk
  refine ⟨fun hroom => ?_, fun hroom => ?_⟩
  · have hopen : s.openBlock = s.raise .enc .outOverflow s.enc.cur := if_pos hroom
    exact ⟨_, hturn, hopen ▸ s.raise_failsWith .enc _ _⟩
  · have hopen : s.openBlock = s.setEnc _ := if_neg (not_lt.mpr hroom)
    have hcur := s.enc.cur.isLt
    have hn := s.enc.n.isLt
    exact ⟨_, _, hturn, toNat_add_ofNat (by omega), hopen ▸ s.setEnc_encMoves _⟩

/-- Settles O29: the length of the payload is the distance of the write pointer from the field's end. -/
theorem encClosesABlock : Obligations.EncClosesABlock := by
  intro s hb hin hcur hhdr hwp
  refine ⟨_, s.enc.wp - s.enc.hdr - 4, encTurn_closeBlock hb hin hcur (hhdr.trans hwp), ?_,
    s.writeOut_setEnc_encMoves _ _ _⟩
  bv_omega

/-- Settles O30: ENC's shell after the completion is not BUSY. -/
theorem encCompletesTheJob : Obligations.EncCompletesTheJob := fun s hb hin hblk =>
  ⟨_, encTurn_complete hb hin hblk, rfl, State.complete_sameBut s .enc, rfl⟩

/-! The token step. -/

/-- ENC emits the chosen token and moves past what it stands for, or fails for want of room. -/
theorem encTurn_emitToken_spec {s : State} (hb : s.encShell.status = .busy) (hin : s.enc.inBlk = true)
    (hcur : s.enc.cur.toNat < s.enc.blkEnd.toNat) (hend : s.enc.blkEnd.toNat ≤ s.enc.n.toNat)
    (hn : s.enc.n.toNat ≤ s.inCap .enc) {i : Instr} {k : Nat}
    (htoken : chooseToken (BitVec.ofNat 8 s.runLen) (s.readIn .enc s.enc.cur.toNat) = i)
    (hadvance : advanceOf (BitVec.ofNat 8 s.runLen) = k) :
    (i.bytes.length ≤ s.room .enc → ∃ t, encTurn s = .next t ∧
      EncMoves { s.enc with runVal := s.readIn .enc s.enc.cur.toNat,
                            runCnt := BitVec.ofNat 8 s.runLen,
                            wp := s.enc.wp + BitVec.ofNat 32 i.bytes.length,
                            cur := s.enc.cur + BitVec.ofNat 32 k }
        s.enc.wp.toNat i.bytes s t) ∧
    (i.bytes.length > s.room .enc → ∃ t, encTurn s = .next t ∧
      FailsWith .enc .outOverflow s.enc.cur s t) := by
  subst htoken hadvance
  have hturn := encTurn_emitToken hb hin hcur hend hn
  refine ⟨fun hroom => ?_, fun hroom => ?_⟩
  · have hemit : s.emitToken = (s.scan.put .enc _).advance :=
      State.emit_of_room (s := s.scan) _ State.advance hroom
    rw [hemit] at hturn
    refine ⟨_, hturn, rfl, Memory.stores_setMany _ _ _, rfl, ?_⟩
    exact ((State.setEnc_frames s _).trans
      ((State.put_frames _ .enc _).trans (State.setEnc_frames _ _))).rest
  · have hemit : s.emitToken = s.scan.raise .enc .outOverflow s.enc.cur :=
      State.emit_of_no_room (s := s.scan) _ State.advance hroom
    rw [hemit] at hturn
    exact ⟨_, hturn, (State.setEnc_frames s _).failsWith_raise _ _⟩

/-- Settles O28: `r` is the run that ENC counts, and its length and value choose the token. -/
theorem encEmitsTheChosenToken : Obligations.EncEmitsTheChosenToken := by
  intro s r hb hin hcur hend hn hr
  obtain rfl : r = s.runLen := hr.unique (encCountsTheRunAtTheCursor s hcur)
  have hcap : s.runLen ≤ 255 := hr.cap.trans (min_le_left _ _)
  have hcnt : (BitVec.ofNat 8 s.runLen).toNat = s.runLen := by
    rw [BitVec.toNat_ofNat, Nat.mod_eq_of_lt (by omega)]
  refine ⟨fun hrun => ?_, fun hrun hv => ?_, fun hrun hv => ?_⟩ <;> rw [← hcnt] at hrun
  · exact encTurn_emitToken_spec hb hin hcur hend hn (chooseToken_of_three_le hrun _)
      ((advanceOf_of_three_le hrun).trans hcnt)
  · exact encTurn_emitToken_spec hb hin hcur hend hn
      ((chooseToken_of_lt_three hrun _).trans (if_neg (by omega))) (advanceOf_of_lt_three hrun)
  · exact encTurn_emitToken_spec hb hin hcur hend hn
      ((chooseToken_of_lt_three hrun _).trans (if_pos hv)) (advanceOf_of_lt_three hrun)

end Sys2Proof.Machine
end

section
/-! PROOFS. The COMPRESS command: the job start and its two faults (42_host_interface.md R211, 40_encoder.md R132). -/

namespace Sys2Proof.Machine

theorem blockCountOf_eq (n : Nat) : blockCountOf n = (n + 262143) / 262144 :=
  congrArg (· / 262144) (Nat.add_sub_assoc (by decide) n)

/-- ENC at a job's start, before the BLOCK_COUNT field is written. -/
def State.encStarted (s : State) : State := (s.accept .enc).encStart

theorem State.encStarted_frames (s : State) : State.Frames .enc s s.encStarted :=
  (State.accept_frames s .enc).trans (State.setEnc_frames _ _)

/-- An accepted COMPRESS checks the length, and then writes BLOCK_COUNT if there is room for it. -/
theorem execCompress_accepted {x : Word} {s : State} (hx : startBit x = true)
    (hidle : s.encShell.status ≠ .busy) :
    execCompress x s =
      if s.encShell.inLen.toNat > s.cfg.eInCap.toNat then
        .next ((s.accept .enc).raise .enc .badLength 0)
      else .next (s.encStarted.emit .enc 0 (be32 s.encStarted.enc.nblk) fun r => r.setBusy .enc) :=
  if_neg (by simp [hx, State.busy, hidle])

/-- Settles O21: the length check, the check of the room for BLOCK_COUNT, and the start. -/
theorem compressStartsAJob : Obligations.CompressStartsAJob := by
  intro x s hx hidle
  have hexec : exec (.compress x) s = _ := execCompress_accepted hx hidle
  refine ⟨fun hlen => ⟨_, hexec.trans (if_pos hlen), (s.accept_frames .enc).failsWith_raise _ _⟩,
    fun hlen hroom => ?_, fun hlen hroom => ?_⟩ <;> rw [if_neg (not_lt.mpr hlen)] at hexec
  · have hfull : (be32 s.encStarted.enc.nblk).length > s.encStarted.room .enc := hroom
    rw [State.emit_of_no_room _ _ hfull] at hexec
    exact ⟨_, hexec, s.encStarted_frames.failsWith_raise _ _⟩
  · have hfits : (be32 s.encStarted.enc.nblk).length ≤ s.encStarted.room .enc := hroom
    rw [State.emit_of_room _ _ hfits] at hexec
    refine ⟨_, s.encStarted.enc.nblk, hexec, ?_, rfl, rfl, fun a ha => ?_, ?_⟩
    · rw [← blockCountOf_eq]
      exact (BitVec.toNat_ofNat _ _).trans (Nat.mod_eq_of_lt (blockCountOf_lt s.encShell.inLen.isLt))
    · have hget := Memory.get_setMany_inside (be32 s.encStarted.enc.nblk) [] 0 a ha
      rwa [Nat.zero_add] at hget
    · exact (s.encStarted_frames.trans ((State.put_frames _ .enc _).trans
        (State.setBusy_frames _ .enc))).rest

end Sys2Proof.Machine
end

section
/-! PROOFS. Every compress job ends: each rule of ENC that does not end the job uses up one of the steps that are left (40_encoder.md R152, 70_reset_and_hazards.md R280). -/

namespace Sys2Proof.Machine

/-! Runs of several steps. -/

theorem runsTo_succ {k : Nat} {s t u : State} (h : step s = .next t) (hrun : runsTo k t u) :
    runsTo (k + 1) s u := by
  simp only [runsTo, Host.Core.run, show core.step = step from rfl, h]
  exact hrun

theorem runsTo_one {s t : State} (h : step s = .next t) : runsTo 1 s t := runsTo_succ h rfl

/-- A measure that falls at every step but the last bounds the length of a run. -/
theorem exists_runsTo_of_measure {P Q : State → Prop} (μ : State → Nat)
    (hstep : ∀ s, P s → ∃ t, step s = .next t ∧ (Q t ∨ (P t ∧ μ t < μ s))) {n : Nat} {s : State}
    (hs : P s) (hn : μ s ≤ n) : ∃ k t, k ≤ n + 1 ∧ runsTo k s t ∧ Q t := by
  induction n generalizing s with
  | zero =>
    obtain ⟨t, ht, hQ | ⟨-, hlt⟩⟩ := hstep s hs
    · exact ⟨1, t, le_rfl, runsTo_one ht, hQ⟩
    · omega
  | succ n ih =>
    obtain ⟨t, ht, hQ | ⟨hP, hlt⟩⟩ := hstep s hs
    · exact ⟨1, t, by omega, runsTo_one ht, hQ⟩
    · obtain ⟨k, u, hk, hrun, hQ⟩ := ih hP (by omega)
      exact ⟨k + 1, u, by omega, runsTo_succ ht hrun, hQ⟩

/-! ENC's measure. -/

/-- The steps before the completion, if every token stood for one byte: two for each block to come,
one for the open block's close, one for each byte from the cursor on. -/
def EncWork.stepsLeft (e : EncWork) : Nat :=
  2 * (e.nblk.toNat - e.blk.toNat) - e.inBlk.toNat + (e.n.toNat - e.cur.toNat)

theorem EncWork.stepsLeft_le (e : EncWork) : e.stepsLeft ≤ 2 * e.nblk.toNat + e.n.toNat := by
  unfold EncWork.stepsLeft
  omega

/-- Every rule of ENC ends the job or leaves fewer steps. -/
theorem EncRule.ends_or_stepsLeft_lt {s t : State} (h : EncRule s t)
    (hw : EncInv s.cfg s.encShell s.enc) :
    (t.encShell.status = .done ∨ t.encShell.status = .error) ∨
      (t.encShell.status = s.encShell.status ∧ t.enc.stepsLeft < s.enc.stepsLeft) := by
  cases h with
  | overflow pos => exact .inl (.inr (State.raise_status s .enc _ pos))
  | complete => exact .inl (.inl (State.complete_status s .enc))
  | openBlock hin hblk =>
    refine .inr ⟨rfl, ?_⟩
    simp only [EncWork.stepsLeft, State.setEnc_enc, hin, Bool.toNat_true, Bool.toNat_false]
    omega
  | emit bs hin hcur =>
    refine .inr ⟨State.put_status s.scan .enc bs, ?_⟩
    have hmove := State.advanceOf_scan_le hcur
    have hpos := advanceOf_pos s.scan.enc.runCnt
    have hcur' : (s.scan.put .enc bs).advance.enc.cur.toNat =
        s.enc.cur.toNat + advanceOf s.scan.enc.runCnt :=
      toNat_add_ofNat (hmove.trans_lt s.enc.blkEnd.isLt)
    obtain ⟨-, hend, -⟩ := hw.opened hin
    have hleft : (s.scan.put .enc bs).advance.enc.stepsLeft =
        2 * (s.enc.nblk.toNat - s.enc.blk.toNat) - s.enc.inBlk.toNat +
          (s.enc.n.toNat - (s.scan.put .enc bs).advance.enc.cur.toNat) := rfl
    rw [hleft, hcur', EncWork.stepsLeft]
    omega
  | closeBlock hin hcur =>
    refine .inr ⟨rfl, ?_⟩
    obtain ⟨hblk, -⟩ := hw.opened hin
    have hblk' : (s.enc.blk + 1).toNat = s.enc.blk.toNat + 1 := toNat_add_one hblk
    simp only [EncWork.stepsLeft, State.closeBlock, State.setEnc_enc, hin, hblk', Bool.toNat_true,
      Bool.toNat_false]
    omega

/-! Runs of ENC alone. -/

/-- A state of the invariant in which ENC has a job and moves next. -/
structure State.EncRuns (s : State) : Prop where
  inv : s.Inv
  turns : s.turns = []
  pending : s.pending = []
  busy : s.encShell.status = .busy

theorem State.EncRuns.step_eq {s : State} (h : s.EncRuns) : step s = encTurn s := by
  have hb : s.busy .enc = true := (s.busy_iff .enc).mpr h.busy
  simp [step, h.turns, State.nextAgent, h.pending, hb, agentTurn]

/-- A step of ENC ends its job, or ENC goes on with fewer steps left. -/
theorem State.EncRuns.ends_or_goes_on {s : State} (h : s.EncRuns) : ∃ t, step s = .next t ∧
    ((t.encShell.status = .done ∨ t.encShell.status = .error) ∨
      (t.EncRuns ∧ t.enc.stepsLeft < s.enc.stepsLeft)) := by
  obtain ⟨t, ht⟩ := (h.inv.encBusy h.busy).encStep_next
  have hturn : encTurn s = .next t := (if_pos ((s.busy_iff .enc).mpr h.busy)).trans ht
  have hrule := encStep_rule ht
  refine ⟨t, h.step_eq.trans hturn, (hrule.ends_or_stepsLeft_lt (h.inv.encBusy h.busy)).imp_right ?_⟩
  rintro ⟨hstatus, hlt⟩
  obtain ⟨-, -, -, hpending, -, hturns⟩ := hrule.frames.rest
  exact ⟨⟨hrule.inv h.inv h.busy, hturns.trans h.turns, hpending.trans h.pending,
    hstatus.trans h.busy⟩, hlt⟩

/-- Settles O49: the steps that are left fall until the job ends. -/
theorem compressJobsEnd : Obligations.CompressJobsEnd := fun s hs hturns hpending hbusy =>
  exists_runsTo_of_measure (P := State.EncRuns) (fun s => s.enc.stepsLeft)
    (fun _ h => h.ends_or_goes_on) ⟨hs, hturns, hpending, hbusy⟩ s.enc.stepsLeft_le

end Sys2Proof.Machine
end

section
/-! PROOFS. The codec's encoder: a block's payload token by token, the payload of a run, and the length of the output (40_encoder.md R131, R133, R144 to R149). -/

namespace Sys2Proof.Machine

/-! The run at the front of what is left of a block. -/

theorem runPrefix_le (v : Byte) (k : Nat) (bs : List Byte) :
    runPrefix v k bs ≤ min k bs.length := by
  induction k generalizing bs with
  | zero => cases bs <;> exact Nat.zero_le _
  | succ k ih =>
    cases bs with
    | nil => exact Nat.zero_le _
    | cons b bs =>
      rw [runPrefix, List.length_cons, Nat.succ_min_succ]
      split
      · exact Nat.succ_le_succ (ih bs)
      · exact Nat.zero_le _

theorem runPrefix_replicate (v : Byte) (k m : Nat) :
    runPrefix v k (List.replicate m v) = min k m := by
  induction k generalizing m with
  | zero => cases m <;> exact (Nat.zero_min _).symm
  | succ k ih =>
    cases m with
    | zero => rfl
    | succ m => simp only [List.replicate_succ, runPrefix, if_true, ih, Nat.succ_min_succ]

/-- The run counted at the byte `v` that `bs` follows, as `E.run_cnt` holds it (40_encoder.md R136). -/
def frontRun (v : Byte) (bs : List Byte) : Byte := BitVec.ofNat 8 (runPrefix v maxRun (v :: bs))

theorem frontRun_toNat (v : Byte) (bs : List Byte) :
    (frontRun v bs).toNat = runPrefix v maxRun (v :: bs) := by
  have hlt : runPrefix v maxRun (v :: bs) < 2 ^ 8 :=
    (le_min_iff.mp (runPrefix_le v maxRun _)).1.trans_lt (by decide)
  rw [frontRun, BitVec.toNat_ofNat, Nat.mod_eq_of_lt hlt]

theorem frontRun_replicate_toNat (v : Byte) (m : Nat) :
    (frontRun v (List.replicate m v)).toNat = min 255 (m + 1) := by
  rw [frontRun_toNat, ← List.replicate_succ, runPrefix_replicate]

/-! A block, token by token. -/

theorem blockTokens_nil (fuel i : Nat) : blockTokens fuel i [] = [] := by cases fuel <;> rfl

theorem blockTokens_cons (fuel i : Nat) (v : Byte) (bs : List Byte) :
    blockTokens (fuel + 1) i (v :: bs) =
      (i, chooseToken (frontRun v bs) v) :: blockTokens fuel (i + advanceOf (frontRun v bs))
        ((v :: bs).drop (advanceOf (frontRun v bs))) := rfl

/-- What is left after a token is shorter. -/
theorem length_drop_advanceOf_le (r v : Byte) (bs : List Byte) :
    ((v :: bs).drop (advanceOf r)).length ≤ bs.length := by
  have hpos := advanceOf_pos r
  rw [List.length_drop, List.length_cons]
  omega

/-- The tokens of a block depend neither on its offset nor on the fuel, if that is enough. -/
theorem map_snd_blockTokens_congr {f g : Nat} {bs : List Byte} (hf : bs.length ≤ f)
    (hg : bs.length ≤ g) (i j : Nat) :
    (blockTokens f i bs).map Prod.snd = (blockTokens g j bs).map Prod.snd := by
  induction f generalizing g bs i j with
  | zero =>
    rw [List.eq_nil_of_length_eq_zero (Nat.le_zero.mp hf), blockTokens_nil, blockTokens_nil]
  | succ f ih =>
    match g, bs with
    | g, [] => rw [blockTokens_nil, blockTokens_nil]
    | g + 1, v :: bs =>
      have hdrop := length_drop_advanceOf_le (frontRun v bs) v bs
      rw [blockTokens_cons, blockTokens_cons, List.map_cons, List.map_cons,
        ih (hdrop.trans (Nat.le_of_succ_le_succ hf)) (hdrop.trans (Nat.le_of_succ_le_succ hg))]

@[simp] theorem encBlock_nil : encBlock [] = [] := rfl

/-- The recursion of `enc_block` (40_encoder.md R131): one token, then the payload of what is left. -/
theorem encBlock_cons (v : Byte) (bs : List Byte) :
    encBlock (v :: bs) = (chooseToken (frontRun v bs) v).bytes ++
      encBlock ((v :: bs).drop (advanceOf (frontRun v bs))) := by
  have htail := map_snd_blockTokens_congr (length_drop_advanceOf_le (frontRun v bs) v bs) le_rfl
    (0 + advanceOf (frontRun v bs)) 0
  rw [encBlock, List.length_cons, blockTokens_cons, List.map_cons, htail]
  rfl

/-- Induction on a block along its tokens. -/
theorem block_induction {P : List Byte → Prop} (nil : P [])
    (token : ∀ v bs, P ((v :: bs).drop (advanceOf (frontRun v bs))) → P (v :: bs)) :
    ∀ b, P b
  | [] => nil
  | v :: bs => token v bs (block_induction nil token _)
termination_by b => b.length
decreasing_by exact Nat.lt_succ_of_le (length_drop_advanceOf_le _ v bs)

/-! The payload of a run of equal bytes. -/

/-- A run below `MIN_RUN` is emitted as a literal, plain or escaped, of one byte. -/
theorem chooseToken_bytes_of_lt_three {r : Byte} (h : r.toNat < 3) (v : Byte) :
    (chooseToken r v).bytes = if v.toNat ≤ 253 then [v] else [0xFF, v] := by
  rw [chooseToken_of_lt_three h]
  by_cases hv : v.toNat ≤ 253
  · rw [if_neg (by omega), if_pos hv]
    rfl
  · rw [if_pos (by omega), if_neg hv]
    rfl

theorem encBlock_replicate_of_three_le {m : Nat} (h : 3 ≤ m) (v : Byte) :
    encBlock (List.replicate m v) =
      [0xFE, BitVec.ofNat 8 (min 255 m), v] ++ encBlock (List.replicate (m - 255) v) := by
  obtain ⟨k, rfl⟩ := Nat.exists_eq_add_of_le' (Nat.one_le_of_lt h)
  have hrun := frontRun_replicate_toNat v k
  have hthree : 3 ≤ (frontRun v (List.replicate k v)).toNat := by omega
  have hcnt : frontRun v (List.replicate k v) = BitVec.ofNat 8 (min 255 (k + 1)) := by
    rw [← hrun, BitVec.ofNat_toNat, BitVec.setWidth_eq]
  rw [List.replicate_succ, encBlock_cons, chooseToken_of_three_le hthree,
    advanceOf_of_three_le hthree, hrun, ← List.replicate_succ, List.drop_replicate, hcnt,
    show k + 1 - min 255 (k + 1) = k + 1 - 255 by omega]
  rfl

theorem encBlock_replicate_succ_of_lt_two {k : Nat} (h : k < 2) (v : Byte) :
    encBlock (List.replicate (k + 1) v) =
      (if v.toNat ≤ 253 then [v] else [0xFF, v]) ++ encBlock (List.replicate k v) := by
  have hrun := frontRun_replicate_toNat v k
  have hlt : (frontRun v (List.replicate k v)).toNat < 3 := by omega
  rw [List.replicate_succ, encBlock_cons, chooseToken_bytes_of_lt_three hlt,
    advanceOf_of_lt_three hlt, List.drop_one, List.tail_cons]

/-- Each 255 bytes of a run are one RUN token. -/
theorem encBlock_replicate_mul_add (q r : Nat) (v : Byte) :
    encBlock (List.replicate (255 * q + r) v) =
      (List.replicate q [0xFE, 0xFF, v]).flatten ++ encBlock (List.replicate r v) := by
  induction q with
  | zero => simp
  | succ q ih =>
    rw [encBlock_replicate_of_three_le (by omega), show min 255 (255 * (q + 1) + r) = 255 by omega,
      show 255 * (q + 1) + r - 255 = 255 * q + r by omega, ih, List.replicate_succ,
      List.flatten_cons, List.append_assoc]
    rfl

/-- Settles O53: full RUN tokens as long as 255 bytes are left, then the remainder by its length. -/
theorem longRunsAreEmittedGreedily : Obligations.LongRunsAreEmittedGreedily := by
  intro m v
  have hsplit := encBlock_replicate_mul_add (m / 255) (m % 255) v
  rw [Nat.div_add_mod] at hsplit
  rw [hsplit]
  congr 1
  have hlt : m % 255 < 255 := Nat.mod_lt m (by decide)
  generalize m % 255 = r at hlt ⊢
  match r with
  | 0 => rfl
  | 1 => simpa using encBlock_replicate_succ_of_lt_two (k := 0) (by decide) v
  | 2 =>
    have htwo := encBlock_replicate_succ_of_lt_two (k := 1) (by decide) v
    rw [encBlock_replicate_succ_of_lt_two (k := 0) (by decide)] at htwo
    rw [htwo]
    by_cases hv : v.toNat ≤ 253 <;> simp [hv]
  | r + 3 =>
    rw [encBlock_replicate_of_three_le (by omega), show r + 3 - 255 = 0 by omega,
      show min 255 (r + 3) = r + 3 by omega]
    simp

/-! The length of a payload. -/

theorem chooseToken_bytes_length_pos (r v : Byte) : 1 ≤ (chooseToken r v).bytes.length :=
  List.length_pos_iff.mpr
    (Instr.bytes_ne_nil (Instr.wellFormed_of_canonical (chooseToken_canonical r v)).1)

/-- No token is longer than twice what it stands for. -/
theorem chooseToken_bytes_length_le (r v : Byte) :
    (chooseToken r v).bytes.length ≤ 2 * advanceOf r := by
  obtain h | h := lt_or_ge r.toNat 3
  · rw [chooseToken_bytes_of_lt_three h, advanceOf_of_lt_three h]
    split <;> simp
  · rw [chooseToken_of_three_le h, advanceOf_of_three_le h]
    simp only [Instr.bytes, List.length_cons, List.length_nil]
    omega

/-- The token at the front stands for no more than what is left of the block. -/
theorem advanceOf_frontRun_le (v : Byte) (bs : List Byte) :
    advanceOf (frontRun v bs) ≤ (v :: bs).length := by
  obtain h | h := lt_or_ge (frontRun v bs).toNat 3
  · rw [advanceOf_of_lt_three h]
    simp
  · rw [advanceOf_of_three_le h, frontRun_toNat]
    exact (le_min_iff.mp (runPrefix_le v maxRun _)).2

theorem encBlock_length_pos {b : List Byte} (h : b ≠ []) : 1 ≤ (encBlock b).length := by
  match b with
  | v :: bs =>
    rw [encBlock_cons, List.length_append]
    exact Nat.le_add_right_of_le (chooseToken_bytes_length_pos _ v)

theorem encBlock_length_le (b : List Byte) : (encBlock b).length ≤ 2 * b.length := by
  induction b using block_induction with
  | nil => exact le_rfl
  | token v bs ih =>
    have htoken := chooseToken_bytes_length_le (frontRun v bs) v
    have hadvance := advanceOf_frontRun_le v bs
    rw [List.length_drop] at ih
    rw [encBlock_cons, List.length_append]
    omega

/-! The blocks of a buffer. -/

/-- If one more block is counted, the input is not empty, and the rest has the others. -/
theorem blockCountOf_sub_blockSize {k n : Nat} (h : k + 1 ≤ blockCountOf n) :
    0 < n ∧ k ≤ blockCountOf (n - blockSize) := by
  simp only [blockCountOf_eq, blockSize] at *
  omega

@[simp] theorem blocksOf_length (k : Nat) (bs : List Byte) : (blocksOf k bs).length = k := by
  induction k generalizing bs with
  | zero => rfl
  | succ k ih => rw [blocksOf, List.length_cons, ih]

/-- Blocks enough for a buffer make it up (20_memory.md R68). -/
theorem blocksOf_flatten {k : Nat} {bs : List Byte} (h : bs.length ≤ k * blockSize) :
    (blocksOf k bs).flatten = bs := by
  induction k generalizing bs with
  | zero => exact (List.eq_nil_of_length_eq_zero (by omega)).symm
  | succ k ih =>
    have hrest : (bs.drop blockSize).length ≤ k * blockSize := by
      rw [List.length_drop]
      exact Nat.sub_le_of_le_add (h.trans_eq (Nat.succ_mul k blockSize))
    rw [blocksOf, List.flatten_cons, ih hrest, List.take_append_drop]

theorem length_le_blockCountOf_mul (n : Nat) : n ≤ blockCountOf n * blockSize := by
  simp only [blockCountOf_eq, blockSize]
  omega

/-- No block is empty (40_encoder.md R133). -/
theorem ne_nil_of_mem_blocksOf {k : Nat} {bs b : List Byte} (hk : k ≤ blockCountOf bs.length)
    (hb : b ∈ blocksOf k bs) : b ≠ [] := by
  induction k generalizing bs with
  | zero => cases hb
  | succ k ih =>
    obtain ⟨hpos, hrest⟩ := blockCountOf_sub_blockSize hk
    obtain rfl | hb := List.mem_cons.mp hb
    · rw [← List.length_pos_iff, List.length_take]
      exact lt_min (by decide) hpos
    · exact ih (by rwa [List.length_drop]) hb

/-! The length of the output. -/

@[simp] theorem frameOf_length (b : List Byte) : (frameOf b).length = 4 + (encBlock b).length :=
  List.length_append

/-- Each frame has its length field, at least one payload byte, and at most two for each raw byte. -/
theorem length_flatten_frames_bounds {bs : List (List Byte)} (h : ∀ b ∈ bs, b ≠ []) :
    5 * bs.length ≤ (bs.map frameOf).flatten.length ∧
      (bs.map frameOf).flatten.length ≤ 4 * bs.length + 2 * bs.flatten.length := by
  induction bs with
  | nil => simp
  | cons b bs ih =>
    obtain ⟨hb, hbs⟩ := List.forall_mem_cons.mp h
    obtain ⟨hlow, hhigh⟩ := ih hbs
    have hpos := encBlock_length_pos hb
    have hle := encBlock_length_le b
    simp only [List.map_cons, List.flatten_cons, List.length_append, List.length_cons, frameOf_length]
    omega

theorem compress_length (B : List Byte) : (compress B).length =
    4 + ((blocksOf (blockCountOf B.length) B).map frameOf).flatten.length :=
  List.length_append

/-- Settles O54: the blocks are as many as counted, none is empty, and they make up the input. -/
theorem compressedSizeIsBounded : Obligations.CompressedSizeIsBounded := by
  intro B _
  obtain ⟨hlow, hhigh⟩ := length_flatten_frames_bounds
    (bs := blocksOf (blockCountOf B.length) B) fun _ hb => ne_nil_of_mem_blocksOf le_rfl hb
  rw [blocksOf_length] at hlow hhigh
  rw [blocksOf_flatten (length_le_blockCountOf_mul B.length)] at hhigh
  rw [compress_length]
  omega

/-! What ENC writes, and whether it fits. -/

/-- Writes that begin inside a buffer all fit exactly when their bytes do (40_encoder.md R144). -/
theorem overflowAt_eq_none_iff {cap used : Nat} (h : used ≤ cap) (ws : List (Nat × Nat)) :
    overflowAt cap used ws = none ↔ used + (ws.map Prod.snd).sum ≤ cap := by
  induction ws generalizing used with
  | nil => simpa [overflowAt] using h
  | cons w ws ih =>
    obtain ⟨pos, k⟩ := w
    simp only [overflowAt, List.map_cons, List.sum_cons]
    split
    next hover =>
      refine iff_of_false (by simp) ?_
      omega
    next hfit => rw [ih (by omega), Nat.add_assoc]

theorem encodeTokens_length (ts : List Instr) :
    (encodeTokens ts).length = (ts.map fun i => i.bytes.length).sum := by
  induction ts with
  | nil => rfl
  | cons i is ih => rw [encodeTokens, List.length_append, ih, List.map_cons, List.sum_cons]

/-- The writes of a block make up its frame, wherever it starts. -/
theorem sum_blockWrites (i : Nat) (b : List Byte) :
    ((blockWrites i b).map Prod.snd).sum = (frameOf b).length := by
  have htokens : (blockTokens b.length i b).map (fun t => t.2.bytes.length) =
      ((blockTokens b.length 0 b).map Prod.snd).map fun i => i.bytes.length := by
    rw [← map_snd_blockTokens_congr le_rfl le_rfl i 0, List.map_map]
    rfl
  rw [frameOf_length, encBlock, encodeTokens_length, ← htokens, blockWrites, List.map_cons,
    List.sum_cons, List.map_map]
  rfl

theorem sum_framesWrites (i : Nat) (bs : List (List Byte)) :
    ((framesWrites i bs).map Prod.snd).sum = (bs.map frameOf).flatten.length := by
  induction bs generalizing i with
  | nil => rfl
  | cons b bs ih =>
    rw [framesWrites, List.map_append, List.sum_append, sum_blockWrites, ih, List.map_cons,
      List.flatten_cons, List.length_append]

/-- The writes of a compress job make up its output. -/
theorem sum_compressWrites (B : List Byte) :
    ((compressWrites B).map Prod.snd).sum = (compress B).length := by
  rw [compressWrites, List.map_cons, List.sum_cons, sum_framesWrites, compress_length]

/-- Settles O55: the writes make up the output, and nothing is written before them. -/
theorem overflowExactlyWhenTooLong : Obligations.OverflowExactlyWhenTooLong := by
  intro cap B
  rw [overflowAt_eq_none_iff (Nat.zero_le cap), sum_compressWrites, Nat.zero_add]

/-- Settles O51: the buffers and the block counts are evaluated. -/
theorem emptyInputHasNoBlock : Obligations.EmptyInputHasNoBlock := by
  refine ⟨by decide, rfl, rfl, ?_⟩
  simp only [blockCountOf_eq]
  decide

end Sys2Proof.Machine
end

section
/-! PROOFS. The codec's decoder: a payload token by token and a buffer block by block, with the round trip and the size of the result (41_decoder.md R171, R181, R186, R188). -/

namespace Sys2Proof.Machine

/-! What a token stands for. -/

/-- The bytes a token stands for (41_decoder.md R171); any other item stands for none. -/
def tokenExpansion : Instr → List Byte
  | .lit v => [v]
  | .esc v => [v]
  | .run n v => List.replicate n.toNat v
  | .blockCount _ => []
  | .payloadLen _ => []
  | .compress _ => []
  | .decompress _ => []

/-- A RUN of 255 bytes has the best ratio: 85 bytes for each of its three (41_decoder.md R186). -/
theorem tokenExpansion_length_le (i : Instr) :
    (tokenExpansion i).length ≤ 85 * i.bytes.length := by
  cases i with
  | lit | esc | blockCount | payloadLen | compress | decompress =>
    simp [tokenExpansion, Instr.bytes]
  | run n v =>
    have hn := n.isLt
    simp only [tokenExpansion, List.length_replicate, Instr.bytes, List.length_cons, List.length_nil]
    omega

/-- A sequence of two decodings succeeds when both do. -/
theorem bind_eq_ok_iff {ε α β : Type} {x : Except ε α} {f : α → Except ε β} {b : β} :
    x >>= f = .ok b ↔ ∃ a, x = .ok a ∧ f a = .ok b := by
  cases x with
  | ok a => exact ⟨fun h => ⟨a, rfl, h⟩, fun ⟨_, ha, h⟩ => by cases ha; exact h⟩
  | error e => exact ⟨nofun, nofun⟩

/-! A payload, token by token (41_decoder.md R171, `tokens`). -/

theorem decTokens_nil (cap : Option Nat) (p : Nat) (out : List Byte) :
    decTokens cap p [] out = .ok out := by
  rw [decTokens]

/-- A token whose operands the payload does not hold is MI_TOKEN at its first byte. -/
theorem decTokens_of_error {bs : List Byte} (hne : bs ≠ []) {e : Reject}
    (h : decodeToken bs = .error e) (cap : Option Nat) (p : Nat) (out : List Byte) :
    decTokens cap p bs out = .error (.miToken, p) := by
  obtain rfl | rfl | rfl | ⟨n, rfl⟩ := (decodeToken_error_iff bs).mp ⟨e, h⟩
  · exact absurd rfl hne
  · rfl
  · rfl
  · rfl

/-- A token that decodes is appended, and the rest of the payload goes on after it. -/
theorem decTokens_of_ok {bs rest : List Byte} {i : Instr} (h : decodeToken bs = .ok (i, rest))
    (cap : Option Nat) (p : Nat) (out : List Byte) :
    decTokens cap p bs out = appendBounded cap p out (tokenExpansion i) >>=
      decTokens cap (p + i.bytes.length) rest := by
  obtain ⟨v, rfl, hesc, hrun, rfl⟩ | ⟨v, rfl, rfl⟩ | ⟨n, v, rfl, rfl⟩ := decodeToken_cases h
  · have hflag : ¬ (v = flagEsc ∨ v = flagRun) := not_or.mpr ⟨hesc, hrun⟩
    change _ = appendBounded cap p out [v] >>= decTokens cap (p + 1) rest
    match rest with
    | [] =>
      rw [decTokens, if_neg hflag]
      cases appendBounded cap p out [v] <;> rfl
    | [x] =>
      rw [decTokens, if_neg hesc, if_neg hrun]
      cases appendBounded cap p out [v] <;> rfl
    | x :: y :: rest =>
      rw [decTokens, if_neg hesc, if_neg hrun]
      cases appendBounded cap p out [v] <;> rfl
  · change _ = appendBounded cap p out [v] >>= decTokens cap (p + 2) rest
    match rest with
    | [] =>
      rw [decTokens, if_pos rfl]
      cases appendBounded cap p out [v] <;> rfl
    | y :: rest =>
      rw [decTokens, if_pos rfl]
      cases appendBounded cap p out [v] <;> rfl
  · change _ = appendBounded cap p out (List.replicate n.toNat v) >>= decTokens cap (p + 3) rest
    rw [decTokens, if_neg (by decide), if_pos rfl]
    cases appendBounded cap p out (List.replicate n.toNat v) <;> rfl

/-- A payload that decodes is at its end, or its first token is appended and the rest decodes. -/
theorem decTokens_ok_cases {cap : Option Nat} {p : Nat} {bs out Y : List Byte}
    (h : decTokens cap p bs out = .ok Y) :
    (bs = [] ∧ Y = out) ∨
    ∃ i rest mid, decodeToken bs = .ok (i, rest) ∧
      appendBounded cap p out (tokenExpansion i) = .ok mid ∧
      decTokens cap (p + i.bytes.length) rest mid = .ok Y := by
  match hd : decodeToken bs with
  | .ok (i, rest) =>
    rw [decTokens_of_ok hd, bind_eq_ok_iff] at h
    obtain ⟨mid, hmid, hrest⟩ := h
    exact .inr ⟨i, rest, mid, rfl, hmid, hrest⟩
  | .error e =>
    by_cases hne : bs = []
    · subst hne
      rw [decTokens_nil] at h
      cases h
      exact .inl ⟨rfl, rfl⟩
    · rw [decTokens_of_error hne hd] at h
      cases h

/-- With no bound on the output, every append succeeds. -/
theorem decTokens_none_of_ok {bs rest : List Byte} {i : Instr} (h : decodeToken bs = .ok (i, rest))
    (p : Nat) (out : List Byte) :
    decTokens none p bs out = decTokens none (p + i.bytes.length) rest (out ++ tokenExpansion i) :=
  decTokens_of_ok h none p out

/-- No payload byte stands for more than 85 bytes of the result (41_decoder.md R186). -/
theorem decTokens_none_length_le {p : Nat} {bs out Y : List Byte}
    (h : decTokens none p bs out = .ok Y) : Y.length ≤ out.length + 85 * bs.length := by
  induction hn : bs.length using Nat.strong_induction_on generalizing p bs out with
  | h n ih =>
    obtain ⟨-, rfl⟩ | ⟨i, rest, mid, hd, hmid, hrest⟩ := decTokens_ok_cases h
    · omega
    · cases hmid
      obtain ⟨htok, -, rfl⟩ := decodeToken_sound hd
      have hpos := List.length_pos_iff.mpr (Instr.bytes_ne_nil htok)
      have hexp := tokenExpansion_length_le i
      rw [List.length_append] at hn
      have hle := ih rest.length (by omega) hrest rfl
      rw [List.length_append] at hle
      omega

/-! A block's payload decodes to the block. -/

/-- The bytes of a sequence up to its counted run are equal (40_encoder.md R136). -/
theorem take_runPrefix (v : Byte) (k : Nat) (bs : List Byte) :
    bs.take (runPrefix v k bs) = List.replicate (runPrefix v k bs) v := by
  induction k generalizing bs with
  | zero => cases bs <;> rfl
  | succ k ih =>
    match bs with
    | [] => rfl
    | b :: bs =>
      rw [runPrefix]
      split
      next hb => rw [List.take_succ_cons, List.replicate_succ, ih, hb]
      next => rfl

/-- The encoder's token stands for the bytes that the cursor moves over (40_encoder.md R141). -/
theorem tokenExpansion_chooseToken_frontRun (v : Byte) (bs : List Byte) :
    tokenExpansion (chooseToken (frontRun v bs) v) =
      (v :: bs).take (advanceOf (frontRun v bs)) := by
  obtain h | h := lt_or_ge (frontRun v bs).toNat 3
  · rw [chooseToken_of_lt_three h, advanceOf_of_lt_three h]
    split <;> rfl
  · rw [chooseToken_of_three_le h, advanceOf_of_three_le h, frontRun_toNat, take_runPrefix,
      ← frontRun_toNat]
    rfl

/-- Decoding a block's payload appends the block, along the encoder's tokens. -/
theorem decTokens_encBlock (p : Nat) (b out : List Byte) :
    decTokens none p (encBlock b) out = .ok (out ++ b) := by
  induction b using block_induction generalizing p out with
  | nil => rw [encBlock_nil, decTokens_nil, List.append_nil]
  | token v bs ih =>
    obtain ⟨htok, hwf⟩ := Instr.wellFormed_of_canonical (chooseToken_canonical (frontRun v bs) v)
    rw [encBlock_cons, decTokens_none_of_ok (decodeToken_bytes_append htok hwf _), ih,
      tokenExpansion_chooseToken_frontRun, List.append_assoc, List.take_append_drop]

/-! A buffer, block by block (41_decoder.md R171, `blocks`). -/

theorem decBlocks_of_length_lt {C : List Byte} (h : C.length < 4) (cap : Option Nat) (k p : Nat)
    (out : List Byte) : decBlocks cap (k + 1) p C out = .error (.miLen, p) := by
  match C, h with
  | [], _ | [_], _ | [_, _], _ | [_, _, _], _ => rfl

/-- `decBlocks` as its recursion on the number of blocks. Its equations are out of reach of `rw` and
`unfold`: checking them, the kernel would compute with the `2 ^ 24` of `ube32`. -/
theorem decBlocks_eq_brecOn (cap : Option Nat) : ∃ f, f = decBlocks._f cap ∧
    decBlocks cap = fun k p C out => Nat.brecOn (motive := fun _ =>
      Nat → List Byte → List Byte → Except (Cause × Nat) (List Byte)) k f p C out := by
  delta decBlocks
  exact ⟨_, rfl, rfl⟩

/-- The body of `decBlocks` for one block more, at the recursive call. -/
theorem decBlocks_succ_eq_body (cap : Option Nat) (k : Nat) :
    ∃ below, below.1 = decBlocks cap k ∧
      decBlocks cap (k + 1) = decBlocks._f cap (k + 1) below := by
  obtain ⟨f, hf, h⟩ := decBlocks_eq_brecOn cap
  rw [h, ← hf]
  exact ⟨_, rfl, rfl⟩

/-- A block's PAYLOAD_LEN is checked, its payload is decoded, and the blocks after it go on. -/
theorem decBlocks_be32_append (cap : Option Nat) (k p : Nat) (L : Word) (rest out : List Byte) :
    decBlocks cap (k + 1) p (be32 L ++ rest) out =
      if L.toNat > rest.length then .error (.miPayload, p + 4)
      else decTokens cap (p + 4) (rest.take L.toNat) out >>=
        decBlocks cap k (p + 4 + L.toNat) (rest.drop L.toNat) := by
  obtain ⟨below, hk, hsucc⟩ := decBlocks_succ_eq_body cap k
  have hbytes : be32 L ++ rest = _ :: _ :: _ :: _ :: rest := rfl
  rw [hsucc, ← hk, hbytes]
  delta decBlocks._f
  dsimp only
  rw [ube32_of_be32 (w := L) rfl]
  split
  next => rfl
  next => cases decTokens cap (p + 4) (rest.take L.toNat) out <;> rfl

/-- A block decodes when its payload is whole and decodes, and so do the blocks after it. -/
theorem decBlocks_succ_ok_iff {cap : Option Nat} {k p : Nat} {C out Y : List Byte} :
    decBlocks cap (k + 1) p C out = .ok Y ↔
      ∃ (L : Word) (payload rest mid : List Byte), C = be32 L ++ (payload ++ rest) ∧
        L.toNat = payload.length ∧ decTokens cap (p + 4) payload out = .ok mid ∧
        decBlocks cap k (p + 4 + payload.length) rest mid = .ok Y := by
  constructor
  · intro h
    obtain hlt | ⟨L, rest, rfl⟩ := length_lt_four_or_be32_append C
    · rw [decBlocks_of_length_lt hlt] at h
      cases h
    · rw [decBlocks_be32_append] at h
      split at h
      next => cases h
      next hfit =>
        obtain ⟨mid, htokens, hblocks⟩ := bind_eq_ok_iff.mp h
        have hlen : (rest.take L.toNat).length = L.toNat :=
          List.length_take_of_le (not_lt.mp hfit)
        refine ⟨L, rest.take L.toNat, rest.drop L.toNat, mid, ?_, hlen.symm, htokens, ?_⟩
        · rw [List.take_append_drop]
        · rwa [hlen]
  · rintro ⟨L, payload, rest, mid, rfl, hlen, htokens, hblocks⟩
    rw [decBlocks_be32_append, hlen, List.take_left, List.drop_left, htokens,
      if_neg (by simp)]
    exact hblocks

theorem decompressWithin_of_length_lt {C : List Byte} (h : C.length < 4) (cap : Option Nat) :
    decompressWithin cap C = .error (.miCount, 0) := by
  match C, h with
  | [], _ | [_], _ | [_, _], _ | [_, _, _], _ => rfl

/-- After the block count, as many blocks as it says are decoded (41_decoder.md R171). -/
theorem decompressWithin_be32_append (cap : Option Nat) (N : Word) (rest : List Byte) :
    decompressWithin cap (be32 N ++ rest) = decBlocks cap N.toNat 4 rest [] :=
  congrArg (fun w : Word => decBlocks cap w.toNat 4 rest []) (ube32_of_be32 (w := N) rfl)

/-- A buffer decodes when it has a block count and that many blocks decode. -/
theorem decompressWithin_ok_iff {cap : Option Nat} {C Y : List Byte} :
    decompressWithin cap C = .ok Y ↔
      ∃ (N : Word) (rest : List Byte), C = be32 N ++ rest ∧
        decBlocks cap N.toNat 4 rest [] = .ok Y := by
  constructor
  · intro h
    obtain hlt | ⟨N, rest, rfl⟩ := length_lt_four_or_be32_append C
    · rw [decompressWithin_of_length_lt hlt] at h
      cases h
    · exact ⟨N, rest, rfl, (decompressWithin_be32_append cap N rest).symm.trans h⟩
  · rintro ⟨N, rest, rfl, h⟩
    exact (decompressWithin_be32_append cap N rest).trans h

theorem decBlocks_none_length_le {k p : Nat} {C out Y : List Byte}
    (h : decBlocks none k p C out = .ok Y) : Y.length ≤ out.length + 85 * (C.length - 4) := by
  induction k generalizing p C out with
  | zero =>
    cases h
    omega
  | succ k ih =>
    obtain ⟨L, payload, rest, mid, rfl, -, htokens, hblocks⟩ := decBlocks_succ_ok_iff.mp h
    have hpayload := decTokens_none_length_le htokens
    have hrest := ih hblocks
    simp only [List.length_append, be32_length]
    omega

/-- Blocks decode whatever follows them (41_decoder.md R181). -/
theorem decBlocks_append {cap : Option Nat} {k p : Nat} {C out Y : List Byte}
    (h : decBlocks cap k p C out = .ok Y) (X : List Byte) :
    decBlocks cap k p (C ++ X) out = .ok Y := by
  induction k generalizing p C out with
  | zero => exact h
  | succ k ih =>
    obtain ⟨L, payload, rest, mid, rfl, hlen, htokens, hblocks⟩ := decBlocks_succ_ok_iff.mp h
    refine decBlocks_succ_ok_iff.mpr ⟨L, payload, rest ++ X, mid, ?_, hlen, htokens, ih hblocks⟩
    simp only [List.append_assoc]

/-- The frames of blocks decode to the blocks, if no PAYLOAD_LEN wraps. -/
theorem decBlocks_frames {bs : List (List Byte)} (h : ∀ b ∈ bs, (encBlock b).length < 2 ^ 32)
    (p : Nat) (out : List Byte) :
    decBlocks none bs.length p (bs.map frameOf).flatten out = .ok (out ++ bs.flatten) := by
  induction bs generalizing p out with
  | nil => exact congrArg Except.ok (List.append_nil out).symm
  | cons b bs ih =>
    obtain ⟨hb, hbs⟩ := List.forall_mem_cons.mp h
    refine decBlocks_succ_ok_iff.mpr ⟨BitVec.ofNat 32 (encBlock b).length, encBlock b,
      (bs.map frameOf).flatten, out ++ b, ?_, ?_, decTokens_encBlock _ b out, ?_⟩
    · exact List.append_assoc _ _ _
    · rw [BitVec.toNat_ofNat, Nat.mod_eq_of_lt hb]
    · rw [ih hbs, List.flatten_cons, List.append_assoc]

/-- No block is longer than BLOCK_SIZE (20_memory.md R68). -/
theorem length_le_of_mem_blocksOf {k : Nat} {bs b : List Byte} (hb : b ∈ blocksOf k bs) :
    b.length ≤ blockSize := by
  induction k generalizing bs with
  | zero => cases hb
  | succ k ih =>
    obtain rfl | hb := List.mem_cons.mp hb
    · exact List.length_take_le blockSize bs
    · exact ih hb

/-- Settles O58: neither the block count nor a PAYLOAD_LEN wraps, each frame decodes to its block,
and the blocks make up the input. -/
theorem decompressUndoesCompress : Obligations.DecompressUndoesCompress := by
  intro B hB
  have hcount : (BitVec.ofNat 32 (blockCountOf B.length)).toNat = blockCountOf B.length := by
    rw [BitVec.toNat_ofNat, Nat.mod_eq_of_lt (blockCountOf_lt hB)]
  have hlen : ∀ b ∈ blocksOf (blockCountOf B.length) B, (encBlock b).length < 2 ^ 32 := by
    intro b hb
    have hle := encBlock_length_le b
    have hblock : b.length ≤ 262144 := length_le_of_mem_blocksOf hb
    omega
  have hblocks := decBlocks_frames hlen 4 []
  rw [blocksOf_length, blocksOf_flatten (length_le_blockCountOf_mul B.length)] at hblocks
  exact decompressWithin_ok_iff.mpr ⟨_, _, rfl, by rw [hcount]; exact hblocks⟩

/-- Settles O56: the bound of the blocks, after the four bytes of the block count. -/
theorem decodedSizeIsBounded : Obligations.DecodedSizeIsBounded := by
  intro C Y h
  obtain ⟨N, rest, rfl, hblocks⟩ := decompressWithin_ok_iff.mp h
  have hle := decBlocks_none_length_le hblocks
  simp only [List.length_append, be32_length, List.length_nil] at hle ⊢
  omega

/-- Settles O57: the block count stays, and so does the result of the blocks. -/
theorem trailingBytesAreIgnored : Obligations.TrailingBytesAreIgnored := by
  intro C X Y h
  obtain ⟨N, rest, rfl, hblocks⟩ := decompressWithin_ok_iff.mp h
  exact decompressWithin_ok_iff.mpr
    ⟨N, rest ++ X, List.append_assoc _ _ _, decBlocks_append hblocks X⟩

end Sys2Proof.Machine
end

section
/-! PROOFS. The meanings of the tokens: what each step of LIT, ESC and RUN consumes and appends, and the whole tokens (41_decoder.md R175 to R178). -/

namespace Sys2Proof.Machine

/-! Moves of DEC. -/

/-- A change of DEC's working registers alone moves DEC without a store. -/
theorem State.setDec_decMoves (s : State) (d : DecWork) : DecMoves d 0 [] s (s.setDec d) :=
  ⟨rfl, Memory.stores_refl _ 0, rfl, State.sameBut_setDec s d⟩

/-- A move of DEC does not depend on the working registers it starts from. -/
theorem DecMoves.of_setDec {d d' : DecWork} {a : Nat} {bs : List Byte} {s t : State}
    (h : DecMoves d a bs (s.setDec d') t) : DecMoves d a bs s t :=
  ⟨h.work, h.out, h.shell, State.sameBut_trans (State.sameBut_setDec s d') h.rest⟩

/-- The last byte of a token is consumed and the token's bytes are appended, with room for them. -/
theorem State.emit_nextToken_decMoves {s : State} {bs : List Byte} (pos : Word)
    (hroom : bs.length ≤ s.room .dec) :
    DecMoves { s.dec with rp := s.dec.rp + 1, wp := s.dec.wp + BitVec.ofNat 32 bs.length,
                          tokState := .readFlag }
      s.dec.wp.toNat bs s (s.emit .dec pos bs State.nextToken) := by
  rw [State.emit_of_room pos _ hroom]
  exact ⟨rfl, Memory.stores_setMany _ _ bs, rfl,
    ((State.put_frames s .dec bs).trans (State.setDec_frames _ _)).rest⟩

/-- Without room for a token's bytes, none of them is written (60_exceptions.md R246). -/
theorem State.Frames.failsWith_emit {s t : State} (h : State.Frames .dec s t) (pos : Word)
    {bs : List Byte} (hroom : bs.length > t.room .dec) (after : State → State) :
    FailsWith .dec .outOverflow pos s (t.emit .dec pos bs after) := by
  rw [State.emit_of_no_room pos after hroom]
  exact h.failsWith_raise .outOverflow pos

/-! Each step of a token, by its guard. -/

section
variable {s : State} (hb : s.decShell.status = .busy)
include hb

theorem execLit_of_readFlag (v : Byte) (hst : s.dec.tokState = .readFlag)
    (hrp : s.dec.rp.toNat < s.dec.payEnd.toNat) :
    execLit v s = .next ((s.setDec { s.dec with tokStart := s.dec.rp }).emit .dec s.dec.rp [v]
      State.nextToken) :=
  if_pos (s.atFirstByte_iff.mpr ⟨hb, hst, hrp⟩)

theorem execEsc_of_readFlag (v : Byte) (hst : s.dec.tokState = .readFlag)
    (hrp : s.dec.rp.toNat < s.dec.payEnd.toNat) :
    execEsc v s = .next (s.fetchFlag .readEscValue) :=
  if_pos (s.atFirstByte_iff.mpr ⟨hb, hst, hrp⟩)

theorem execRun_of_readFlag (n v : Byte) (hst : s.dec.tokState = .readFlag)
    (hrp : s.dec.rp.toNat < s.dec.payEnd.toNat) :
    execRun n v s = .next (s.fetchFlag .readRunLen) :=
  if_pos (s.atFirstByte_iff.mpr ⟨hb, hst, hrp⟩)

theorem execEsc_of_readEscValue (v : Byte) (hst : s.dec.tokState = .readEscValue) :
    execEsc v s = if s.dec.rp = s.dec.payEnd then .next s.missingOperand
      else .next (s.emit .dec s.dec.tokStart [v] State.nextToken) := by
  simp [execEsc, State.atFirstByte, State.inTokState, State.busy, hb, hst, State.atPayloadEnd]

theorem execRun_of_readRunLen (n v : Byte) (hst : s.dec.tokState = .readRunLen) :
    execRun n v s = if s.dec.rp = s.dec.payEnd then .next s.missingOperand
      else .next (s.takeRunLen n) := by
  simp [execRun, State.atFirstByte, State.inTokState, State.busy, hb, hst, State.atPayloadEnd]

theorem execRun_of_readRunValue (n v : Byte) (hst : s.dec.tokState = .readRunValue) :
    execRun n v s = if s.dec.rp = s.dec.payEnd then .next s.missingOperand
      else .next (s.emit .dec s.dec.tokStart (List.replicate s.dec.runLen.toNat v)
        State.nextToken) := by
  simp [execRun, State.atFirstByte, State.inTokState, State.busy, hb, hst, State.atPayloadEnd]

end

/-- Settles O12: the token's offset is recorded, and then the room decides. -/
theorem litAppendsItsByte : Obligations.LitAppendsItsByte := by
  intro v s hb hst hrp
  have hexec : exec (.lit v) s = _ := execLit_of_readFlag hb v hst hrp
  refine ⟨fun hroom => ⟨_, hexec, ?_⟩, fun hroom => ⟨_, hexec, ?_⟩⟩
  · have hmoves := (State.emit_nextToken_decMoves
      (s := s.setDec { s.dec with tokStart := s.dec.rp }) (bs := [v]) s.dec.rp hroom).of_setDec
    rwa [State.setDec_dec, ← hst] at hmoves
  · exact (State.setDec_frames s { s.dec with tokStart := s.dec.rp }).failsWith_emit s.dec.rp
      (bs := [v]) hroom State.nextToken

/-- Settles O13: the missing operand is found first, and then the room decides. -/
theorem escAppendsItsOperand : Obligations.EscAppendsItsOperand := by
  intro v s hb hst
  have hexec : exec (.esc v) s = _ := execEsc_of_readEscValue hb v hst
  refine ⟨fun hend => ⟨_, hexec.trans (if_pos hend), s.raise_failsWith .dec _ _⟩,
    fun hend hroom => ⟨_, hexec.trans (if_neg hend), ?_⟩,
    fun hend hroom => ⟨_, hexec.trans (if_neg hend), ?_⟩⟩
  · exact (State.Frames.refl .dec s).failsWith_emit _ (bs := [v]) hroom _
  · exact State.emit_nextToken_decMoves (bs := [v]) _ hroom

/-- The bytes of a RUN, as the write pointer counts them (41_decoder.md R178). -/
theorem ofNat_length_replicate (n v : Byte) :
    BitVec.ofNat 32 (List.replicate n.toNat v).length = n.setWidth 32 := by
  rw [List.length_replicate, BitVec.ofNat_toNat]

/-- Settles O14: in both steps the missing operand is found first; in the last one the room decides. -/
theorem runAppendsItsValueRepeated : Obligations.RunAppendsItsValueRepeated := by
  intro n v s hb
  have hlen (hst : s.dec.tokState = .readRunLen) : exec (.run n v) s = _ :=
    execRun_of_readRunLen hb n v hst
  have hval (hst : s.dec.tokState = .readRunValue) : exec (.run n v) s = _ :=
    execRun_of_readRunValue hb n v hst
  refine ⟨fun hst hend => ⟨_, (hlen hst).trans (if_pos hend), s.raise_failsWith .dec _ _⟩,
    fun hst hend => ⟨_, (hlen hst).trans (if_neg hend), s.setDec_decMoves _⟩,
    fun hst hend => ⟨_, (hval hst).trans (if_pos hend), s.raise_failsWith .dec _ _⟩,
    fun hst hend hroom => ⟨_, (hval hst).trans (if_neg hend), ?_⟩,
    fun hst hend hroom => ⟨_, (hval hst).trans (if_neg hend), ?_⟩⟩
  · exact (State.Frames.refl .dec s).failsWith_emit _ (by rwa [List.length_replicate]) _
  · have hmoves := State.emit_nextToken_decMoves (s := s)
      (bs := List.replicate s.dec.runLen.toNat v) s.dec.tokStart (by rwa [List.length_replicate])
    rwa [ofNat_length_replicate] at hmoves

/-! Whole tokens. -/

/-- Settles O15: the flag is consumed, and then the operand is neither missing nor without room. -/
theorem escCompletesInTwoSteps : Obligations.EscCompletesInTwoSteps := by
  intro v s hb hst hrp hroom
  obtain ⟨-, -, happend⟩ := escAppendsItsOperand v (s.fetchFlag .readEscValue) hb rfl
  have hend : s.dec.rp + 1 ≠ s.dec.payEnd := by bv_omega
  have hpast : s.dec.rp + 1 + 1 = s.dec.rp + 2 := by bv_omega
  obtain ⟨t, ht, hmoves⟩ := happend hend hroom
  have hmoves := hmoves.of_setDec
  refine ⟨_, t, execEsc_of_readFlag hb v hst (by omega), ht, ?_⟩
  simpa only [State.fetchFlag, State.setDec_dec, hpast, ← hst] using hmoves

/-- Settles O16: the flag and the length are consumed, and then the value is neither missing nor
without room. -/
theorem runCompletesInThreeSteps : Obligations.RunCompletesInThreeSteps := by
  intro n v s hb hst hrp hroom
  have hlen : s.dec.rp + 1 ≠ s.dec.payEnd := by bv_omega
  have hval : s.dec.rp + 1 + 1 ≠ s.dec.payEnd := by bv_omega
  have hpast : s.dec.rp + 1 + 1 + 1 = s.dec.rp + 3 := by bv_omega
  obtain ⟨-, -, -, -, happend⟩ := runAppendsItsValueRepeated n v
    ((s.fetchFlag .readRunLen).takeRunLen n) hb
  obtain ⟨t, ht, hmoves⟩ := happend rfl hval hroom
  have hmoves := hmoves.of_setDec.of_setDec
  refine ⟨_, _, t, execRun_of_readFlag hb n v hst (by omega),
    (execRun_of_readRunLen (s := s.fetchFlag .readRunLen) hb n v rfl).trans (if_neg hlen), ht, ?_⟩
  simpa only [State.fetchFlag, State.takeRunLen, State.setDec_dec, hpast, ← hst] using hmoves

end Sys2Proof.Machine
end

section
/-! PROOFS. DEC's own steps, each with its guard: what is decoded at `D.rp` and run, the end of a block and of the job (41_decoder.md R173 to R180). -/

namespace Sys2Proof.Machine

/-! What is decoded at `D.rp` is decided by the bytes that DEC looks at. -/

theorem State.inBytes_take (s : State) (u : UnitId) (a k m : Nat) :
    (s.inBytes u a k).take m = s.inBytes u a (min m k) := by
  induction k generalizing a m with
  | zero => rw [Nat.min_zero, State.inBytes, List.take_nil]
  | succ k ih =>
    cases m with
    | zero => rw [Nat.zero_min, State.inBytes, List.take_zero]
    | succ m => rw [Nat.succ_min_succ, State.inBytes, State.inBytes, List.take_succ_cons, ih]

theorem Instr.bytes_length_le_maxToken {i : Instr} (htok : i.isToken = true) :
    i.bytes.length ≤ maxToken := by
  cases i with
  | lit v => exact ((Laws.EncodedLength.lit v).2 htok).2
  | esc v => exact ((Laws.EncodedLength.esc v).2 htok).2
  | run n v => exact ((Laws.EncodedLength.run n v).2 htok).2
  | blockCount | payloadLen | compress | decompress => cases htok

/-- A token is read from its own bytes, which are at most three (30_encoding.md R93, R97). -/
theorem decodeToken_take {bs rest : List Byte} {i : Instr} (h : decodeToken bs = .ok (i, rest))
    {m : Nat} (hm : maxToken ≤ m) :
    decodeToken (bs.take m) = .ok (i, rest.take (m - i.bytes.length)) := by
  obtain ⟨htok, hwf, rfl⟩ := decodeToken_sound h
  rw [List.take_append, List.take_of_length_le ((Instr.bytes_length_le_maxToken htok).trans hm)]
  exact decodeToken_bytes_append htok hwf _

/-- A length field is read from its own four bytes (30_encoding.md R92). -/
theorem decode_lenField_take {bs rest : List Byte} {i : Instr}
    (h : decode (.lenField bs) = .ok (i, rest)) : decode (.lenField (bs.take 4)) = .ok (i, []) := by
  match bs with
  | [] | [_] | [_, _] | [_, _, _] => cases h
  | b0 :: b1 :: b2 :: b3 :: tail =>
    cases h
    rfl

/-- `tokenBytes` is the front of the token in progress, long enough for any token. -/
theorem State.tokenBytes_eq_take (s : State) : s.tokenBytes =
    (s.dec.consumed ++ s.inBytes .dec s.dec.rp.toNat (s.dec.payEnd.toNat - s.dec.rp.toNat)).take
      (s.dec.consumed.length + maxToken) := by
  rw [List.take_length_add_append, State.inBytes_take]
  rfl

theorem State.lenBytesAt_eq_take (s : State) : s.lenBytesAt =
    (s.inBytes .dec s.dec.rp.toNat (s.dec.n.toNat - s.dec.rp.toNat)).take 4 := by
  rw [State.inBytes_take]
  rfl

/-- At a first byte the token in progress begins with that byte (41_decoder.md R175). -/
theorem State.tokenBytes_of_readFlag {s : State} (hst : s.dec.tokState = .readFlag)
    (hrp : s.dec.rp.toNat < s.dec.payEnd.toNat) :
    ∃ tail, s.tokenBytes = s.readIn .dec s.dec.rp.toNat :: tail := by
  obtain ⟨k, hk⟩ : ∃ k, min maxToken (s.dec.payEnd.toNat - s.dec.rp.toNat) = k + 1 :=
    Nat.exists_eq_succ_of_ne_zero (by simp only [maxToken]; omega)
  exact ⟨_, by rw [State.tokenBytes, DecWork.consumed, hst, hk]; rfl⟩

theorem tokenStep_of_ok {s : State} {i : Instr} {rest : List Byte}
    (h : decode (.token s.tokenBytes) = .ok (i, rest)) : tokenStep s = exec i s := by
  rw [tokenStep, h]

theorem headerStep_of_ok {s : State} {i : Instr} {rest : List Byte}
    (h : decode (.lenField s.lenBytesAt) = .ok (i, rest)) : headerStep s = exec i s := by
  rw [headerStep, h]

theorem tokenStep_of_error {s : State} {e : Reject}
    (h : decode (.token s.tokenBytes) = .error e) : tokenStep s = .next (truncatedStep e s) := by
  rw [tokenStep, h]

theorem headerStep_of_error {s : State} {e : Reject}
    (h : decode (.lenField s.lenBytesAt) = .error e) :
    headerStep s = .next (s.raise .dec .miLen s.dec.rp) := by
  rw [headerStep, h]

/-! The turns of BUSY DEC, guard by guard (41_decoder.md section 2). -/

section
variable {s : State} (hb : s.decShell.status = .busy)
include hb

theorem decTurn_of_busy : decTurn s = decStep s := if_pos ((s.busy_iff .dec).mpr hb)

section
variable (hst : s.dec.tokState = .hdr) (hrp : s.dec.rp.toNat ≤ s.dec.n.toNat)
  (hn : s.dec.n.toNat ≤ s.inCap .dec)
include hst hrp hn

theorem decTurn_complete (hblk : s.dec.blkRem = 0) : decTurn s = .next (s.complete .dec) := by
  simp [decTurn_of_busy hb, decStep, State.readInside, hrp, hn, hst, hblk]

theorem decTurn_header (hblk : 0 < s.dec.blkRem.toNat) : decTurn s = headerStep s := by
  have hne : s.dec.blkRem ≠ 0 := fun h0 => by simp [h0] at hblk
  rw [decTurn_of_busy hb, decStep, if_neg (by simp [State.readInside, hrp, hn]), hst]
  exact if_neg hne

end

section
variable (hpay : s.dec.payEnd.toNat ≤ s.dec.n.toNat) (hn : s.dec.n.toNat ≤ s.inCap .dec)
include hpay hn

theorem decTurn_endBlock (hst : s.dec.tokState = .readFlag) (hend : s.dec.rp = s.dec.payEnd) :
    decTurn s = .next s.endBlock := by
  simp [decTurn_of_busy hb, decStep, State.readInside, hn, hst, State.payloadInside, hpay,
    State.atPayloadEnd, hend]

theorem decTurn_token (hst : s.dec.tokState ≠ .hdr) (hrp : s.dec.rp.toNat ≤ s.dec.payEnd.toNat)
    (hflag : s.dec.tokState = .readFlag → s.dec.rp.toNat < s.dec.payEnd.toNat) :
    decTurn s = tokenStep s := by
  have hread : s.readInside = true := by simp [State.readInside, hn, hrp.trans hpay]
  have hpayload : s.payloadInside = true := by simp [State.payloadInside, hrp, hpay]
  rw [decTurn_of_busy hb, decStep, if_neg (by simp [hread])]
  cases hk : s.dec.tokState with
  | hdr => exact absurd hk hst
  | readFlag =>
    have hend := mt s.atPayloadEnd_iff.mp (rp_ne_payEnd_of_lt (hflag hk))
    exact (if_neg (by simp [hpayload])).trans (if_neg hend)
  | readEscValue | readRunLen | readRunValue => exact if_neg (by simp [hpayload])

end

end

/-- At DEC's turn, the step is what DEC does once the turn is off the list. -/
theorem step_of_decTurn {s : State} {gs : List Agent} (h : s.turns = .dec :: gs) :
    step s = decTurn { s with turns := gs } := by
  rw [step, h]
  rfl

/-- Settles O7: the bytes up to the payload's end and the three that DEC looks at decode alike. -/
theorem stepRunsTheDecodedToken : Obligations.StepRunsTheDecodedToken := by
  intro s gs i rest hturns hb hst hrp hpay hn hd hflag
  have htoken : decode (.token s.tokenBytes) = _ :=
    s.tokenBytes_eq_take ▸ decodeToken_take hd (Nat.le_add_left _ _)
  have hturn : decTurn { s with turns := gs } = tokenStep { s with turns := gs } :=
    decTurn_token hb hpay hn hst hrp hflag
  rw [← s.withRest_tokenBytes { s with turns := gs }] at htoken
  exact (step_of_decTurn hturns).trans (hturn.trans (tokenStep_of_ok htoken))

/-- Settles O8: the bytes up to the input's end and the four that DEC looks at decode alike. -/
theorem stepRunsTheDecodedHeader : Obligations.StepRunsTheDecodedHeader := by
  intro s gs i rest hturns hb hst hblk hrp hn hd
  have hfield : decode (.lenField s.lenBytesAt) = _ :=
    s.lenBytesAt_eq_take ▸ decode_lenField_take hd
  have hturn : decTurn { s with turns := gs } = headerStep { s with turns := gs } :=
    decTurn_header hb hst hrp hn hblk
  rw [← s.withRest_lenBytesAt { s with turns := gs }] at hfield
  exact (step_of_decTurn hturns).trans (hturn.trans (headerStep_of_ok hfield))

section
variable {s : State} (hb : s.decShell.status = .busy) (hst : s.dec.tokState = .readFlag)
  (hrp : s.dec.rp.toNat < s.dec.payEnd.toNat) {tail : List Byte}
include hb hst hrp

/-- A flag 255 is consumed, whether its operand follows or not (41_decoder.md R175). -/
theorem tokenStep_flagEsc (h : s.tokenBytes = flagEsc :: tail) :
    tokenStep s = .next (s.fetchFlag .readEscValue) := by
  cases tail with
  | nil =>
    rw [tokenStep_of_error (e := .escOperandMissing) (by rw [h]; rfl), truncatedStep]
    exact hst
  | cons v tail =>
    rw [tokenStep_of_ok (i := .esc v) (by rw [h]; rfl)]
    exact execEsc_of_readFlag hb v hst hrp

/-- A flag 254 is consumed, whether its operands follow or not (41_decoder.md R175). -/
theorem tokenStep_flagRun (h : s.tokenBytes = flagRun :: tail) :
    tokenStep s = .next (s.fetchFlag .readRunLen) := by
  match tail with
  | [] =>
    rw [tokenStep_of_error (e := .runOperandsMissing) (by rw [h]; rfl), truncatedStep]
    exact hst
  | [n] =>
    rw [tokenStep_of_error (e := .runValueMissing n) (by rw [h]; rfl), truncatedStep]
    exact hst
  | n :: v :: tail =>
    rw [tokenStep_of_ok (i := .run n v) (by rw [h]; rfl)]
    exact execRun_of_readFlag hb n v hst hrp

end

/-- Settles O11: the token in progress begins with the byte at `D.rp`, and that byte decides. -/
theorem firstByteIsFetched : Obligations.FirstByteIsFetched := by
  intro s hb hst hrp hpay hn
  have hturn : decTurn s = tokenStep s :=
    decTurn_token hb hpay hn (by simp [hst]) hrp.le fun _ => hrp
  obtain ⟨tail, hbytes⟩ := State.tokenBytes_of_readFlag hst hrp
  refine ⟨fun hf => ⟨_, ?_, s.setDec_decMoves _⟩, fun hf => ⟨_, ?_, s.setDec_decMoves _⟩,
    fun hesc hrun => ?_⟩
  · exact hturn.trans (tokenStep_flagEsc hb hst hrp (hf ▸ hbytes))
  · exact hturn.trans (tokenStep_flagRun hb hst hrp (hf ▸ hbytes))
  · have hwf := (Instr.wellFormed_lit_iff _).mpr ⟨hesc, hrun⟩
    exact hturn.trans (tokenStep_of_ok (hbytes ▸ decodeToken_lit hwf tail))

/-- Settles O31: the working registers alone change. -/
theorem decEndsABlock : Obligations.DecEndsABlock := fun s hb hst hend hpay hn =>
  ⟨_, decTurn_endBlock hb hpay hn hst hend, s.setDec_decMoves _⟩

/-- Settles O32: DEC's shell after the completion is not BUSY. -/
theorem decCompletesTheJob : Obligations.DecCompletesTheJob := fun s hb hst hblk hrp hn =>
  ⟨_, decTurn_complete hb hst hrp hn hblk, rfl, State.complete_sameBut s .dec, rfl⟩

end Sys2Proof.Machine
end

section
/-! PROOFS. The block header and the DECOMPRESS command: their checks in order, and what they start (41_decoder.md R172 to R174, 42_host_interface.md R212). -/

namespace Sys2Proof.Machine

/-- The end of a field that the input holds does not wrap (20_memory.md R76). -/
theorem DecWork.rp_add_four {d : DecWork} (h : 4 ≤ d.n.toNat - d.rp.toNat) :
    (d.rp + 4).toNat = d.rp.toNat + 4 :=
  toNat_add_ofNat (k := 4) (by omega)

/-- The checks of a due PAYLOAD_LEN: the field is whole, and the payload fits (41_decoder.md R173,
R174). -/
theorem execPayloadLen_of_atHeader {s : State} (L : Word) (hat : s.atHeader = true) :
    execPayloadLen L s =
      if 4 > s.dec.n.toNat - s.dec.rp.toNat then .next (s.raise .dec .miLen s.dec.rp)
      else if L.toNat > s.dec.n.toNat - (s.dec.rp + 4).toNat then
        .next (s.raise .dec .miPayload (s.dec.rp + 4))
      else .next (s.setDec
        { s.dec with rp := s.dec.rp + 4, payEnd := s.dec.rp + 4 + L, tokState := .readFlag }) :=
  if_pos hat

/-- Settles O19: the two checks in order; neither the read pointer nor the block's end wraps. -/
theorem payloadLenFixesTheBlocksEnd : Obligations.PayloadLenFixesTheBlocksEnd := by
  intro L s hb hst hblk
  have hexec : exec (.payloadLen L) s = _ :=
    execPayloadLen_of_atHeader L (s.atHeader_iff.mpr ⟨hb, hst, hblk⟩)
  refine ⟨fun hlen => ⟨_, hexec.trans (if_pos hlen), s.raise_failsWith .dec _ _⟩,
    fun hlen hfit => ?_, fun hlen hfit => ?_⟩ <;>
    rw [if_neg (not_lt.mpr hlen)] at hexec <;> rw [← DecWork.rp_add_four hlen] at hfit
  · exact ⟨_, hexec.trans (if_pos hfit), s.raise_failsWith .dec _ _⟩
  · refine ⟨_, _, hexec.trans (if_neg (not_lt.mpr hfit)), ?_, s.setDec_decMoves _⟩
    rw [← DecWork.rp_add_four hlen, BitVec.toNat_add, Nat.mod_eq_of_lt (by omega)]

/-- DEC at a job's start, before the BLOCK_COUNT field is read. -/
def State.decStarted (s : State) : State := (s.accept .dec).decStart

theorem State.decStarted_frames (s : State) : State.Frames .dec s s.decStarted :=
  (State.accept_frames s .dec).trans (State.setDec_frames _ _)

/-- An accepted DECOMPRESS checks the length against the capacity and against the four bytes of
BLOCK_COUNT, and then runs that field. -/
theorem execDecompress_accepted {x : Word} {s : State} (hx : startBit x = true)
    (hidle : s.decShell.status ≠ .busy) :
    execDecompress x s =
      if s.decShell.inLen.toNat > s.cfg.dInCap.toNat then
        .next ((s.accept .dec).raise .dec .badLength 0)
      else if 4 > s.decShell.inLen.toNat then .next (s.decStarted.raise .dec .miCount 0)
      else execBlockCount (s.decStarted.readIn32 .dec 0) s.decStarted :=
  if_neg (by simp [hx, State.busy, hidle])

/-- BLOCK_COUNT starts the parse where its guard holds and the input has its four bytes. -/
theorem execBlockCount_starts (N : Word) {s : State} (hidle : s.decShell.status ≠ .busy)
    (hrp : s.dec.rp = 0) (hn : 4 ≤ s.dec.n.toNat) :
    execBlockCount N s =
      .next ((s.setDec { s.dec with blkRem := N, rp := 4, tokState := .hdr }).setBusy .dec) := by
  rw [execBlockCount, if_pos (by simp [State.busy, hidle, hrp]), if_neg]
  simpa [hrp] using hn

/-- Settles O22: the two length checks, and then the count is read and the parse starts. -/
theorem decompressStartsAJob : Obligations.DecompressStartsAJob := by
  intro x s hx hidle
  have hexec : exec (.decompress x) s = _ := execDecompress_accepted hx hidle
  refine ⟨fun hcap => ⟨_, hexec.trans (if_pos hcap), (s.accept_frames .dec).failsWith_raise _ _⟩,
    fun hcap hlen => ?_, fun hcap hlen => ?_⟩ <;> rw [if_neg (not_lt.mpr hcap)] at hexec
  · exact ⟨_, hexec.trans (if_pos hlen), s.decStarted_frames.failsWith_raise _ _⟩
  · have hstart := execBlockCount_starts (s.decStarted.readIn32 .dec 0) (s := s.decStarted) hidle rfl hlen
    rw [if_neg (not_lt.mpr hlen), hstart] at hexec
    exact ⟨_, _, hexec, ube32_toNat _ _ _ _, rfl, rfl, (s.decStarted_frames.trans
      ((State.setDec_frames _ _).trans (State.setBusy_frames _ .dec))).rest⟩

end Sys2Proof.Machine
end

section
/-! PROOFS. Every decompress job ends: each step of DEC that does not end the job consumes a byte or ends a block, and a block has its header's bytes (41_decoder.md R190, 70_reset_and_hazards.md R280). -/

namespace Sys2Proof.Machine

/-! DEC's measure. -/

/-- The steps before the one that ends the job, at most: one for each byte from the read pointer on,
and one for the end of an open block. The four bytes of a header are consumed in one step, which
pays for the end of its block. -/
def DecWork.stepsLeft (d : DecWork) : Nat :=
  d.n.toNat - d.rp.toNat + if d.tokState = .hdr then 0 else 1

theorem DecWork.stepsLeft_le (d : DecWork) : d.stepsLeft ≤ d.n.toNat + 1 := by
  unfold DecWork.stepsLeft
  split <;> omega

/-- Whether a job of DEC has ended. -/
def State.decEnded (s : State) : Prop := s.decShell.status = .done ∨ s.decShell.status = .error

/-- Whether, from `s` to `t`, DEC ended its job or goes on with fewer steps left. -/
def DecProgress (s t : State) : Prop :=
  t.decEnded ∨ (t.decShell.status = s.decShell.status ∧ t.dec.stepsLeft < s.dec.stepsLeft)

/-- Inside a block, a byte that is consumed is one step fewer. -/
theorem DecWork.stepsLeft_lt_of_rp_lt {d d' : DecWork} (hst : d.tokState ≠ .hdr) (hn : d'.n = d.n)
    (hrp : d.rp.toNat < d'.rp.toNat) (hin : d.rp.toNat < d.n.toNat) : d'.stepsLeft < d.stepsLeft := by
  rw [DecWork.stepsLeft, DecWork.stepsLeft, hn, if_neg hst]
  split <;> omega

/-- Inside a block every rule of DEC makes progress. -/
theorem DecRule.progress_of_inBlock {s t : State} (h : DecRule s t)
    (hw : DecInv s.cfg s.decShell s.dec) (hst : s.dec.tokState ≠ .hdr) : DecProgress s t := by
  have hbyte (hend : s.dec.rp ≠ s.dec.payEnd) {d : DecWork} (hn : d.n = s.dec.n)
      (hrp : d.rp = s.dec.rp + 1) : d.stepsLeft < s.dec.stepsLeft := by
    obtain ⟨hsucc, hlt⟩ := hw.rp_succ hst hend
    obtain ⟨-, -, hpay⟩ := hw.inBlock hst
    exact DecWork.stepsLeft_lt_of_rp_lt hst hn (by rw [hrp]; omega) (by omega)
  cases h with
  | fail c pos => exact .inl (.inr (State.raise_status s .dec c pos))
  | complete => exact .inl (.inl (State.complete_status s .dec))
  | fetchFlag next _ hend => exact .inr ⟨rfl, hbyte hend rfl rfl⟩
  | takeRunLen n _ hend => exact .inr ⟨rfl, hbyte hend rfl rfl⟩
  | append start bs _ hend => exact .inr ⟨State.put_status _ .dec bs, hbyte hend rfl rfl⟩
  | openPayload L _ hlen =>
    have hrp := DecWork.rp_add_four hlen
    simp only [lenBytes] at hlen
    refine .inr ⟨rfl, DecWork.stepsLeft_lt_of_rp_lt hst rfl ?_ (by omega)⟩
    rw [State.setDec_dec, hrp]
    omega
  | endBlock =>
    refine .inr ⟨rfl, ?_⟩
    rw [DecWork.stepsLeft, DecWork.stepsLeft, if_neg hst]
    exact Nat.lt_succ_self _

/-- Where a block is due, a PAYLOAD_LEN fails or opens the block. -/
theorem exec_payloadLen_progress (L : Word) {s : State} (hb : s.decShell.status = .busy)
    (hst : s.dec.tokState = .hdr) (hblk : 0 < s.dec.blkRem.toNat) :
    ∃ t, exec (.payloadLen L) s = .next t ∧ DecProgress s t := by
  obtain ⟨hmiLen, hmiPayload, hopen⟩ := payloadLenFixesTheBlocksEnd L s hb hst hblk
  by_cases hlen : 4 > s.dec.n.toNat - s.dec.rp.toNat
  · obtain ⟨t, ht, hfails⟩ := hmiLen hlen
    exact ⟨t, ht, .inl (.inr hfails.status)⟩
  · by_cases hfit : L.toNat > s.dec.n.toNat - (s.dec.rp.toNat + 4)
    · obtain ⟨t, ht, hfails⟩ := hmiPayload (not_lt.mp hlen) hfit
      exact ⟨t, ht, .inl (.inr hfails.status)⟩
    · obtain ⟨t, e, ht, -, hmoves⟩ := hopen (not_lt.mp hlen) (not_lt.mp hfit)
      refine ⟨t, ht, .inr ⟨by rw [hmoves.shell], ?_⟩⟩
      have hrp := DecWork.rp_add_four (not_lt.mp hlen)
      rw [hmoves.work, DecWork.stepsLeft, DecWork.stepsLeft, if_pos hst]
      change s.dec.n.toNat - (s.dec.rp + 4).toNat + 1 < s.dec.n.toNat - s.dec.rp.toNat + 0
      omega

/-- Where a block is due, DEC's step completes the job, fails, or opens the block. -/
theorem DecInv.decTurn_progress_of_hdr {s : State} (hw : DecInv s.cfg s.decShell s.dec)
    (hb : s.decShell.status = .busy) (hst : s.dec.tokState = .hdr) :
    ∃ t, decTurn s = .next t ∧ DecProgress s t := by
  by_cases hblk : s.dec.blkRem = 0
  · exact ⟨_, decTurn_complete hb hst hw.rpIn hw.nLen.2 hblk,
      .inl (.inl (State.complete_status s .dec))⟩
  · have hpos : 0 < s.dec.blkRem.toNat :=
      Nat.pos_of_ne_zero fun h0 => hblk (BitVec.eq_of_toNat_eq h0)
    rw [decTurn_header hb hst hw.rpIn hw.nLen.2 hpos]
    match hd : decode (.lenField s.lenBytesAt) with
    | .error e =>
      exact ⟨_, headerStep_of_error hd, .inl (.inr (State.raise_status s .dec _ _))⟩
    | .ok (i, rest) =>
      obtain ⟨L, rfl⟩ := decode_lenField_payloadLen hd
      rw [headerStep_of_ok hd]
      exact exec_payloadLen_progress L hb hst hpos

/-- Every step of BUSY DEC makes progress. -/
theorem DecInv.decTurn_progress {s : State} (hw : DecInv s.cfg s.decShell s.dec)
    (hb : s.decShell.status = .busy) : ∃ t, decTurn s = .next t ∧ DecProgress s t := by
  by_cases hst : s.dec.tokState = .hdr
  · exact hw.decTurn_progress_of_hdr hb hst
  · obtain ⟨t, ht⟩ := hw.decStep_next hb
    exact ⟨t, (decTurn_of_busy hb).trans ht, (decStep_rule ht).progress_of_inBlock hw hst⟩

/-! Runs of DEC alone. -/

/-- A state of the invariant in which DEC has a job and moves next. -/
structure State.DecRuns (s : State) : Prop where
  inv : s.Inv
  turns : s.turns = []
  pending : s.pending = []
  encIdle : s.encShell.status ≠ .busy
  busy : s.decShell.status = .busy

theorem State.DecRuns.step_eq {s : State} (h : s.DecRuns) : step s = decTurn s := by
  have hidle : s.busy .enc = false := by simp [State.busy, h.encIdle]
  simp [step, h.turns, State.nextAgent, h.pending, hidle, agentTurn]

/-- A step of DEC ends its job, or DEC goes on with fewer steps left. -/
theorem State.DecRuns.ends_or_goes_on {s : State} (h : s.DecRuns) : ∃ t, step s = .next t ∧
    (t.decEnded ∨ (t.DecRuns ∧ t.dec.stepsLeft < s.dec.stepsLeft)) := by
  obtain ⟨t, ht, hprogress⟩ := (h.inv.decBusy h.busy).decTurn_progress h.busy
  refine ⟨t, h.step_eq.trans ht, hprogress.imp_right fun ⟨hstatus, hlt⟩ => ⟨?_, hlt⟩⟩
  obtain ⟨hshell, -, -, hpending, -, hturns⟩ := (decTurn_frames ht).rest
  exact ⟨agentTurn_inv h.inv (g := .dec) ht, hturns.trans h.turns, hpending.trans h.pending,
    hshell ▸ h.encIdle, hstatus.trans h.busy⟩

/-- Settles O50: the steps that are left fall until the job ends, and at first they are at most one
more than the bytes of the input. -/
theorem decompressJobsEnd : Obligations.DecompressJobsEnd := fun s hs hturns hpending hidle hbusy =>
  exists_runsTo_of_measure (P := State.DecRuns) (Q := State.decEnded) (fun s => s.dec.stepsLeft)
    (fun _ h => h.ends_or_goes_on) ⟨hs, hturns, hpending, hidle, hbusy⟩
    (s.dec.stepsLeft_le.trans (by omega))

end Sys2Proof.Machine
end

section
/-! PROOFS. The host's operations: what each answers, by the phase of the unit and by the register (42_host_interface.md R210 to R223). -/

namespace Sys2Proof.Machine

theorem State.busy_eq_false_iff (s : State) (u : UnitId) :
    s.busy u = false ↔ (s.shell u).status ≠ .busy := by
  rw [← Bool.not_eq_true, s.busy_iff]

/-! Register writes. -/

section
variable {u : UnitId} {r : Nat} {x : Word}

/-- A register write that decodes is the command it decodes to (30_encoding.md R108). -/
theorem hostWriteReg_of_command {i : Instr} {rest : List Byte}
    (h : decode (.regWrite u r x) = .ok (i, rest)) (s : State) : hostWriteReg u r x s = exec i s := by
  rw [hostWriteReg, h]

theorem decode_regWrite_of_not_command (h : ¬ (r = 0 ∧ startBit x = true)) :
    decode (.regWrite u r x) = .error .notCommand :=
  if_neg h

/-- Of the writes that are no command only that of IN_LEN has an effect. -/
theorem hostWriteReg_of_not_command (h : ¬ (r = 0 ∧ startBit x = true)) (s : State) :
    hostWriteReg u r x s = if r = 2 then .next (s.hostWriteInLen u x) else .next s := by
  rw [hostWriteReg, decode_regWrite_of_not_command h]

theorem hostWriteReg_ignored (hcmd : ¬ (r = 0 ∧ startBit x = true)) (hlen : r ≠ 2) (s : State) :
    hostWriteReg u r x s = .next s :=
  (hostWriteReg_of_not_command hcmd s).trans (if_neg hlen)

theorem hostWriteReg_inLen (u : UnitId) (x : Word) (s : State) :
    hostWriteReg u 2 x s = .next (s.hostWriteInLen u x) :=
  hostWriteReg_of_not_command (by simp) s

end

/-- At the host's turn, the step is its next operation once the turn and the operation are off their
lists. -/
theorem step_of_hostTurn {s : State} {gs : List Agent} {op : HostOp} {ops : List HostOp}
    (hturns : s.turns = .host :: gs) (hpending : s.pending = op :: ops) :
    step s = hostStep op { s with turns := gs, pending := ops } := by
  simp only [step, hturns, agentTurn, hostTurn, hpending]

/-- Settles O9: the host's turn issues the write, and the write is the command. -/
theorem stepRunsTheDecodedCommand : Obligations.StepRunsTheDecodedCommand := by
  intro s gs ops u r x i rest hturns hpending hd
  exact (step_of_hostTurn hturns hpending).trans (hostWriteReg_of_command hd _)

/-- Settles O24: a command's first check is that of its unit's phase. -/
theorem commandToBusyUnitIsIgnored : Obligations.CommandToBusyUnitIsIgnored := by
  intro x s
  refine ⟨fun hb => ?_, fun hb => ?_⟩
  · have hbusy : s.busy .enc = true := (s.busy_iff .enc).mpr hb
    exact if_pos (by simp [hbusy])
  · have hbusy : s.busy .dec = true := (s.busy_iff .dec).mpr hb
    exact if_pos (by simp [hbusy])

/-- Settles O25: neither write is a command, and neither register is IN_LEN. -/
theorem writesThatAreNoCommandDoNothing : Obligations.WritesThatAreNoCommandDoNothing := by
  intro u r x s
  refine ⟨fun hx => ?_, fun hr => ?_⟩
  · have hstart : startBit x = false := hx
    exact hostWriteReg_ignored (by simp [hstart]) (by decide) s
  · exact hostWriteReg_ignored (by omega) (by omega) s

/-! Writes to a unit at rest. -/

section
variable {s : State} {u : UnitId}

theorem State.hostWriteIn_of_not_busy (hb : (s.shell u).status ≠ .busy) {a : Word}
    (ha : a.toNat < s.inCap u) (v : Byte) : s.hostWriteIn u a v =
      s.setShell u { s.shell u with inp := (s.shell u).inp.set a.toNat v } :=
  if_pos (by simp [(s.busy_eq_false_iff u).mpr hb, ha])

theorem State.hostWriteIn_of_busy (hb : (s.shell u).status = .busy) (a : Word) (v : Byte) :
    s.hostWriteIn u a v = s :=
  if_neg (by simp [(s.busy_iff u).mpr hb])

theorem State.hostWriteIn_outside {a : Word} (ha : s.inCap u ≤ a.toNat) (v : Byte) :
    s.hostWriteIn u a v = s :=
  if_neg (by simp [ha])

theorem State.hostWriteInLen_of_not_busy (hb : (s.shell u).status ≠ .busy) (x : Word) :
    s.hostWriteInLen u x = s.setShell u { s.shell u with inLen := x } :=
  if_neg (mt (s.busy_iff u).mp hb)

theorem State.hostWriteInLen_of_busy (hb : (s.shell u).status = .busy) (x : Word) :
    s.hostWriteInLen u x = s :=
  if_pos ((s.busy_iff u).mpr hb)

end

/-- Settles O33: the two checks of the write, and the store. -/
theorem writeInStoresOneByte : Obligations.WriteInStoresOneByte := by
  intro u a v s
  refine ⟨fun hb ha => ?_, fun hb => ?_, fun ha => ?_⟩
  · refine ⟨_, congrArg Host.Outcome.next (State.hostWriteIn_of_not_busy hb ha v), ?_, ?_, by simp,
      by simp, State.sameBut_setShell s u _⟩
    · rw [State.setShell_shell]
      exact Memory.stores_setMany _ a.toNat [v]
    · rw [State.setShell_shell]
  · exact congrArg Host.Outcome.next (State.hostWriteIn_of_busy hb a v)
  · exact congrArg Host.Outcome.next (State.hostWriteIn_outside ha v)

/-- Settles O34: register 2 is IN_LEN, and the others are read-only. -/
theorem onlyInLenIsWritable : Obligations.OnlyInLenIsWritable := by
  intro u x s
  have hlen : hostStep (.writeReg u 2 x) s = .next (s.hostWriteInLen u x) := hostWriteReg_inLen u x s
  refine ⟨fun hb => ?_, fun hb => ?_, fun r hr => ?_⟩
  · rw [State.hostWriteInLen_of_not_busy hb] at hlen
    exact ⟨_, hlen, State.setShell_shell s u _, by simp, by simp, State.sameBut_setShell s u _⟩
  · rwa [State.hostWriteInLen_of_busy hb] at hlen
  · exact hostWriteReg_ignored (by omega) (by omega) s

/-! Reads. -/

/-- Absent registers read 0 (42_host_interface.md R217). -/
theorem Shell.readReg_of_six_le (sh : Shell) {r : Nat} (h : 6 ≤ r) : sh.readReg r = 0 := by
  obtain ⟨k, rfl⟩ := Nat.exists_eq_add_of_le' h
  rfl

/-- Settles O35: the register's row, and the codes of STATUS and ERR. -/
theorem registerReadsAnswerTheirValue : Obligations.RegisterReadsAnswerTheirValue := by
  intro u r s
  refine ⟨(s.shell u).readReg r, rfl, by rintro rfl; rfl, by rintro rfl; rfl, by rintro rfl; rfl,
    by rintro rfl; rfl, Shell.readReg_of_six_le _, ?_, ?_⟩ <;> rintro rfl
  · have hcode (p : Phase) (hp : (s.shell u).status = p) : (s.shell u).readReg 1 = p.code :=
      congrArg Phase.code hp
    exact ⟨hcode _, hcode _, hcode _, hcode _⟩
  · have hcode (c : Cause) (hc : (s.shell u).err = c) : (s.shell u).readReg 4 = c.code :=
      congrArg Cause.code hc
    exact ⟨hcode _, hcode _, hcode _, hcode _, hcode _, hcode _, hcode _⟩

theorem Shell.outReadable_iff (sh : Shell) (a : Nat) :
    sh.outReadable a = true ↔ sh.status = .done ∧ a < sh.outLen.toNat := by
  simp [Shell.outReadable]

/-- A read that is not of a result draws a free value (93_implementation_defined.md U5, U6). -/
theorem State.hostReadOut_of_not_readable {s : State} {u : UnitId} {a : Word}
    (h : (s.shell u).outReadable a.toNat ≠ true) : s.hostReadOut u a =
      { s.drawByte u with
        answers := .byte u a (Config.freeByte u (s.shell u).draws) :: s.answers } :=
  if_neg h

/-- Settles O36: a readable byte that is listed is the answer; any other read draws a byte, and only
the count of drawn values changes in the unit. -/
theorem resultBytesAreReadAsWritten : Obligations.ResultBytesAreReadAsWritten := by
  intro u a s
  refine ⟨fun v hdone ha hv => ?_, fun hnot => ?_⟩
  · have hread := ((s.shell u).outReadable_iff a.toNat).mpr ⟨hdone, ha⟩
    have hout : s.hostReadOut u a = _ := if_pos hread
    rw [hv, Option.getD_some] at hout
    exact congrArg Host.Outcome.next hout
  · have hread : (s.shell u).outReadable a.toNat ≠ true := by
      rw [Ne, Shell.outReadable_iff]
      exact fun ⟨hdone, ha⟩ => hnot.elim (fun hn => hn hdone) (not_le.mpr ha)
    refine ⟨_, _, congrArg Host.Outcome.next (State.hostReadOut_of_not_readable hread), rfl, ?_⟩
    cases u <;> exact ⟨rfl, ⟨rfl, rfl, rfl, rfl, rfl, rfl⟩, rfl, rfl⟩

end Sys2Proof.Machine
end

section
/-! PROOFS. Between the machine and the codec: what a buffer holds, what the host observes of a job that has ended, and the step that issues a command (00_scope.md R12, 42_host_interface.md R220). -/

namespace Sys2Proof.Machine

/-! What a buffer holds. -/

/-- `m` holds `bs` from offset `a` on. -/
def Memory.Holds (m : Memory) (a : Nat) (bs : List Byte) : Prop :=
  ∀ i < bs.length, m.get (a + i) = bs[i]?

theorem Memory.Holds.nil (m : Memory) (a : Nat) : m.Holds a [] := fun i h => absurd h (by simp)

theorem Memory.Holds.append {m : Memory} {a : Nat} {bs cs : List Byte} (h : m.Holds a bs)
    (k : m.Holds (a + bs.length) cs) : m.Holds a (bs ++ cs) := by
  intro i hi
  by_cases hlt : i < bs.length
  · rw [List.getElem?_append_left hlt]
    exact h i hlt
  · have hk := k (i - bs.length) (by rw [List.length_append] at hi; omega)
    rw [List.getElem?_append_right (by omega), ← hk]
    exact congrArg m.get (by omega)

/-- A store beside what a buffer holds leaves it there. -/
theorem Memory.Holds.of_stores {m m' : Memory} {a b : Nat} {bs cs : List Byte} (h : m.Holds b cs)
    (hstores : Memory.stores m m' a bs) (hbeside : b + cs.length ≤ a ∨ a + bs.length ≤ b) :
    m'.Holds b cs := fun i hi =>
  (hstores.2 (b + i) (by omega)).trans (h i hi)

theorem Memory.Holds.firstBytes {m : Memory} {bs : List Byte} (h : m.Holds 0 bs) :
    m.firstBytes bs.length = bs.map some := by
  refine List.ext_getElem (by simp [Memory.firstBytes]) fun i hi hi' => ?_
  have hget := h i (by simpa using hi')
  rw [Nat.zero_add] at hget
  simp [Memory.firstBytes, hget]

/-- A store of nothing is a store of nothing anywhere. -/
theorem Memory.stores_nil_anywhere {m m' : Memory} {a : Nat} (h : Memory.stores m m' a [])
    (b : Nat) : Memory.stores m m' b [] :=
  ⟨fun i hi => absurd hi (by simp), fun x _ => h.2 x (lt_or_ge x a)⟩

/-! The bytes of `U.IN`. -/

theorem State.inBytes_drop (s : State) (u : UnitId) (a k m : Nat) :
    (s.inBytes u a k).drop m = s.inBytes u (a + m) (k - m) := by
  induction m generalizing a k with
  | zero => rfl
  | succ m ih =>
    cases k with
    | zero => rw [Nat.zero_sub]; rfl
    | succ k =>
      rw [State.inBytes, List.drop_succ_cons, ih, Nat.succ_sub_succ, Nat.succ_add_eq_add_succ]

/-- The bytes before `b` begin with the one at `a`. -/
theorem State.inBytes_eq_cons (s : State) (u : UnitId) {a b : Nat} (h : a < b) :
    s.inBytes u a (b - a) = s.readIn u a :: s.inBytes u (a + 1) (b - (a + 1)) := by
  rw [show b - a = b - (a + 1) + 1 by omega]
  rfl

/-- What leaves a unit's input alone leaves every stretch of it alone. -/
theorem State.Frames.inBytes {u : UnitId} {s t : State} (h : State.Frames u s t) (a k : Nat) :
    t.inBytes u a k = s.inBytes u a k := by
  induction k generalizing a with
  | zero => rfl
  | succ k ih => rw [State.inBytes, State.inBytes, ih, State.readIn_congr h.inp h.resets]

theorem State.Frames.outCap {u : UnitId} {s t : State} (h : State.Frames u s t) :
    t.outCap u = s.outCap u :=
  congrArg (fun c => Config.outCap c u) h.cfg

/-! What the host observes. -/

theorem FailsWith.observe {u : UnitId} {c : Cause} {pos : Word} {s t : State}
    (h : FailsWith u c pos s t) : (t.shell u).observe = Observation.fails c pos.toNat := by
  simp [Shell.observe, Observation.fails, h.status, h.err, h.errPos, h.outLen, Memory.firstBytes]

/-- A job that completes delivers what its output buffer holds. -/
theorem ShellInv.observe_completed {cfg : Config} {u : UnitId} {sh : Shell} (h : ShellInv cfg u sh)
    (hb : sh.status = .busy) {len : Word} {out : List Byte} (hlen : len.toNat = out.length)
    (hout : sh.out.Holds 0 out) (draws : Nat) :
    Shell.observe { sh with outLen := len, status := .done, draws := draws } =
      Observation.delivers out := by
  have herr : sh.err = .noFault := by
    by_contra hne
    cases hb.symm.trans (h.errIff.mp hne)
  have hpos : sh.errPos = 0 := h.posZero (by simp [hb])
  have hlen' : BitVec.ofNat 32 out.length = len := by
    rw [← hlen, BitVec.ofNat_toNat, BitVec.setWidth_eq]
  simp [Shell.observe, Observation.delivers, herr, hpos, hlen, hlen', hout.firstBytes]

/-! The command. -/

/-- With no turns listed, the host's next operation is issued. -/
theorem step_of_pending {s : State} {op : HostOp} {ops : List HostOp} (hturns : s.turns = [])
    (hpending : s.pending = op :: ops) : step s = hostStep op { s with pending := ops } := by
  have hnext : s.nextAgent = .host := if_pos (by simp [hpending])
  simp only [step, hturns, hnext, agentTurn, hostTurn, hpending]

/-- What decodes to a command as the host's one operation is run at the next step. -/
theorem step_of_command {s : State} {u : UnitId} {x : Word} {i : Instr} {rest : List Byte}
    (hturns : s.turns = []) (hpending : s.pending = [.writeReg u 0 x])
    (hd : decode (.regWrite u 0 x) = .ok (i, rest)) : step s = exec i { s with pending := [] } :=
  (step_of_pending hturns hpending).trans (hostWriteReg_of_command hd _)

/-! Runs. -/

/-- If each step of unit `u` that does not end its job leaves fewer to take, and each step of `u` ends
in `Observed` or keeps `Computes` while `u` is BUSY, then a run of `u` ends in `Observed`. -/
theorem exists_runsTo_observed {Runs Computes Observed : State → Prop} (u : UnitId) (μ : State → Nat)
    (hgoes : ∀ s, Runs s → ∃ t, step s = .next t ∧
      (((t.shell u).status = .done ∨ (t.shell u).status = .error) ∨ (Runs t ∧ μ t < μ s)))
    (hleads : ∀ s, Runs s → Computes s → ∃ t, step s = .next t ∧
      (Observed t ∨ ((t.shell u).status = .busy ∧ Computes t)))
    {s : State} (hruns : Runs s) (hcomputes : Computes s) : ∃ k t, runsTo k s t ∧ Observed t := by
  have hstep (s : State) (h : Runs s ∧ Computes s) : ∃ t, step s = .next t ∧
      (Observed t ∨ ((Runs t ∧ Computes t) ∧ μ t < μ s)) := by
    obtain ⟨t, ht, hended | ⟨hruns, hlt⟩⟩ := hgoes s h.1 <;>
      obtain ⟨t', ht', hleads⟩ := hleads s h.1 h.2 <;>
      obtain rfl : t = t' := Host.Outcome.next.inj (ht.symm.trans ht')
    · refine ⟨t, ht, hleads.imp_right fun ⟨hbusy, _⟩ => ?_⟩
      rw [hbusy] at hended
      exact absurd hended (by decide)
    · exact ⟨t, ht, hleads.imp_right fun ⟨_, hcomputes⟩ => ⟨⟨hruns, hcomputes⟩, hlt⟩⟩
  obtain ⟨k, t, -, hrun, hobserved⟩ :=
    exists_runsTo_of_measure μ hstep ⟨hruns, hcomputes⟩ (le_refl (μ s))
  exact ⟨k, t, hrun, hobserved⟩

end Sys2Proof.Machine
end

section
/-! PROOFS. DEC computes `decompress`: what its working registers, its input and the bytes it has reconstructed still come to is kept by every step, and is what the host observes in the end (41_decoder.md R171 to R186, 42_host_interface.md R220). -/

namespace Sys2Proof.Machine

/-! What DEC still comes to. -/

/-- The observation of a job that comes to `r` (42_host_interface.md R220). -/
def Observation.ofResult : Except (Cause × Nat) (List Byte) → Observation
  | .ok Y => Observation.delivers Y
  | .error (c, pos) => Observation.fails c pos

theorem decompressResult_eq (cap : Nat) (X : List Byte) :
    decompressResult cap X = Observation.ofResult (decompressWithin (some cap) X) := by
  rw [decompressResult]
  generalize decompressWithin (some cap) X = r
  cases r <;> rfl

/-- Where the token in progress begins. -/
def DecWork.tokenPos (d : DecWork) : Nat := d.rp.toNat - d.consumed.length

/-- The payload from the token in progress on. -/
def State.payloadLeft (s : State) (d : DecWork) : List Byte :=
  d.consumed ++ s.inBytes .dec d.rp.toNat (d.payEnd.toNat - d.rp.toNat)

/-- What `k` blocks from offset `p` of the input on come to, after the output `out`. -/
def State.blocksFrom (s : State) (n : Word) (k p : Nat) (out : List Byte) :
    Except (Cause × Nat) (List Byte) :=
  decBlocks (some (s.outCap .dec)) k p (s.inBytes .dec p (n.toNat - p)) out

/-- What DEC comes to with the working registers `d` and the output `out`, on the input and with the
capacity of `s`: between blocks the blocks that remain, and inside one first its payload. -/
def State.decResult (s : State) (d : DecWork) (out : List Byte) : Except (Cause × Nat) (List Byte) :=
  if d.tokState = .hdr then s.blocksFrom d.n d.blkRem.toNat d.rp.toNat out
  else decTokens (some (s.outCap .dec)) d.tokenPos (s.payloadLeft d) out >>=
    s.blocksFrom d.n (d.blkRem.toNat - 1) d.payEnd.toNat

theorem State.decResult_hdr (s : State) {d : DecWork} (h : d.tokState = .hdr) (out : List Byte) :
    s.decResult d out = s.blocksFrom d.n d.blkRem.toNat d.rp.toNat out := if_pos h

theorem State.decResult_payload (s : State) {d : DecWork} (h : d.tokState ≠ .hdr) (out : List Byte) :
    s.decResult d out = decTokens (some (s.outCap .dec)) d.tokenPos (s.payloadLeft d) out >>=
      s.blocksFrom d.n (d.blkRem.toNat - 1) d.payEnd.toNat := if_neg h

/-- What DEC comes to depends on its input and its capacity alone. -/
theorem State.Frames.decResult {s t : State} (h : State.Frames .dec s t) (d : DecWork)
    (out : List Byte) : t.decResult d out = s.decResult d out := by
  have hblocks (n : Word) (k p : Nat) : t.blocksFrom n k p = s.blocksFrom n k p := by
    funext out
    rw [State.blocksFrom, State.blocksFrom, h.outCap, h.inBytes]
  rw [State.decResult, State.decResult, hblocks, hblocks, h.outCap, State.payloadLeft, h.inBytes]
  rfl

/-- DEC has reconstructed `out` and comes to `r`. -/
structure State.DecComputes (s : State) (out : List Byte) (r : Except (Cause × Nat) (List Byte)) :
    Prop where
  len : s.dec.wp.toNat = out.length
  holds : s.decShell.out.Holds 0 out
  result : s.decResult s.dec out = r

/-- The host observes `r`, or DEC is still BUSY and comes to `r`. -/
def State.DecLeadsTo (t : State) (r : Except (Cause × Nat) (List Byte)) : Prop :=
  t.decShell.observe = Observation.ofResult r ∨
    (t.decShell.status = .busy ∧ ∃ out, t.DecComputes out r)

/-! Steps that end the job, that store, and that store nothing. -/

theorem FailsWith.decLeadsTo {c : Cause} {pos : Word} {s t : State} (h : FailsWith .dec c pos s t)
    {r : Except (Cause × Nat) (List Byte)} (hr : r = .error (c, pos.toNat)) : t.DecLeadsTo r :=
  .inl (hr ▸ h.observe)

theorem DecMoves.frames {d : DecWork} {a : Nat} {bs : List Byte} {s t : State}
    (h : DecMoves d a bs s t) : State.Frames .dec s t :=
  ⟨h.rest, by rw [State.shell_dec, h.shell]; rfl, by rw [State.shell_dec, h.shell]; rfl,
    by rw [State.shell_dec, h.shell]; rfl⟩

section
variable {s t : State} (hb : s.decShell.status = .busy) {out : List Byte}
  {r : Except (Cause × Nat) (List Byte)} (h : s.DecComputes out r) {d : DecWork}
include hb h

theorem DecMoves.decLeadsTo_of_store {bs : List Byte} (hmoves : DecMoves d s.dec.wp.toNat bs s t)
    (hwp : d.wp.toNat = s.dec.wp.toNat + bs.length) (hr : s.decResult d (out ++ bs) = r) :
    t.DecLeadsTo r := by
  have hout := hmoves.out
  rw [h.len] at hout
  refine .inr ⟨(congrArg Shell.status hmoves.shell).trans hb, out ++ bs, ?_, ?_, ?_⟩
  · rw [hmoves.work, hwp, h.len, List.length_append]
  · refine (h.holds.of_stores hout (.inl (Nat.zero_add _).le)).append ?_
    rw [Nat.zero_add]
    exact hout.1
  · rw [hmoves.work, hmoves.frames.decResult, hr]

theorem DecMoves.decLeadsTo {a : Nat} (hmoves : DecMoves d a [] s t)
    (hwp : d.wp = s.dec.wp) (hr : s.decResult d out = r) : t.DecLeadsTo r := by
  have hnothing : DecMoves d s.dec.wp.toNat [] s t :=
    ⟨hmoves.work, Memory.stores_nil_anywhere hmoves.out _, hmoves.shell, hmoves.rest⟩
  refine hnothing.decLeadsTo_of_store hb h (congrArg BitVec.toNat hwp) ?_
  rw [List.append_nil, hr]

end

/-! The output bound (41_decoder.md R186). -/

theorem appendBounded_of_room {cap : Nat} {out bs : List Byte} (h : bs.length ≤ cap - out.length)
    (pos : Nat) : appendBounded (some cap) pos out bs = .ok (out ++ bs) :=
  if_neg (not_lt.mpr h)

theorem appendBounded_of_no_room {cap : Nat} {out bs : List Byte} (h : bs.length > cap - out.length)
    (pos : Nat) : appendBounded (some cap) pos out bs = .error (.outOverflow, pos) :=
  if_pos h

/-! Tokens. -/

/-- At the end of the payload only what is consumed of the token is left. -/
theorem State.payloadLeft_at_end {s : State} {d : DecWork} (h : d.rp = d.payEnd) :
    s.payloadLeft d = d.consumed := by
  simp [State.payloadLeft, h, State.inBytes]

/-- Before the end of the payload the next byte follows what is consumed of the token. -/
theorem State.payloadLeft_eq {s : State} {d : DecWork} (h : d.rp.toNat < d.payEnd.toNat) :
    s.payloadLeft d = d.consumed ++ s.readIn .dec d.rp.toNat ::
      s.inBytes .dec (d.rp + 1).toNat (d.payEnd.toNat - (d.rp + 1).toNat) := by
  rw [State.payloadLeft, s.inBytes_eq_cons .dec h, toNat_add_one h]

/-- A byte consumed as part of the token in progress changes nothing of what DEC comes to. -/
theorem DecMoves.decLeadsTo_of_consume {s t : State} (hb : s.decShell.status = .busy)
    {out : List Byte} {r : Except (Cause × Nat) (List Byte)} (h : s.DecComputes out r) {d : DecWork}
    {a : Nat} (hmoves : DecMoves d a [] s t) (hst : s.dec.tokState ≠ .hdr) (hst' : d.tokState ≠ .hdr)
    (hlt : s.dec.rp.toNat < s.dec.payEnd.toNat) (hrp : d.rp = s.dec.rp + 1)
    (hconsumed : d.consumed = s.dec.consumed ++ [s.readIn .dec s.dec.rp.toNat])
    (hrest : d.payEnd = s.dec.payEnd ∧ d.n = s.dec.n ∧ d.blkRem = s.dec.blkRem ∧ d.wp = s.dec.wp) :
    t.DecLeadsTo r := by
  obtain ⟨hpay, hn, hblk, hwp⟩ := hrest
  have hpos : d.tokenPos = s.dec.tokenPos := by
    rw [DecWork.tokenPos, DecWork.tokenPos, hrp, toNat_add_one hlt, hconsumed, List.length_append,
      List.length_singleton, Nat.add_sub_add_right]
  have hleft : s.payloadLeft d = s.payloadLeft s.dec := by
    rw [State.payloadLeft_eq hlt, State.payloadLeft, hrp, hconsumed, hpay, List.append_assoc]
    rfl
  refine hmoves.decLeadsTo hb h hwp ?_
  rw [s.decResult_payload hst', hpos, hleft, hpay, hn, hblk, ← s.decResult_payload hst, h.result]

/-- The last byte of a token makes it whole. -/
theorem decodeToken_payloadLeft {s : State} {d : DecWork} (hlt : d.rp.toNat < d.payEnd.toNat)
    {i : Instr} (hbytes : i.bytes = d.consumed ++ [s.readIn .dec d.rp.toNat])
    (htok : i.isToken = true) (hwf : i.wellFormed = true) :
    decodeToken (s.payloadLeft d) =
      .ok (i, s.inBytes .dec (d.rp + 1).toNat (d.payEnd.toNat - (d.rp + 1).toNat)) := by
  rw [State.payloadLeft_eq hlt, List.append_cons, ← hbytes]
  exact decodeToken_bytes_append htok hwf _

/-- With the last byte of a token consumed, its bytes are appended and the rest of the payload is
left. -/
theorem State.decResult_append {s : State} {d : DecWork} (hst : d.tokState ≠ .hdr)
    (hlt : d.rp.toNat < d.payEnd.toNat) {i : Instr}
    (hbytes : i.bytes = d.consumed ++ [s.readIn .dec d.rp.toNat])
    (hpos : d.consumed.length ≤ d.rp.toNat)
    (htok : i.isToken = true) (hwf : i.wellFormed = true) (out : List Byte) (start wp : Word) :
    s.decResult d out = appendBounded (some (s.outCap .dec)) d.tokenPos out (tokenExpansion i) >>=
      s.decResult { d with tokStart := start, rp := d.rp + 1, wp := wp, tokState := .readFlag } := by
  have hnext : d.tokenPos + i.bytes.length = (d.rp + 1).toNat := by
    rw [DecWork.tokenPos, hbytes, List.length_append, List.length_singleton, toNat_add_one hlt]
    omega
  rw [s.decResult_payload hst, decTokens_of_ok (decodeToken_payloadLeft hlt hbytes htok hwf), hnext]
  cases appendBounded (some (s.outCap .dec)) d.tokenPos out (tokenExpansion i) <;> rfl

/-- A token whose next byte is beyond the payload's end is MI_TOKEN at its first byte. -/
theorem State.decResult_at_end {s : State} {d : DecWork} (hst : d.tokState ≠ .hdr)
    (hend : d.rp = d.payEnd) {e : Reject} (hne : d.consumed ≠ [])
    (he : decodeToken d.consumed = .error e) (out : List Byte) :
    s.decResult d out = .error (.miToken, d.tokenPos) := by
  rw [s.decResult_payload hst, State.payloadLeft_at_end hend, decTokens_of_error hne he]
  rfl

/-! Block headers. -/

/-- The bytes that follow a field, and how many there are. -/
theorem State.inBytes_after_field {s : State} {u : UnitId} {a k : Nat} {w : Word} {rest : List Byte}
    (h : s.inBytes u a k = be32 w ++ rest) :
    4 + rest.length = k ∧ rest = s.inBytes u (a + 4) (k - 4) := by
  have hlen := congrArg List.length h
  have hdrop := congrArg (List.drop 4) h
  rw [State.inBytes_length, List.length_append, be32_length] at hlen
  rw [State.inBytes_drop, List.drop_left' (be32_length w)] at hdrop
  exact ⟨hlen.symm, hdrop.symm⟩

section
variable {s : State} {d : DecWork} {L : Word} {rest : List Byte}
  (hbytes : s.inBytes .dec d.rp.toNat (d.n.toNat - d.rp.toNat) = be32 L ++ rest)
include hbytes

/-- Where a block is due, its PAYLOAD_LEN is checked, and its payload and the blocks after it are left
(41_decoder.md R173, R174). -/
theorem State.decResult_header (hst : d.tokState = .hdr) (hblk : 0 < d.blkRem.toNat)
    (out : List Byte) : s.decResult d out =
      if L.toNat > rest.length then .error (.miPayload, d.rp.toNat + 4)
      else decTokens (some (s.outCap .dec)) (d.rp.toNat + 4) (rest.take L.toNat) out >>=
        decBlocks (some (s.outCap .dec)) (d.blkRem.toNat - 1) (d.rp.toNat + 4 + L.toNat)
          (rest.drop L.toNat) := by
  obtain ⟨k, hk⟩ := Nat.exists_eq_add_of_le' hblk
  rw [s.decResult_hdr hst, State.blocksFrom, hbytes, hk, decBlocks_be32_append]
  rfl

/-- With the block's end fixed, its payload and the blocks after it are left. -/
theorem State.decResult_opened (hfit : L.toNat ≤ rest.length) {stop : Word}
    (hstop : stop.toNat = d.rp.toNat + 4 + L.toNat) (out : List Byte) :
    s.decResult { d with rp := d.rp + 4, payEnd := stop, tokState := .readFlag } out =
      decTokens (some (s.outCap .dec)) (d.rp.toNat + 4) (rest.take L.toNat) out >>=
        decBlocks (some (s.outCap .dec)) (d.blkRem.toNat - 1) (d.rp.toNat + 4 + L.toNat)
          (rest.drop L.toNat) := by
  obtain ⟨hlen, hrest⟩ := State.inBytes_after_field hbytes
  have hrp : (d.rp + 4).toNat = d.rp.toNat + 4 := DecWork.rp_add_four (by omega)
  have hpayload : s.inBytes .dec (d.rp.toNat + 4) (stop.toNat - (d.rp.toNat + 4)) =
      rest.take L.toNat := by
    rw [hrest, State.inBytes_take, hstop, Nat.add_sub_cancel_left, min_eq_left (by omega)]
  have hblocks : s.blocksFrom d.n (d.blkRem.toNat - 1) stop.toNat =
      decBlocks (some (s.outCap .dec)) (d.blkRem.toNat - 1) (d.rp.toNat + 4 + L.toNat)
        (rest.drop L.toNat) := by
    funext out
    rw [State.blocksFrom, hstop, hrest, State.inBytes_drop, Nat.sub_sub, Nat.sub_sub, Nat.add_assoc]
  refine (s.decResult_payload (by simp) out).trans ?_
  simp only [DecWork.tokenPos, State.payloadLeft, DecWork.consumed, List.length_nil, Nat.sub_zero,
    List.nil_append, hrp, hpayload, hblocks]

end

/-! DEC's turns, by `D.tok_state`. -/

/-- Inside a token, `D.tok_start` is where it begins. -/
theorem DecInv.tokStart_toNat {cfg : Config} {sh : Shell} {d : DecWork} (hw : DecInv cfg sh d)
    (hst : d.tokState ≠ .hdr) (hst' : d.tokState ≠ .readFlag) :
    d.tokStart.toNat = d.tokenPos ∧ d.consumed.length ≤ d.rp.toNat := by
  obtain ⟨hesc, hlen, hval⟩ := hw.inToken
  cases hk : d.tokState with
  | hdr => exact absurd hk hst
  | readFlag => exact absurd hk hst'
  | readEscValue =>
    have hstart := hesc hk
    simp only [DecWork.tokenPos, DecWork.consumed, hk, List.length_cons, List.length_nil]
    omega
  | readRunLen =>
    have hstart := hlen hk
    simp only [DecWork.tokenPos, DecWork.consumed, hk, List.length_cons, List.length_nil]
    omega
  | readRunValue =>
    have hstart := hval hk
    simp only [DecWork.tokenPos, DecWork.consumed, hk, List.length_cons, List.length_nil]
    omega

/-- What DEC has consumed of a token is no whole token, and with nothing after it DEC misses an
operand (41_decoder.md R177, R178). -/
theorem consumed_truncated {s : State} (hst : s.dec.tokState ≠ .hdr)
    (hst' : s.dec.tokState ≠ .readFlag) : s.dec.consumed ≠ [] ∧
    ∃ e, decodeToken s.dec.consumed = .error e ∧ truncatedStep e s = s.missingOperand := by
  cases hk : s.dec.tokState with
  | hdr => exact absurd hk hst
  | readFlag => exact absurd hk hst'
  | readEscValue =>
    exact ⟨by simp [DecWork.consumed, hk], .escOperandMissing, by rw [DecWork.consumed, hk]; rfl,
      by simp only [truncatedStep, hk]⟩
  | readRunLen =>
    exact ⟨by simp [DecWork.consumed, hk], .runOperandsMissing, by rw [DecWork.consumed, hk]; rfl,
      by simp only [truncatedStep, hk]⟩
  | readRunValue =>
    exact ⟨by simp [DecWork.consumed, hk], (.runValueMissing s.dec.runLen),
      by rw [DecWork.consumed, hk]; rfl, by simp only [truncatedStep, hk]⟩

/-- A token that the payload holds is run (41_decoder.md R175 to R178). -/
theorem tokenStep_of_payloadLeft {s : State} {i : Instr} {rest : List Byte}
    (h : decodeToken (s.payloadLeft s.dec) = .ok (i, rest)) : tokenStep s = exec i s :=
  tokenStep_of_ok (s.tokenBytes_eq_take ▸ decodeToken_take h (Nat.le_add_left _ _))

/-- Before the payload's end DEC looks at what it has consumed of the token and the byte at `D.rp`. -/
theorem State.tokenBytes_of_lt {s : State} (hlt : s.dec.rp.toNat < s.dec.payEnd.toNat) :
    ∃ tail, s.tokenBytes = s.dec.consumed ++ s.readIn .dec s.dec.rp.toNat :: tail := by
  obtain ⟨k, hk⟩ : ∃ k, min maxToken (s.dec.payEnd.toNat - s.dec.rp.toNat) = k + 1 :=
    Nat.exists_eq_succ_of_ne_zero (by simp only [maxToken]; omega)
  exact ⟨_, by rw [State.tokenBytes, hk]; rfl⟩

/-- A run length is consumed, whether its value follows or not (41_decoder.md R178). -/
theorem tokenStep_readRunLen {s : State} (hb : s.decShell.status = .busy)
    (hst : s.dec.tokState = .readRunLen) (hlt : s.dec.rp.toNat < s.dec.payEnd.toNat) :
    tokenStep s = .next (s.takeRunLen (s.readIn .dec s.dec.rp.toNat)) := by
  obtain ⟨tail, hbytes⟩ := State.tokenBytes_of_lt hlt
  rw [DecWork.consumed, hst] at hbytes
  cases tail with
  | nil =>
    rw [tokenStep_of_error (e := .runValueMissing _) (by rw [hbytes]; rfl)]
    simp only [truncatedStep, hst]
  | cons v tail =>
    rw [tokenStep_of_ok (i := .run _ v) (by rw [hbytes]; rfl)]
    exact (execRun_of_readRunLen hb _ v hst).trans (if_neg (rp_ne_payEnd_of_lt hlt))

section
variable {s : State} (hb : s.decShell.status = .busy) {out : List Byte}
  {r : Except (Cause × Nat) (List Byte)} (h : s.DecComputes out r)
include hb h

/-- A PAYLOAD_LEN opens its block, or is too long (41_decoder.md R173, R174). -/
theorem State.DecComputes.exec_payloadLen (hst : s.dec.tokState = .hdr)
    (hblk : 0 < s.dec.blkRem.toNat) {L : Word} {rest : List Byte}
    (hbytes : s.inBytes .dec s.dec.rp.toNat (s.dec.n.toNat - s.dec.rp.toNat) = be32 L ++ rest) :
    ∃ t, exec (.payloadLen L) s = .next t ∧ t.DecLeadsTo r := by
  obtain ⟨hlen, -⟩ := State.inBytes_after_field hbytes
  have hfour : 4 ≤ s.dec.n.toNat - s.dec.rp.toNat := by omega
  have hleft : rest.length = s.dec.n.toNat - (s.dec.rp.toNat + 4) := by omega
  obtain ⟨-, hlong, hopen⟩ := payloadLenFixesTheBlocksEnd L s hb hst hblk
  have hr := h.result
  rw [State.decResult_header hbytes hst hblk] at hr
  by_cases hfit : L.toNat ≤ rest.length
  · rw [if_neg (not_lt.mpr hfit)] at hr
    obtain ⟨t, e, ht, he, hmoves⟩ := hopen hfour (hleft ▸ hfit)
    exact ⟨t, ht, hmoves.decLeadsTo hb h rfl ((State.decResult_opened hbytes hfit he out).trans hr)⟩
  · rw [if_pos (not_le.mp hfit)] at hr
    obtain ⟨t, ht, hfails⟩ := hlong hfour (hleft ▸ not_le.mp hfit)
    exact ⟨t, ht, hfails.decLeadsTo (by rw [← hr, DecWork.rp_add_four hfour])⟩

variable (hw : DecInv s.cfg s.decShell s.dec)
include hw

/-- The last byte of a token: what it stands for is appended, or there is no room for it. -/
theorem State.DecComputes.emit {i : Instr} {pos : Word} (hst : s.dec.tokState ≠ .hdr)
    (hlt : s.dec.rp.toNat < s.dec.payEnd.toNat)
    (hbytes : i.bytes = s.dec.consumed ++ [s.readIn .dec s.dec.rp.toNat])
    (hpos : pos.toNat = s.dec.tokenPos ∧ s.dec.consumed.length ≤ s.dec.rp.toNat)
    (htok : i.isToken = true) (hwf : i.wellFormed = true) :
    ((s.setDec { s.dec with tokStart := pos }).emit .dec pos (tokenExpansion i)
      State.nextToken).DecLeadsTo r := by
  have hresult := State.decResult_append hst hlt hbytes hpos.2 htok hwf out pos
    (s.dec.wp + BitVec.ofNat 32 (tokenExpansion i).length)
  rw [h.result, ← hpos.1] at hresult
  have hcap : s.dec.wp.toNat ≤ s.outCap .dec := hw.wpIn.1
  by_cases hroom : (tokenExpansion i).length ≤ s.outCap .dec - s.dec.wp.toNat
  · have hmoves := (State.emit_nextToken_decMoves (s := s.setDec { s.dec with tokStart := pos }) pos
      hroom).of_setDec
    rw [h.len] at hroom
    rw [appendBounded_of_room hroom] at hresult
    refine hmoves.decLeadsTo_of_store hb h (toNat_add_ofNat ?_) hresult.symm
    rw [← h.len] at hroom
    exact (Nat.add_le_of_le_sub' hcap hroom).trans_lt (outCap_lt s.cfg .dec)
  · have hfails := (State.setDec_frames s { s.dec with tokStart := pos }).failsWith_emit pos
      (not_le.mp hroom) State.nextToken
    rw [h.len] at hroom
    rw [appendBounded_of_no_room (not_le.mp hroom)] at hresult
    exact hfails.decLeadsTo hresult

/-- The payload ends inside a token. -/
theorem State.DecComputes.turn_at_end (hst : s.dec.tokState ≠ .hdr)
    (hst' : s.dec.tokState ≠ .readFlag) (hend : s.dec.rp = s.dec.payEnd) :
    ∃ t, decTurn s = .next t ∧ t.DecLeadsTo r := by
  obtain ⟨-, hrp, hpay⟩ := hw.inBlock hst
  obtain ⟨hne, e, he, htrunc⟩ := consumed_truncated hst hst'
  have hturn := (decTurn_token hb hpay hw.nLen.2 hst hrp fun hk => absurd hk hst').trans
    (tokenStep_of_error (e := e) (by rw [State.tokenBytes_at_end hend]; exact he))
  rw [htrunc] at hturn
  refine ⟨_, hturn, (s.raise_failsWith .dec .miToken s.dec.tokStart).decLeadsTo ?_⟩
  rw [(hw.tokStart_toNat hst hst').1, ← h.result]
  exact State.decResult_at_end hst hend hne he out

/-- At the payload's end the block is over, and those that follow are left (41_decoder.md R179). -/
theorem State.DecComputes.turn_endBlock (hst : s.dec.tokState = .readFlag)
    (hend : s.dec.rp = s.dec.payEnd) : ∃ t, decTurn s = .next t ∧ t.DecLeadsTo r := by
  have hne : s.dec.tokState ≠ .hdr := by simp [hst]
  obtain ⟨hblk, -, hpay⟩ := hw.inBlock hne
  have hcount : (s.dec.blkRem - 1).toNat = s.dec.blkRem.toNat - 1 := by bv_omega
  refine ⟨_, decTurn_endBlock hb hpay hw.nLen.2 hst hend,
    (s.setDec_decMoves _).decLeadsTo hb h rfl ?_⟩
  rw [← h.result, s.decResult_hdr rfl, s.decResult_payload hne, State.payloadLeft_at_end hend,
    DecWork.consumed, hst, decTokens_nil]
  simp only [hcount, hend]
  rfl

/-- A first byte is a flag, which is consumed, or a literal, which is appended (41_decoder.md R175,
R176). -/
theorem State.DecComputes.turn_firstByte (hst : s.dec.tokState = .readFlag)
    (hend : s.dec.rp ≠ s.dec.payEnd) : ∃ t, decTurn s = .next t ∧ t.DecLeadsTo r := by
  have hne : s.dec.tokState ≠ .hdr := by simp [hst]
  have hconsumed : s.dec.consumed = [] := by rw [DecWork.consumed, hst]
  obtain ⟨-, -, hpay⟩ := hw.inBlock hne
  obtain ⟨-, hlt⟩ := hw.rp_succ hne hend
  obtain ⟨hesc, hrun, hlit⟩ := firstByteIsFetched s hb hst hlt hpay hw.nLen.2
  by_cases hf : s.readIn .dec s.dec.rp.toNat = flagEsc
  · obtain ⟨t, ht, hmoves⟩ := hesc hf
    refine ⟨t, ht, hmoves.decLeadsTo_of_consume hb h hne nofun hlt rfl ?_ ⟨rfl, rfl, rfl, rfl⟩⟩
    rw [hconsumed, hf]
    rfl
  · by_cases hf' : s.readIn .dec s.dec.rp.toNat = flagRun
    · obtain ⟨t, ht, hmoves⟩ := hrun hf'
      refine ⟨t, ht, hmoves.decLeadsTo_of_consume hb h hne nofun hlt rfl ?_ ⟨rfl, rfl, rfl, rfl⟩⟩
      rw [hconsumed, hf']
      rfl
    · refine ⟨_, (hlit hf hf').trans (execLit_of_readFlag hb _ hst hlt),
        h.emit hb hw (i := .lit _) hne hlt (by rw [hconsumed]; rfl) ?_ rfl
          ((Instr.wellFormed_lit_iff _).mpr ⟨hf, hf'⟩)⟩
      rw [DecWork.tokenPos, hconsumed]
      exact ⟨rfl, Nat.zero_le _⟩

/-- The last byte of a token of several bytes, or the payload's end before it. -/
theorem State.DecComputes.turn_lastOperand {i : Instr} (hst : s.dec.tokState ≠ .hdr)
    (hst' : s.dec.tokState ≠ .readFlag)
    (hbytes : i.bytes = s.dec.consumed ++ [s.readIn .dec s.dec.rp.toNat])
    (htok : i.isToken = true) (hwf : i.wellFormed = true)
    (hexec : exec i s = if s.dec.rp = s.dec.payEnd then .next s.missingOperand
      else .next (s.emit .dec s.dec.tokStart (tokenExpansion i) State.nextToken)) :
    ∃ t, decTurn s = .next t ∧ t.DecLeadsTo r := by
  by_cases hend : s.dec.rp = s.dec.payEnd
  · exact h.turn_at_end hb hw hst hst' hend
  · obtain ⟨-, hlt⟩ := hw.rp_succ hst hend
    obtain ⟨-, hrp, hpay⟩ := hw.inBlock hst
    have hturn := (decTurn_token hb hpay hw.nLen.2 hst hrp fun hk => absurd hk hst').trans
      (tokenStep_of_payloadLeft (decodeToken_payloadLeft hlt hbytes htok hwf))
    exact ⟨_, hturn.trans (hexec.trans (if_neg hend)),
      h.emit hb hw hst hlt hbytes (hw.tokStart_toNat hst hst') htok hwf⟩

theorem State.DecComputes.turn_readEscValue (hst : s.dec.tokState = .readEscValue) :
    ∃ t, decTurn s = .next t ∧ t.DecLeadsTo r :=
  h.turn_lastOperand hb hw (i := .esc (s.readIn .dec s.dec.rp.toNat)) (by simp [hst]) (by simp [hst])
    (by rw [DecWork.consumed, hst]; rfl) rfl rfl (execEsc_of_readEscValue hb _ hst)

theorem State.DecComputes.turn_readRunValue (hst : s.dec.tokState = .readRunValue) :
    ∃ t, decTurn s = .next t ∧ t.DecLeadsTo r :=
  h.turn_lastOperand hb hw (i := .run s.dec.runLen (s.readIn .dec s.dec.rp.toNat)) (by simp [hst])
    (by simp [hst]) (by rw [DecWork.consumed, hst]; rfl) rfl rfl (execRun_of_readRunValue hb _ _ hst)

theorem State.DecComputes.turn_readRunLen (hst : s.dec.tokState = .readRunLen) :
    ∃ t, decTurn s = .next t ∧ t.DecLeadsTo r := by
  have hne : s.dec.tokState ≠ .hdr := by simp [hst]
  have hne' : s.dec.tokState ≠ .readFlag := by simp [hst]
  by_cases hend : s.dec.rp = s.dec.payEnd
  · exact h.turn_at_end hb hw hne hne' hend
  · obtain ⟨-, hlt⟩ := hw.rp_succ hne hend
    obtain ⟨-, hrp, hpay⟩ := hw.inBlock hne
    have hturn := (decTurn_token hb hpay hw.nLen.2 hne hrp fun hk => absurd hk hne').trans
      (tokenStep_readRunLen hb hst hlt)
    refine ⟨_, hturn, (s.setDec_decMoves _).decLeadsTo_of_consume hb h hne nofun hlt rfl ?_
      ⟨rfl, rfl, rfl, rfl⟩⟩
    rw [DecWork.consumed, DecWork.consumed, hst]
    rfl

/-- Where a block is due, what stands there is a PAYLOAD_LEN, or too short for one (41_decoder.md
R173). -/
theorem State.DecComputes.turn_block (hst : s.dec.tokState = .hdr)
    (hblk : 0 < s.dec.blkRem.toNat) : ∃ t, decTurn s = .next t ∧ t.DecLeadsTo r := by
  have hturn := decTurn_header hb hst hw.rpIn hw.nLen.2 hblk
  obtain hlt | ⟨L, rest, hbytes⟩ := length_lt_four_or_be32_append
    (s.inBytes .dec s.dec.rp.toNat (s.dec.n.toNat - s.dec.rp.toNat))
  · obtain ⟨k, hk⟩ := Nat.exists_eq_add_of_le' hblk
    have hr := h.result
    rw [s.decResult_hdr hst, State.blocksFrom, hk, decBlocks_of_length_lt hlt] at hr
    have hfield : decode (.lenField s.lenBytesAt) = .error .lenTruncated := by
      rw [s.lenBytesAt_eq_take]
      exact decode_lenField_of_length_lt ((List.length_take_le' _ _).trans_lt hlt)
    exact ⟨_, hturn.trans (headerStep_of_error hfield),
      (s.raise_failsWith .dec .miLen s.dec.rp).decLeadsTo hr.symm⟩
  · have hfield : decode (.lenField s.lenBytesAt) = .ok (.payloadLen L, []) := by
      rw [s.lenBytesAt_eq_take, hbytes]
      exact decode_lenField_take (decode_lenField_be32 L rest)
    rw [hturn, headerStep_of_ok hfield]
    exact h.exec_payloadLen hb hst hblk hbytes

/-- When no block remains, the job delivers what is reconstructed (41_decoder.md R180). -/
theorem State.DecComputes.turn_complete (hshell : ShellInv s.cfg .dec s.decShell)
    (hst : s.dec.tokState = .hdr) (hblk : s.dec.blkRem = 0) :
    ∃ t, decTurn s = .next t ∧ t.DecLeadsTo r := by
  have hr := h.result
  rw [s.decResult_hdr hst, hblk] at hr
  exact ⟨_, decTurn_complete hb hst hw.rpIn hw.nLen.2 hblk, .inl
    ((hshell.observe_completed hb h.len h.holds _).trans (congrArg Observation.ofResult hr))⟩

/-- Every turn of BUSY DEC leads to what DEC comes to. -/
theorem State.DecComputes.turn (hshell : ShellInv s.cfg .dec s.decShell) :
    ∃ t, decTurn s = .next t ∧ t.DecLeadsTo r := by
  cases hst : s.dec.tokState with
  | hdr =>
    by_cases hblk : s.dec.blkRem = 0
    · exact h.turn_complete hb hw hshell hst hblk
    · exact h.turn_block hb hw hst (Nat.pos_of_ne_zero fun h0 => hblk (BitVec.eq_of_toNat_eq h0))
  | readFlag =>
    by_cases hend : s.dec.rp = s.dec.payEnd
    · exact h.turn_endBlock hb hw hst hend
    · exact h.turn_firstByte hb hw hst hend
  | readEscValue => exact h.turn_readEscValue hb hw hst
  | readRunLen => exact h.turn_readRunLen hb hw hst
  | readRunValue => exact h.turn_readRunValue hb hw hst

end

/-! The whole job. -/

/-- A run of DEC ends in what DEC comes to. -/
theorem State.DecRuns.exists_runsTo {s : State} (hs : s.DecRuns) {out : List Byte}
    {r : Except (Cause × Nat) (List Byte)} (h : s.DecComputes out r) :
    ∃ k t, runsTo k s t ∧ t.decShell.observe = Observation.ofResult r := by
  refine exists_runsTo_observed (Computes := fun s => ∃ out, s.DecComputes out r) .dec
    (fun s => s.dec.stepsLeft) (fun _ hs => hs.ends_or_goes_on) (fun s hs ⟨out, h⟩ => ?_) hs ⟨out, h⟩
  rw [hs.step_eq]
  exact h.turn hs.busy (hs.inv.decBusy hs.busy) hs.inv.decShellInv

/-- The BLOCK_COUNT field of an input, as DEC reads it (20_memory.md R63). -/
theorem State.readIn32_of_be32 {s : State} {u : UnitId} {N : Word} {rest : List Byte} {k : Nat}
    (h : s.inBytes u 0 k = be32 N ++ rest) (hk : 4 ≤ k) : s.readIn32 u 0 = N := by
  have hfour := congrArg (List.take 4) h
  rw [State.inBytes_take, min_eq_left hk, List.take_left' (be32_length N)] at hfour
  exact ube32_of_be32 hfour.symm

/-- DECOMPRESS starts a job that comes to `decompress` of the input, or fails as that does for want of
BLOCK_COUNT (41_decoder.md R172). -/
theorem exec_decompress_decLeadsTo {s : State} {X : List Byte} {x : Word} (hx : startBit x = true)
    (hidle : s.decShell.status ≠ .busy) (hlen : s.decShell.inLen.toNat = X.length)
    (hcap : X.length ≤ s.inCap .dec) (hX : s.inBytes .dec 0 X.length = X) :
    ∃ t, exec (.decompress x) s = .next t ∧
      t.DecLeadsTo (decompressWithin (some (s.outCap .dec)) X) := by
  obtain ⟨-, hshort, hstart⟩ := decompressStartsAJob x s hx hidle
  rw [← hlen] at hcap
  obtain hlt | ⟨N, rest, hN⟩ := length_lt_four_or_be32_append X
  · obtain ⟨t, ht, hfails⟩ := hshort hcap (hlen ▸ hlt)
    exact ⟨t, ht, hfails.decLeadsTo (decompressWithin_of_length_lt hlt _)⟩
  · have hfour : 4 ≤ X.length := by rw [hN, List.length_append, be32_length]; omega
    have hrest : rest = s.inBytes .dec 4 (X.length - 4) :=
      (State.inBytes_after_field (hX.trans hN)).2
    obtain ⟨t, N', ht, hN', hwork, hshell, -⟩ := hstart hcap (hlen ▸ hfour)
    have hframes : State.Frames .dec s t := exec_frames ht
    obtain rfl : N' = N := by
      rw [← State.readIn32_of_be32 (hX.trans hN) hfour]
      exact BitVec.eq_of_toNat_eq (hN'.trans (ube32_toNat _ _ _ _).symm)
    refine ⟨t, ht, .inr ⟨by rw [hshell], [], by rw [hwork]; rfl, .nil _ _, ?_⟩⟩
    rw [hframes.decResult, hwork, State.decResult_hdr _ rfl, State.blocksFrom, hN,
      decompressWithin_be32_append]
    simp only [hlen]
    exact congrArg (fun bs => decBlocks _ _ 4 bs []) hrest.symm

/-- Settles O60: the command starts a job that comes to `decompress` of the input, and a run of DEC
ends in what DEC comes to. -/
theorem decompressJobComputesDecompress : Obligations.DecompressJobComputesDecompress := by
  intro s X x hs hturns hpending hx hencIdle hidle hlen hcap hX
  have hd : decode (.regWrite .dec 0 x) = .ok (.decompress x, []) := by simp [decode, hx]
  obtain ⟨t, ht, hleads⟩ := exec_decompress_decLeadsTo (s := { s with pending := [] }) hx hidle hlen
    hcap ((s.withRest_inBytes { s with pending := [] } .dec 0 _).trans hX)
  have hstep := (step_of_command hturns hpending hd).trans ht
  rw [decompressResult_eq]
  obtain hobs | ⟨hbusy, out, hcomputes⟩ := hleads
  · exact ⟨1, t, runsTo_one hstep, hobs⟩
  · obtain ⟨hshell, -, -, hpending', -, hturns'⟩ := (exec_frames ht).rest
    have hruns : t.DecRuns := ⟨everyStepKeepsTheInvariant s t hs hstep, hturns'.trans hturns,
      hpending', hshell ▸ hencIdle, hbusy⟩
    obtain ⟨k, t', hrun, hobs⟩ := hruns.exists_runsTo hcomputes
    exact ⟨k + 1, t', runsTo_succ hstep hrun, hobs⟩

end Sys2Proof.Machine
end

section
/-! PROOFS. ENC computes `compress`: the output so far with what the blocks left come to, and the writes left, are kept by every step, and are what the host observes in the end (40_encoder.md R131 to R144, 42_host_interface.md R220). -/

namespace Sys2Proof.Machine

/-! The observation of a job by the writes it has left. -/

/-- The observation of a job with output `Y` that has stored `used` bytes and has the writes `ws` left
(40_encoder.md R144). -/
def Observation.ofWrites (cap used : Nat) (ws : List (Nat × Nat)) (Y : List Byte) : Observation :=
  match overflowAt cap used ws with
  | none => Observation.delivers Y
  | some pos => Observation.fails .outOverflow pos

theorem compressResult_eq (cap : Nat) (X : List Byte) :
    compressResult cap X = Observation.ofWrites cap 0 (compressWrites X) (compress X) := rfl

theorem Observation.ofWrites_cons_of_room {cap used k : Nat} (h : k ≤ cap - used) (pos : Nat)
    (ws : List (Nat × Nat)) (Y : List Byte) : Observation.ofWrites cap used ((pos, k) :: ws) Y =
      Observation.ofWrites cap (used + k) ws Y := by
  rw [Observation.ofWrites, overflowAt, if_neg (not_lt.mpr h), Observation.ofWrites]

theorem Observation.ofWrites_cons_of_no_room {cap used k : Nat} (h : k > cap - used) (pos : Nat)
    (ws : List (Nat × Nat)) (Y : List Byte) : Observation.ofWrites cap used ((pos, k) :: ws) Y =
      Observation.fails .outOverflow pos := by
  rw [Observation.ofWrites, overflowAt, if_pos h]

/-! The writes of a block. -/

/-- The writes of what is left of a block, from raw offset `i` on. -/
def tokenWrites (i : Nat) (b : List Byte) : List (Nat × Nat) :=
  (blockTokens b.length i b).map fun t => (t.1, t.2.bytes.length)

theorem framesWrites_cons (i : Nat) (b : List Byte) (bs : List (List Byte)) :
    framesWrites i (b :: bs) =
      (i, 4) :: (tokenWrites i b ++ framesWrites (i + b.length) bs) := rfl

theorem tokenWrites_nil (i : Nat) : tokenWrites i [] = [] := rfl

theorem blockTokens_congr_fuel {f g : Nat} {bs : List Byte} (hf : bs.length ≤ f) (hg : bs.length ≤ g)
    (i : Nat) : blockTokens f i bs = blockTokens g i bs := by
  induction f generalizing g bs i with
  | zero =>
    rw [List.eq_nil_of_length_eq_zero (Nat.le_zero.mp hf), blockTokens_nil, blockTokens_nil]
  | succ f ih =>
    match g, bs with
    | g, [] => rw [blockTokens_nil, blockTokens_nil]
    | g + 1, v :: bs =>
      have hdrop := length_drop_advanceOf_le (frontRun v bs) v bs
      rw [blockTokens_cons, blockTokens_cons, ih (hdrop.trans (Nat.le_of_succ_le_succ hf))
        (hdrop.trans (Nat.le_of_succ_le_succ hg))]

/-- A block's first token is written, and then those of what is left (40_encoder.md R131). -/
theorem tokenWrites_cons (i : Nat) (v : Byte) (bs : List Byte) :
    tokenWrites i (v :: bs) = (i, (chooseToken (frontRun v bs) v).bytes.length) ::
      tokenWrites (i + advanceOf (frontRun v bs)) ((v :: bs).drop (advanceOf (frontRun v bs))) := by
  rw [tokenWrites, List.length_cons, blockTokens_cons, List.map_cons,
    blockTokens_congr_fuel (length_drop_advanceOf_le _ v bs) le_rfl]
  rfl

/-! The run that ENC counts is the one at the front of what is left of the block. -/

theorem State.runPrefix_inBytes (s : State) (u : UnitId) (v : Byte) (a k m : Nat) :
    runPrefix v k (s.inBytes u a m) = s.runFrom u v a (min k m) := by
  induction k generalizing a m with
  | zero => rw [Nat.zero_min]; rfl
  | succ k ih =>
    cases m with
    | zero => rfl
    | succ m => rw [State.inBytes, runPrefix, ih, Nat.succ_min_succ, State.runFrom]

/-! What ENC still comes to. -/

/-- A payload with its PAYLOAD_LEN field before it (20_memory.md R67). -/
def framed (payload : List Byte) : List Byte := be32 (BitVec.ofNat 32 payload.length) ++ payload

theorem frameOf_eq_framed (b : List Byte) : frameOf b = framed (encBlock b) := rfl

/-- The `k` blocks of the input from offset `p` on. -/
def State.blocksLeft (s : State) (n : Word) (k p : Nat) : List (List Byte) :=
  blocksOf k (s.inBytes .enc p (n.toNat - p))

/-- What is left of the block that ends at `stop`. -/
def State.blockLeft (s : State) (cur stop : Word) : List Byte :=
  s.inBytes .enc cur.toNat (stop.toNat - cur.toNat)

/-- The observation of a job between blocks, with output `out` so far and the blocks `bs` left. -/
def encBetweenResult (cap : Nat) (out : List Byte) (cur : Nat) (bs : List (List Byte)) : Observation :=
  Observation.ofWrites cap out.length (framesWrites cur bs) (out ++ (bs.map frameOf).flatten)

/-- The observation of a job inside a block, with output `out` before the block, the payload `pay` so
far, `b` left of the block, and the blocks `bs` left after it. -/
def encInBlockResult (cap : Nat) (out pay : List Byte) (cur : Nat) (b : List Byte)
    (bs : List (List Byte)) : Observation :=
  Observation.ofWrites cap (out.length + 4 + pay.length)
    (tokenWrites cur b ++ framesWrites (cur + b.length) bs)
    (out ++ (framed (pay ++ encBlock b) ++ (bs.map frameOf).flatten))

/-- Between blocks ENC has written `out` and comes to `r`. -/
structure State.EncBetween (s : State) (out : List Byte) (r : Observation) : Prop where
  closed : s.enc.inBlk = false
  len : s.enc.wp.toNat = out.length
  holds : s.encShell.out.Holds 0 out
  result : encBetweenResult (s.outCap .enc) out s.enc.cur.toNat
    (s.blocksLeft s.enc.n (s.enc.nblk.toNat - s.enc.blk.toNat) s.enc.cur.toNat) = r

/-- Inside a block ENC has written `out`, reserved the block's length field, written the payload `pay`
after it, and comes to `r`. -/
structure State.EncInBlock (s : State) (out pay : List Byte) (r : Observation) : Prop where
  opened : s.enc.inBlk = true
  hdr : s.enc.hdr.toNat = out.length
  len : s.enc.wp.toNat = out.length + 4 + pay.length
  holds : s.encShell.out.Holds 0 out
  holdsPay : s.encShell.out.Holds (out.length + 4) pay
  result : encInBlockResult (s.outCap .enc) out pay s.enc.cur.toNat
    (s.blockLeft s.enc.cur s.enc.blkEnd)
    (s.blocksLeft s.enc.n (s.enc.nblk.toNat - (s.enc.blk.toNat + 1)) s.enc.blkEnd.toNat) = r

/-- ENC comes to `r`. -/
def State.EncComputes (s : State) (r : Observation) : Prop :=
  (∃ out, s.EncBetween out r) ∨ ∃ out pay, s.EncInBlock out pay r

/-- The host observes `r`, or ENC is still BUSY and comes to `r`. -/
def State.EncLeadsTo (t : State) (r : Observation) : Prop :=
  t.encShell.observe = r ∨ (t.encShell.status = .busy ∧ t.EncComputes r)

theorem FailsWith.encLeadsTo {pos : Word} {s t : State} (h : FailsWith .enc .outOverflow pos s t)
    {r : Observation} (hr : Observation.fails .outOverflow pos.toNat = r) : t.EncLeadsTo r :=
  .inl (h.observe.trans hr)

theorem EncMoves.frames {e : EncWork} {a : Nat} {bs : List Byte} {s t : State}
    (h : EncMoves e a bs s t) : State.Frames .enc s t :=
  ⟨h.rest, by rw [State.shell_enc, h.shell]; rfl, by rw [State.shell_enc, h.shell]; rfl,
    by rw [State.shell_enc, h.shell]; rfl⟩

/-- What is left of ENC's input does not depend on the rest of the state. -/
theorem State.Frames.blocksLeft {s t : State} (h : State.Frames .enc s t) (n : Word) (k p : Nat) :
    t.blocksLeft n k p = s.blocksLeft n k p := by
  rw [State.blocksLeft, h.inBytes, State.blocksLeft]

theorem State.Frames.blockLeft {s t : State} (h : State.Frames .enc s t) (cur stop : Word) :
    t.blockLeft cur stop = s.blockLeft cur stop :=
  h.inBytes _ _

/-- The blocks left from `p` on begin with the one that ENC opens there (40_encoder.md R135). -/
theorem State.blocksLeft_succ (s : State) (n : Word) (k : Nat) {cur stop : Word}
    (hstop : stop.toNat = cur.toNat + min 262144 (n.toNat - cur.toNat)) :
    s.blocksLeft n (k + 1) cur.toNat = s.blockLeft cur stop :: s.blocksLeft n k stop.toNat := by
  rw [State.blocksLeft, blocksOf, State.inBytes_take, State.inBytes_drop, State.blockLeft,
    State.blocksLeft, hstop, Nat.add_sub_cancel_left]
  obtain hlast | hfull := le_total (n.toNat - cur.toNat) 262144
  · rw [min_eq_right hlast, show n.toNat - cur.toNat - blockSize = 0 from Nat.sub_eq_zero_of_le hlast,
      show n.toNat - (cur.toNat + (n.toNat - cur.toNat)) = 0 by omega]
    rfl
  · rw [min_eq_left hfull, Nat.sub_sub]

theorem State.blockLeft_length (s : State) {cur stop : Word} (h : cur.toNat ≤ stop.toNat) :
    cur.toNat + (s.blockLeft cur stop).length = stop.toNat := by
  rw [State.blockLeft, State.inBytes_length, Nat.add_sub_cancel' h]

/-- Before a block's end its next byte is left, and the run that ENC counts there is the one at the
front (40_encoder.md R136). -/
theorem State.blockLeft_of_lt {s : State} (h : s.enc.cur.toNat < s.enc.blkEnd.toNat) :
    ∃ b, s.blockLeft s.enc.cur s.enc.blkEnd = s.readIn .enc s.enc.cur.toNat :: b ∧
      frontRun (s.readIn .enc s.enc.cur.toNat) b = BitVec.ofNat 8 s.runLen := by
  refine ⟨_, s.inBytes_eq_cons .enc h, ?_⟩
  rw [frontRun, ← s.inBytes_eq_cons .enc h, State.runPrefix_inBytes]
  rfl

/-! How the result of a job unfolds, write by write. -/

section
variable {cap : Nat} {out : List Byte}

theorem encBetweenResult_nil (cap : Nat) (out : List Byte) (cur : Nat) :
    encBetweenResult cap out cur [] = Observation.delivers out := by
  rw [encBetweenResult, List.map_nil, List.flatten_nil, List.append_nil]
  rfl

theorem encBetweenResult_cons_of_no_room (h : 4 > cap - out.length) (cur : Nat) (b : List Byte)
    (bs : List (List Byte)) :
    encBetweenResult cap out cur (b :: bs) = Observation.fails .outOverflow cur := by
  rw [encBetweenResult, framesWrites_cons, Observation.ofWrites_cons_of_no_room h]

theorem encBetweenResult_cons_of_room (h : 4 ≤ cap - out.length) (cur : Nat) (b : List Byte)
    (bs : List (List Byte)) :
    encBetweenResult cap out cur (b :: bs) = encInBlockResult cap out [] cur b bs := by
  rw [encBetweenResult, framesWrites_cons, Observation.ofWrites_cons_of_room h, List.map_cons,
    List.flatten_cons, frameOf_eq_framed]
  rfl

theorem encInBlockResult_nil (cap : Nat) (out pay : List Byte) (cur : Nat) (bs : List (List Byte)) :
    encInBlockResult cap out pay cur [] bs = encBetweenResult cap (out ++ framed pay) cur bs := by
  have hlen : (out ++ framed pay).length = out.length + 4 + pay.length := by
    rw [List.length_append, framed, List.length_append, be32_length, Nat.add_assoc]
  rw [encInBlockResult, encBetweenResult, hlen, tokenWrites_nil, encBlock_nil, List.append_nil,
    List.append_assoc]
  rfl

theorem compressResult_of_room (h : 4 ≤ cap) (X : List Byte) : compressResult cap X =
    encBetweenResult cap (be32 (BitVec.ofNat 32 (blockCountOf X.length))) 0
      (blocksOf (blockCountOf X.length) X) :=
  (compressResult_eq cap X).trans (Observation.ofWrites_cons_of_room h 0 _ _)

theorem compressResult_of_no_room (h : 4 > cap) (X : List Byte) :
    compressResult cap X = Observation.fails .outOverflow 0 :=
  (compressResult_eq cap X).trans (Observation.ofWrites_cons_of_no_room h 0 _ _)

variable {pay : List Byte} {v : Byte} {b : List Byte}

theorem encInBlockResult_cons_of_no_room
    (h : (chooseToken (frontRun v b) v).bytes.length > cap - (out.length + 4 + pay.length))
    (cur : Nat) (bs : List (List Byte)) :
    encInBlockResult cap out pay cur (v :: b) bs = Observation.fails .outOverflow cur := by
  rw [encInBlockResult, tokenWrites_cons, List.cons_append, Observation.ofWrites_cons_of_no_room h]

theorem encInBlockResult_cons_of_room
    (h : (chooseToken (frontRun v b) v).bytes.length ≤ cap - (out.length + 4 + pay.length))
    (cur : Nat) (bs : List (List Byte)) :
    encInBlockResult cap out pay cur (v :: b) bs =
      encInBlockResult cap out (pay ++ (chooseToken (frontRun v b) v).bytes)
        (cur + advanceOf (frontRun v b)) ((v :: b).drop (advanceOf (frontRun v b))) bs := by
  have hadvance := advanceOf_frontRun_le v b
  have hend : cur + advanceOf (frontRun v b) + ((v :: b).drop (advanceOf (frontRun v b))).length =
      cur + (v :: b).length := by
    rw [List.length_drop]
    omega
  rw [encInBlockResult, encInBlockResult, tokenWrites_cons, List.cons_append,
    Observation.ofWrites_cons_of_room h, encBlock_cons, hend, List.append_assoc, List.length_append,
    Nat.add_assoc _ pay.length]

end

/-! The turns of BUSY ENC. -/

/-- With a token written and the cursor past what it stands for, ENC comes to the same
(40_encoder.md R141). -/
theorem State.EncInBlock.token_written {s t : State} {out pay : List Byte} {r : Observation}
    (h : s.EncInBlock out pay r) (hw : EncInv s.cfg s.encShell s.enc) {v runVal runCnt : Byte}
    {b : List Byte} (hcur : s.enc.cur.toNat ≤ s.enc.blkEnd.toNat)
    (hleft : s.blockLeft s.enc.cur s.enc.blkEnd = v :: b)
    (hroom : (chooseToken (frontRun v b) v).bytes.length ≤ s.room .enc)
    (hmoves : EncMoves { s.enc with
        runVal := runVal, runCnt := runCnt,
        wp := s.enc.wp + BitVec.ofNat 32 (chooseToken (frontRun v b) v).bytes.length,
        cur := s.enc.cur + BitVec.ofNat 32 (advanceOf (frontRun v b)) }
      s.enc.wp.toNat (chooseToken (frontRun v b) v).bytes s t) :
    t.EncInBlock out (pay ++ (chooseToken (frontRun v b) v).bytes) r := by
  have hadvance : s.enc.cur.toNat + advanceOf (frontRun v b) ≤ s.enc.blkEnd.toNat := by
    rw [← s.blockLeft_length hcur, hleft]
    exact Nat.add_le_add_left (advanceOf_frontRun_le v b) _
  have hcur' := toNat_add_ofNat (hadvance.trans_lt s.enc.blkEnd.isLt)
  have hwp := toNat_add_ofNat
    ((Nat.add_le_of_le_sub' hw.wpIn.2 hroom).trans_lt (outCap_lt s.cfg .enc))
  have hout := hmoves.out
  rw [h.len] at hout
  constructor
  case opened => rw [hmoves.work]; exact h.opened
  case hdr => rw [hmoves.work]; exact h.hdr
  case len =>
    rw [hmoves.work, List.length_append]
    simp only [hwp, h.len, Nat.add_assoc]
  case holds => exact h.holds.of_stores hout (.inl (by omega))
  case holdsPay => exact (h.holdsPay.of_stores hout (.inl le_rfl)).append hout.1
  case result =>
    have hr := h.result
    rw [State.room, State.wp, h.len] at hroom
    rw [hleft, encInBlockResult_cons_of_room hroom, ← hleft] at hr
    rw [hmoves.work, hmoves.frames.outCap, hmoves.frames.blockLeft, hmoves.frames.blocksLeft]
    simp only [State.blockLeft, hcur', State.inBytes_drop, Nat.sub_sub] at hr ⊢
    exact hr

section
variable {s : State} (hb : s.encShell.status = .busy) {out : List Byte} {r : Observation}
include hb

theorem EncMoves.busy {e : EncWork} {a : Nat} {bs : List Byte} {t : State}
    (h : EncMoves e a bs s t) : t.encShell.status = .busy := by
  rw [h.shell]
  exact hb

/-- When no block is left, the job delivers what is written (40_encoder.md R143). -/
theorem State.EncBetween.turn_complete (h : s.EncBetween out r)
    (hshell : ShellInv s.cfg .enc s.encShell) (hblk : s.enc.blk = s.enc.nblk) :
    ∃ t, encTurn s = .next t ∧ t.EncLeadsTo r := by
  have hr := h.result
  rw [hblk, Nat.sub_self] at hr
  refine ⟨_, encTurn_complete hb h.closed hblk, .inl ?_⟩
  exact (hshell.observe_completed hb h.len h.holds _).trans
    ((encBetweenResult_nil _ out _).symm.trans hr)

variable (hw : EncInv s.cfg s.encShell s.enc)
include hw

/-- A block is opened, or there is no room for its length field (40_encoder.md R135). -/
theorem State.EncBetween.turn_open (h : s.EncBetween out r)
    (hblk : s.enc.blk.toNat < s.enc.nblk.toNat) : ∃ t, encTurn s = .next t ∧ t.EncLeadsTo r := by
  obtain ⟨hfull, hopen⟩ := encOpensABlock s hb h.closed hblk
  have hr := h.result
  obtain ⟨k, hk⟩ : ∃ k, s.enc.nblk.toNat - s.enc.blk.toNat = k + 1 :=
    Nat.exists_eq_succ_of_ne_zero (by omega)
  have hk' : k = s.enc.nblk.toNat - (s.enc.blk.toNat + 1) := by omega
  rw [h.len] at hfull hopen
  by_cases hroom : 4 ≤ s.outCap .enc - out.length
  · obtain ⟨t, e, ht, he, hmoves⟩ := hopen hroom
    rw [hk, s.blocksLeft_succ _ k he, encBetweenResult_cons_of_room hroom, hk'] at hr
    have hfit : s.enc.wp.toNat + 4 ≤ s.outCap .enc :=
      Nat.add_le_of_le_sub' hw.wpIn.2 (hroom.trans_eq (congrArg (s.outCap .enc - ·) h.len.symm))
    have hwp : (s.enc.wp + 4).toNat = s.enc.wp.toNat + 4 :=
      toNat_add_ofNat (k := 4) (hfit.trans_lt (outCap_lt s.cfg .enc))
    refine ⟨t, ht, .inr ⟨hmoves.busy hb, .inr ⟨out, [], ?_, ?_, ?_, ?_, .nil _ _, ?_⟩⟩⟩
    · rw [hmoves.work]
    · rw [hmoves.work]
      exact h.len
    · rw [hmoves.work]
      exact hwp.trans (congrArg (· + 4) h.len)
    · exact h.holds.of_stores hmoves.out (.inr le_rfl)
    · rw [hmoves.work, hmoves.frames.outCap, hmoves.frames.blockLeft, hmoves.frames.blocksLeft]
      exact hr
  · obtain ⟨t, ht, hfails⟩ := hfull (not_le.mp hroom)
    have hstop := toNat_add_ofNat (p := s.enc.cur)
      (k := min 262144 (s.enc.n.toNat - s.enc.cur.toNat)) (by omega)
    rw [hk, s.blocksLeft_succ _ k hstop, encBetweenResult_cons_of_no_room (not_le.mp hroom)] at hr
    exact ⟨t, ht, hfails.encLeadsTo hr⟩

/-- A token is written and the cursor moves over what it stands for, or there is no room for it
(40_encoder.md R136 to R141). -/
theorem State.EncInBlock.turn_emit {pay : List Byte} (h : s.EncInBlock out pay r)
    (hcur : s.enc.cur.toNat < s.enc.blkEnd.toNat) : ∃ t, encTurn s = .next t ∧ t.EncLeadsTo r := by
  obtain ⟨-, hend, -⟩ := hw.opened h.opened
  have hendN : s.enc.blkEnd.toNat ≤ s.enc.n.toNat := hend.trans_le (min_le_right _ _)
  obtain ⟨hfits, hfull⟩ := encTurn_emitToken_spec hb h.opened hcur hendN hw.nLen.2 rfl rfl
  obtain ⟨b, hleft, hrun⟩ := State.blockLeft_of_lt hcur
  rw [← hrun] at hfits hfull
  by_cases hroom : (chooseToken (frontRun (s.readIn .enc s.enc.cur.toNat) b)
      (s.readIn .enc s.enc.cur.toNat)).bytes.length ≤ s.room .enc
  · obtain ⟨t, ht, hmoves⟩ := hfits hroom
    exact ⟨t, ht, .inr ⟨hmoves.busy hb, .inr ⟨out, _, h.token_written hw hcur.le hleft hroom hmoves⟩⟩⟩
  · obtain ⟨t, ht, hfails⟩ := hfull (not_le.mp hroom)
    have hr := h.result
    rw [State.room, State.wp, h.len] at hroom
    rw [hleft, encInBlockResult_cons_of_no_room (not_le.mp hroom)] at hr
    exact ⟨t, ht, hfails.encLeadsTo hr⟩

/-- The length field is written, and the block is part of the output (40_encoder.md R142). -/
theorem State.EncInBlock.turn_close {pay : List Byte} (h : s.EncInBlock out pay r)
    (hcur : s.enc.cur = s.enc.blkEnd) : ∃ t, encTurn s = .next t ∧ t.EncLeadsTo r := by
  obtain ⟨hblk, -, -, -, -, hhdr⟩ := hw.opened h.opened
  obtain ⟨t, L, ht, hL, hmoves⟩ := encClosesABlock s hb h.opened hcur hhdr hw.wpIn.2
  obtain rfl : L = BitVec.ofNat 32 pay.length := by
    rw [h.len, h.hdr, Nat.add_assoc, Nat.add_sub_cancel_left, Nat.add_sub_cancel_left] at hL
    rw [← hL, BitVec.ofNat_toNat, BitVec.setWidth_eq]
  have hout := hmoves.out
  rw [h.hdr] at hout
  refine ⟨t, ht, .inr ⟨hmoves.busy hb, .inl ⟨out ++ framed pay, ?_, ?_, ?_, ?_⟩⟩⟩
  · rw [hmoves.work]
  · rw [hmoves.work]
    simp [framed, h.len, Nat.add_assoc]
  · refine (h.holds.of_stores hout (.inl (Nat.zero_add _).le)).append ?_
    rw [Nat.zero_add]
    exact Memory.Holds.append hout.1 (h.holdsPay.of_stores hout (.inr le_rfl))
  · have hblk' : (s.enc.blk + 1).toNat = s.enc.blk.toNat + 1 := toNat_add_one hblk
    have hr := h.result
    rw [State.blockLeft, hcur, Nat.sub_self, State.inBytes, encInBlockResult_nil] at hr
    rw [hmoves.work, hmoves.frames.outCap, hmoves.frames.blocksLeft]
    simp only [hblk', hcur]
    exact hr

end

/-- Every turn of BUSY ENC leads to what ENC comes to. -/
theorem State.EncRuns.turn {s : State} (hs : s.EncRuns) {r : Observation} (h : s.EncComputes r) :
    ∃ t, encTurn s = .next t ∧ t.EncLeadsTo r := by
  have hw := hs.inv.encBusy hs.busy
  obtain ⟨out, h⟩ | ⟨out, pay, h⟩ := h
  · obtain ⟨hle, -⟩ := hw.closed h.closed
    obtain hlt | heq := hle.lt_or_eq
    · exact h.turn_open hs.busy hw hlt
    · exact h.turn_complete hs.busy hs.inv.encShellInv (BitVec.eq_of_toNat_eq heq)
  · obtain ⟨-, -, -, hle, -⟩ := hw.opened h.opened
    obtain hlt | heq := hle.lt_or_eq
    · exact h.turn_emit hs.busy hw hlt
    · exact h.turn_close hs.busy hw (BitVec.eq_of_toNat_eq heq)

/-! The whole job. -/

/-- A run of ENC ends in what ENC comes to. -/
theorem State.EncRuns.exists_runsTo {s : State} (hs : s.EncRuns) {r : Observation}
    (h : s.EncComputes r) : ∃ k t, runsTo k s t ∧ t.encShell.observe = r := by
  refine exists_runsTo_observed (Computes := fun s => s.EncComputes r) .enc
    (fun s => s.enc.stepsLeft) (fun _ hs => hs.ends_or_goes_on) (fun s hs h => ?_) hs h
  rw [hs.step_eq]
  exact hs.turn h

/-- COMPRESS starts a job that comes to `compress` of the input, or fails for want of room for
BLOCK_COUNT (40_encoder.md R132, R144). -/
theorem exec_compress_encLeadsTo {s : State} {X : List Byte} {x : Word} (hx : startBit x = true)
    (hidle : s.encShell.status ≠ .busy) (hlen : s.encShell.inLen.toNat = X.length)
    (hcap : X.length ≤ s.inCap .enc) (hX : s.inBytes .enc 0 X.length = X) :
    ∃ t, exec (.compress x) s = .next t ∧ t.EncLeadsTo (compressResult (s.outCap .enc) X) := by
  obtain ⟨-, hfull, hstart⟩ := compressStartsAJob x s hx hidle
  rw [← hlen] at hcap
  by_cases hroom : 4 ≤ s.outCap .enc
  · obtain ⟨t, N, ht, hN, hwork, hshell, hout, -⟩ := hstart hcap hroom
    have hframes : State.Frames .enc s t := exec_frames ht
    rw [← blockCountOf_eq, hlen] at hN
    have hcount : be32 N = be32 (BitVec.ofNat 32 (blockCountOf X.length)) := by
      rw [← hN, BitVec.ofNat_toNat, BitVec.setWidth_eq]
    refine ⟨t, ht, .inr ⟨by rw [hshell], .inl ⟨be32 N, by rw [hwork], by rw [hwork]; rfl, ?_, ?_⟩⟩⟩
    · intro i hi
      rw [Nat.zero_add]
      exact hout i hi
    · rw [hframes.outCap, hframes.blocksLeft, hwork, compressResult_of_room hroom, ← hcount]
      have hblocks : s.blocksLeft s.encShell.inLen (N.toNat - 0) 0 =
          blocksOf (blockCountOf X.length) X := by
        rw [State.blocksLeft, hlen, Nat.sub_zero, Nat.sub_zero, hX, hN]
      exact congrArg (encBetweenResult _ _ 0) hblocks
  · obtain ⟨t, ht, hfails⟩ := hfull hcap (not_le.mp hroom)
    exact ⟨t, ht, hfails.encLeadsTo (compressResult_of_no_room (not_le.mp hroom) X).symm⟩

/-- Settles O59: the command starts a job that comes to `compress` of the input, and a run of ENC ends
in what ENC comes to. -/
theorem compressJobComputesCompress : Obligations.CompressJobComputesCompress := by
  intro s X x hs hturns hpending hx hidle hlen hcap hX
  have hd : decode (.regWrite .enc 0 x) = .ok (.compress x, []) := by simp [decode, hx]
  obtain ⟨t, ht, hleads⟩ := exec_compress_encLeadsTo (s := { s with pending := [] }) hx hidle hlen
    hcap ((s.withRest_inBytes { s with pending := [] } .enc 0 _).trans hX)
  have hstep := (step_of_command hturns hpending hd).trans ht
  obtain hobs | ⟨hbusy, hcomputes⟩ := hleads
  · exact ⟨1, t, runsTo_one hstep, hobs⟩
  · obtain ⟨-, -, -, hpending', -, hturns'⟩ := (exec_frames ht).rest
    have hruns : t.EncRuns := ⟨everyStepKeepsTheInvariant s t hs hstep, hturns'.trans hturns,
      hpending', hbusy⟩
    obtain ⟨k, t', hrun, hobs⟩ := hruns.exists_runsTo hcomputes
    exact ⟨k + 1, t', runsTo_succ hstep hrun, hobs⟩

end Sys2Proof.Machine
end

section
/-! PROOFS. The taking of a fault, and the faults of malformed input that DEC finds: a buffer without BLOCK_COUNT, a due block without its header, a payload that ends inside a token (60_exceptions.md R242, R243, R245, R251). -/

namespace Sys2Proof.Machine

/-! A unit that is not BUSY does nothing (60_exceptions.md R261). -/

theorem encTurn_of_not_busy {s : State} (h : s.encShell.status ≠ .busy) : encTurn s = .next s :=
  if_neg (mt (s.busy_iff .enc).mp h)

theorem decTurn_of_not_busy {s : State} (h : s.decShell.status ≠ .busy) : decTurn s = .next s :=
  if_neg (mt (s.busy_iff .dec).mp h)

/-- After a fault STATUS is ERROR (60_exceptions.md R251). -/
theorem State.raise_not_busy (s : State) (u : UnitId) (c : Cause) (pos : Word) :
    ((s.raise u c pos).shell u).status ≠ .busy := by
  rw [State.raise_status]
  nofun

/-- Settles O39: the raise writes the registers and leaves the unit in ERROR, where it does nothing. -/
theorem raiseEndsTheJob : Obligations.RaiseEndsTheJob := by
  intro u c pos s
  refine ⟨s.raise_failsWith u c pos, ?_, ?_⟩ <;> rintro rfl
  · exact encTurn_of_not_busy (s.raise_not_busy .enc c pos)
  · exact decTurn_of_not_busy (s.raise_not_busy .dec c pos)

/-! The fields of the frame. -/

/-- BLOCK_COUNT is missing where its guard holds and the input has fewer than its four bytes. -/
theorem execBlockCount_missing (N : Word) {s : State} (hidle : s.decShell.status ≠ .busy)
    (hrp : s.dec.rp = 0) (hn : 4 > s.dec.n.toNat) :
    execBlockCount N s = .next (s.raise .dec .miCount 0) := by
  rw [execBlockCount, if_pos (by simp [State.busy, hidle, hrp]), if_pos]
  simpa [hrp] using hn

/-- Settles O18: the length decides, and the count is taken as it is. -/
theorem blockCountStartsTheParse : Obligations.BlockCountStartsTheParse := by
  intro N s hidle hrp
  refine ⟨fun hn => ⟨_, execBlockCount_missing N hidle hrp hn, s.raise_failsWith .dec _ _⟩,
    fun hn => ⟨_, execBlockCount_starts N hidle hrp hn, rfl, rfl, ?_⟩⟩
  exact ((s.setDec_frames _).trans (State.setBusy_frames _ .dec)).rest

/-- Settles O20: what is left of the input is too short for the field. -/
theorem missingHeaderEndsInMiLen : Obligations.MissingHeaderEndsInMiLen := by
  intro s hb hst hblk hrp hn hlt
  have hlen : s.lenBytesAt.length < 4 :=
    (s.inBytes_length .dec _ _).trans_lt (min_lt_of_right_lt hlt)
  exact ⟨_, (decTurn_header hb hst hrp hn hblk).trans
    (headerStep_of_error (decode_lenField_of_length_lt hlen)), s.raise_failsWith .dec _ _⟩

/-! A payload that ends inside a token. -/

/-- At the payload's end inside a token DEC finds the missing operand, whatever stands after the
payload (60_exceptions.md R245). -/
theorem decTurn_missingOperand {s : State} (hb : s.decShell.status = .busy)
    (hpay : s.dec.payEnd.toNat ≤ s.dec.n.toNat) (hn : s.dec.n.toNat ≤ s.inCap .dec)
    (hst : s.dec.tokState ≠ .hdr) (hst' : s.dec.tokState ≠ .readFlag)
    (hend : s.dec.rp = s.dec.payEnd) : decTurn s = .next s.missingOperand := by
  obtain ⟨-, e, he, htrunc⟩ := consumed_truncated hst hst'
  have hd : decode (.token s.tokenBytes) = .error e := by
    rw [State.tokenBytes_at_end hend]
    exact he
  rw [decTurn_token hb hpay hn hst (by rw [hend]) fun hk => absurd hk hst', tokenStep_of_error hd,
    htrunc]

/-- Settles O17: the flag, and of a RUN the length if the payload holds it, are consumed; then DEC is
at the payload's end inside the token, with `D.tok_start` at the flag. -/
theorem missingOperandEndsInMiToken : Obligations.MissingOperandEndsInMiToken := by
  intro s hb hst hpay hn
  have hturn (hlt : s.dec.rp.toNat < s.dec.payEnd.toNat) : decTurn s = tokenStep s :=
    decTurn_token hb hpay hn (by simp [hst]) hlt.le fun _ => hlt
  refine ⟨fun hrp hflag => ?_, fun hrp hrun => ?_⟩
  · have hlt : s.dec.rp.toNat < s.dec.payEnd.toNat := by omega
    have hend : s.dec.rp + 1 = s.dec.payEnd := by bv_omega
    obtain ⟨tail, hbytes⟩ := State.tokenBytes_of_readFlag hst hlt
    have hfails (next : TokState) :
        FailsWith .dec .miToken s.dec.rp s (s.fetchFlag next).missingOperand :=
      (s.setDec_frames _).failsWith_raise .miToken s.dec.rp
    obtain hesc | hrun := hflag
    · exact ⟨_, _, (hturn hlt).trans (tokenStep_flagEsc hb hst hlt (hesc ▸ hbytes)),
        decTurn_missingOperand (s := s.fetchFlag .readEscValue) hb hpay hn nofun nofun hend, hfails _⟩
    · exact ⟨_, _, (hturn hlt).trans (tokenStep_flagRun hb hst hlt (hrun ▸ hbytes)),
        decTurn_missingOperand (s := s.fetchFlag .readRunLen) hb hpay hn nofun nofun hend, hfails _⟩
  · have hlt : s.dec.rp.toNat < s.dec.payEnd.toNat := by omega
    have hlt' : (s.dec.rp + 1).toNat < s.dec.payEnd.toNat := by bv_omega
    have hend : s.dec.rp + 1 + 1 = s.dec.payEnd := by bv_omega
    obtain ⟨tail, hbytes⟩ := State.tokenBytes_of_readFlag hst hlt
    have hlen : decTurn (s.fetchFlag .readRunLen) = tokenStep (s.fetchFlag .readRunLen) :=
      decTurn_token (s := s.fetchFlag .readRunLen) hb hpay hn nofun hlt'.le nofun
    exact ⟨_, _, _, (hturn hlt).trans (tokenStep_flagRun hb hst hlt (hrun ▸ hbytes)),
      hlen.trans (tokenStep_readRunLen (s := s.fetchFlag .readRunLen) hb rfl hlt'),
      decTurn_missingOperand (s := (s.fetchFlag .readRunLen).takeRunLen _) hb hpay hn nofun nofun hend,
      ((s.setDec_frames _).trans (State.setDec_frames _ _)).failsWith_raise .miToken s.dec.rp⟩

end Sys2Proof.Machine
end

section
/-! PROOFS. The host's reset: what both units hold after it, and that neither then moves (70_reset_and_hazards.md R270, R271). -/

namespace Sys2Proof.Machine

/-- Reset gives each unit the registers of R40, whatever the unit held; only the count of resets and
that of the bytes drawn go on. -/
theorem State.hostReset_shell (s : State) (u : UnitId) :
    s.hostReset.shell u = Shell.afterReset ((s.shell u).resets + 1) (s.shell u).draws := by
  cases u <;> rfl

/-- A job in progress does not survive a reset (70_reset_and_hazards.md R271). -/
theorem State.hostReset_not_busy (s : State) (u : UnitId) :
    (s.hostReset.shell u).status ≠ .busy := by
  rw [State.hostReset_shell]
  nofun

/-- Settles O38: both units hold the registers of R40, so neither is BUSY and neither moves. -/
theorem resetAbandonsEveryJob : Obligations.ResetAbandonsEveryJob := by
  intro s
  refine ⟨s.hostReset, rfl, rfl, rfl, rfl, rfl, encTurn_of_not_busy (s.hostReset_not_busy .enc),
    decTurn_of_not_busy (s.hostReset_not_busy .dec), fun u => ?_⟩
  rw [State.hostReset_shell]
  exact ⟨rfl, rfl, rfl, rfl, rfl⟩

end Sys2Proof.Machine
end

section
/-! PROOFS. Whose turn it is when no turns are listed, and the BLOCK_COUNT field that the DECOMPRESS step runs (log 1, log 9; 42_host_interface.md R212, 41_decoder.md R172). -/

namespace Sys2Proof.Machine

/-! No turns listed. -/

section
variable {s : State} (hturns : s.turns = []) (hpending : s.pending = [])
include hturns hpending

/-- With nothing left for the host, the step is ENC's as long as ENC has a job. -/
theorem step_of_enc_busy (hb : s.encShell.status = .busy) : step s = encTurn s := by
  have hbusy : s.busy .enc = true := (s.busy_iff .enc).mpr hb
  have hnext : s.nextAgent = .enc := by simp [State.nextAgent, hpending, hbusy]
  simp only [step, hturns, hnext, agentTurn]

/-- With nothing left for the host and no job of ENC, the step is DEC's. -/
theorem step_of_enc_not_busy (hidle : s.encShell.status ≠ .busy) : step s = decTurn s := by
  have hbusy : s.busy .enc ≠ true := mt (s.busy_iff .enc).mp hidle
  have hnext : s.nextAgent = .dec := by simp [State.nextAgent, hpending, hbusy]
  simp only [step, hturns, hnext, agentTurn]

end

/-- Settles O10: the host's operation, ENC's job and DEC's are looked for in this order. -/
theorem stepWithoutTurnsPrefersHostThenEncThenDec :
    Obligations.StepWithoutTurnsPrefersHostThenEncThenDec := by
  intro s hturns
  refine ⟨fun op ops hpending => step_of_pending hturns hpending, fun hpending hb => ?_,
    fun hpending hidle hb => ?_, fun hpending hidle hb => ?_⟩
  · exact (step_of_enc_busy hturns hpending hb).trans (encTurn_of_busy hb)
  · exact (step_of_enc_not_busy hturns hpending hidle).trans (decTurn_of_busy hb)
  · exact (step_of_enc_not_busy hturns hpending hidle).trans (decTurn_of_not_busy hb)

/-! The field at the front of `D.IN`. -/

/-- At least four bytes of an input decode as BLOCK_COUNT: the word at offset 0, before the others
(30_encoding.md R91). -/
theorem State.decode_countField_inBytes (s : State) (u : UnitId) {k : Nat} (hk : 4 ≤ k) :
    decode (.countField (s.inBytes u 0 k)) =
      .ok (.blockCount (s.readIn32 u 0), s.inBytes u 4 (k - 4)) := by
  obtain hlt | ⟨N, rest, hN⟩ := length_lt_four_or_be32_append (s.inBytes u 0 k)
  · rw [State.inBytes_length] at hlt
    omega
  · obtain ⟨-, hrest⟩ := State.inBytes_after_field hN
    rw [Nat.zero_add] at hrest
    rw [hN, decode_countField_be32, State.readIn32_of_be32 hN hk, hrest]

/-- Settles O23: both length checks pass, and the count that is run is the one that the job's start
reads, from an input that it leaves as it is. -/
theorem decompressRunsBlockCount : Obligations.DecompressRunsBlockCount := by
  intro x s hx hidle hcap hlen
  have hexec : exec (.decompress x) s = _ := execDecompress_accepted hx hidle
  rw [if_neg (not_lt.mpr hcap), if_neg (not_lt.mpr hlen)] at hexec
  have hdecode := s.decStarted.decode_countField_inBytes .dec hlen
  rw [s.decStarted_frames.inBytes, s.decStarted_frames.inBytes] at hdecode
  exact ⟨_, hdecode, hexec⟩

end Sys2Proof.Machine
end
